-- ==== Sys2Proof/Word.lean ====
section
/-! DEFINITION. Words: the byte, the 32-bit host operand and the 24-bit wire address (spec rules R8, R50, R80). -/

namespace Sys2Proof

/-- The data unit everywhere: the 8-bit byte (R8). -/
abbrev Byte := BitVec 8

/-- A host operand, address or length: 32 bits (R8, R80). -/
abbrev Word := BitVec 32

/-- An address as the wire carries it: 24 bits (R50, R55). -/
abbrev WireAddr := BitVec 24

/-- One bit per 8-bit chip-select id (R8); the ids below the parameter `N_CS` name the lines (R7, R24; assumption 3). -/
abbrev LineBits := BitVec 256

end Sys2Proof
end

