-- ==== Sys2Proof/Config.lean ====
section
/-! DEFINITION. Config: the parameters of the hardware (R6, R7), held as plain data in the state so that every
statement over all states is a statement over all parameter values, and the free values. -/

namespace Sys2Proof

/-- The wire opcode parameters `OPC_*` and the filler byte `DUMMY_TX` (R7, R95). -/
structure Opcodes where
  wren : Byte
  wrdi : Byte
  rdsr : Byte
  rdid : Byte
  read : Byte
  pp : Byte
  sse : Byte
  be : Byte
  dummyTx : Byte
deriving DecidableEq, Repr

/-- The eight opcode values in the order of R95. -/
def Opcodes.values (o : Opcodes) : List Byte :=
  [o.wren, o.wrdi, o.rdsr, o.rdid, o.read, o.pp, o.sse, o.be]

/-- R95: the eight opcode values must be pairwise distinct. -/
abbrev Opcodes.wf (o : Opcodes) : Prop := o.values.Nodup

/-- The defaults of R7 and R95.  PRESUMED (unsafe), assumption 4: general knowledge, not in the source. -/
def Opcodes.default : Opcodes where
  wren := 0x06
  wrdi := 0x04
  rdsr := 0x05
  rdid := 0x9F
  read := 0x03
  pp := 0x02
  sse := 0x20
  be := 0xC7
  dummyTx := 0x00

/-- A Chip Descriptor (R21): manufacturer-id, device-id, total size in bytes, description. -/
structure ChipDescriptor where
  mfr : Byte
  dev : BitVec 16
  size : BitVec 32
  desc : String
deriving DecidableEq, Repr

/-- `INFO_INVALID_POLICY` (R7, R166). -/
inductive InfoPolicy where
  | hold
  | error
deriving DecidableEq, Repr

/-- The four waits of the sequencer (R6, R7, R310).  A wait is a label of the trace: no result depends on a
time value (R345). -/
inductive Wait where
  | pollWrite
  | settleErase
  | pollErase
  | pollChipErase
deriving DecidableEq, Repr

/-- The parameters of R6 and R7 that a configuration fixes.  `pollLimit = none` is `POLL_LIMIT = INF`.  The four
durations are lower bounds in milliseconds. -/
structure Config where
  opc : Opcodes
  /-- `N_CS`, the number of chip-select lines (R7, D6). -/
  nCs : Nat
  maxChips : Nat
  registry : List ChipDescriptor
  pollLimit : Option Nat
  infoPolicy : InfoPolicy
  tPollWrite : Nat
  tSettleErase : Nat
  tPollErase : Nat
  tPollChipErase : Nat
deriving DecidableEq, Repr

namespace Config

/-- `PAGE_SIZE` (R6). -/
abbrev pageSize : Nat := 256

/-- `SUBSECTOR_SIZE` (R6). -/
abbrev subsectorSize : Nat := 4096

/-- `BUSY_READS`, the default R250 gives a reference device. -/
abbrev busyReads : Nat := 1

/-- `ID_LEN` (R6). -/
abbrev idLen : Nat := 20

/-- `IDLE_BYTE` (R6): the first ID byte that means the line is empty. -/
abbrev idleByte : Byte := 0xFF

/-- The constraints R7, R21 and R95 put on the parameters. -/
abbrev wf (c : Config) : Prop :=
  c.opc.wf ∧ 1 ≤ c.maxChips ∧ c.maxChips ≤ 256 ∧ (∀ d ∈ c.registry, d.mfr ≠ 0) ∧ c.pollLimit ≠ some 0

/-- The least duration of a wait, in milliseconds (R6, R310). -/
def duration (c : Config) : Wait → Nat
  | .pollWrite => c.tPollWrite
  | .settleErase => c.tSettleErase
  | .pollErase => c.tPollErase
  | .pollChipErase => c.tPollChipErase

/-- Free value: the byte the environment shifts in at its `n`-th unscripted exchange (R240, assumption 1). -/
opaque freeByte : Nat → Byte

/-- Free value: a bit of a device that a frame cut short by reset leaves open (U8, assumption 12). -/
opaque freeBit : Nat → Bool

/-- Free value: how many polls a device still answers busy after a frame cut short by reset (U8, assumption 12). -/
opaque freeCount : Nat → Nat

/-- Free value: the `n`-th write-data byte of a host that presented fewer bytes than `len` (R52, assumption 2). -/
opaque freeHostByte : Nat → Byte

/-- Free value: `MAX_CHIPS - 1`, between 0 and 255, OPEN in R7 (assumption 5). -/
opaque openMaxChipsPred : Fin 256

/-- Free value: the registry's entries, OPEN in R7 (assumption 5). -/
opaque openRegistry : List ChipDescriptor

/-- Free value: `T_POLL_CHIP_ERASE`, OPEN in R7 (assumption 5). -/
opaque openPollChipErase : Nat

/-- The configuration the spec proposes as default (R6, R7); every OPEN parameter is a free value that meets the
constraint R7 states for it. -/
def default : Config where
  opc := Opcodes.default
  nCs := 256
  maxChips := openMaxChipsPred.val + 1
  registry := openRegistry.filter (fun d => d.mfr != 0)
  pollLimit := none
  infoPolicy := .hold
  tPollWrite := 1
  tSettleErase := 70
  tPollErase := 5
  tPollChipErase := openPollChipErase

end Config

end Sys2Proof
end

