-- ==== Sys2Proof/Syntax.lean ====
section
/-! DEFINITION. Syntax: the six host operations and the eight wire commands (spec/opcode_table.json, R82, R95),
one constructor a row. -/

namespace Sys2Proof

/-- An instruction.  A host operation carries the whole request record of R80 (`sel`, `addr`, `len`); a field the
operation does not use is kept and ignored.  A wire command carries what its frame carries (R91); its chip-select
line is not in the frame: it is the register `cs_cur` of the state. -/
inductive Instr where
  /-- PROBE (R161): `sel` is a chip-select id; `addr` and `len` are ignored. -/
  | probe (sel : Byte) (addr len : Word)
  /-- INFO (R165): `sel` is a handle; `addr` and `len` are ignored. -/
  | info (sel : Byte) (addr len : Word)
  /-- READ (R181): `sel` is a handle. -/
  | read (sel : Byte) (addr len : Word)
  /-- WRITE (R191): `sel` is a handle. -/
  | write (sel : Byte) (addr len : Word)
  /-- ERASE (R211): `sel` is a handle. -/
  | erase (sel : Byte) (addr len : Word)
  /-- CHIP_ERASE (R220): `sel` is a handle; `addr` and `len` are ignored. -/
  | chipErase (sel : Byte) (addr len : Word)
  /-- WREN, format F_C (R142). -/
  | wren
  /-- WRDI, format F_C (R143). -/
  | wrdi
  /-- RDSR, format F_S (R141). -/
  | rdsr
  /-- RDID, format F_I (R162). -/
  | rdid
  /-- RD, format F_AR: `n` bytes from `a` on (R182). -/
  | rd (a : WireAddr) (n : Nat)
  /-- PP, format F_AW: the bytes `data` from `a` on (R192). -/
  | pp (a : WireAddr) (data : List Byte)
  /-- SSE, format F_A (R212). -/
  | sse (a : WireAddr)
  /-- BE, format F_C (R221). -/
  | be
deriving DecidableEq, Repr

/-- The fields of a host request (R80). -/
structure Request where
  op : BitVec 3
  sel : Byte
  addr : Word
  len : Word
deriving DecidableEq, Repr

/-- A request as the host presents it: the record and, for WRITE, the stream of data bytes (R80, R27). -/
structure HostRequest where
  req : Request
  data : List Byte
deriving DecidableEq, Repr

/-- The two places an instruction is encoded (30_encoding.md): the host request, 75 bits in the field order of R80
with `op` in bits 2..0 as the opcode table has it, and the bytes a frame shifts out (R91). -/
inductive Code where
  | request (w : BitVec 75)
  | frame (out : List Byte)
deriving DecidableEq, Repr

/-- Whether an instruction is one of the six host operations. -/
def Instr.isHost : Instr → Bool
  | .probe .. => true
  | .info .. => true
  | .read .. => true
  | .write .. => true
  | .erase .. => true
  | .chipErase .. => true
  | .wren => false
  | .wrdi => false
  | .rdsr => false
  | .rdid => false
  | .rd .. => false
  | .pp .. => false
  | .sse .. => false
  | .be => false

end Sys2Proof
end

