-- ==== Sys2Proof/WellFormed.lean ====
section
/-! DEFINITION. WellFormed: the two checks the frame formats put on an instruction's operands (R91). -/

namespace Sys2Proof

/-- R91: F_AR carries `n` data bytes, `n` a 32-bit length (R92); F_AW carries between 1 and `PAGE_SIZE` bytes.
Every other operand is bounded by its type. -/
def Instr.wf : Instr → Bool
  | .probe .. => true
  | .info .. => true
  | .read .. => true
  | .write .. => true
  | .erase .. => true
  | .chipErase .. => true
  | .wren => true
  | .wrdi => true
  | .rdsr => true
  | .rdid => true
  | .rd _ n => decide (n < 2 ^ 32)
  | .pp _ data => decide (1 ≤ data.length) && decide (data.length ≤ Config.pageSize)
  | .sse _ => true
  | .be => true

end Sys2Proof
end

