-- ==== Sys2Proof/Decode.lean ====
section
/-! DEFINITION. Decode: the host request record (R80, R82), the six frame formats (R91), the decoder, total and
rejecting by name, and the encoder. -/

namespace Sys2Proof

/-! ### The host request record -/

/-- R80, R82: the `op` field of each host operation. -/
def opProbe : BitVec 3 := 0
def opInfo : BitVec 3 := 1
def opRead : BitVec 3 := 2
def opWrite : BitVec 3 := 3
def opErase : BitVec 3 := 4
def opChipErase : BitVec 3 := 5

/-- The record as one number: `op` in bits 2..0 (the opcode table), then `sel`, `addr`, `len` in the order of R80.
DESIGN CHOICE (unsafe), assumption 6: the spec gives no packing. -/
def Request.toWord (r : Request) : BitVec 75 :=
  r.len ++ r.addr ++ r.sel ++ r.op

/-- The record's fields, read back from the number. -/
def Request.ofWord (w : BitVec 75) : Request where
  op := w.extractLsb' 0 3
  sel := w.extractLsb' 3 8
  addr := w.extractLsb' 11 32
  len := w.extractLsb' 43 32

/-- Why a code has no instruction. -/
inductive DecodeError where
  /-- Host operation codes 6 and 7 (R110). -/
  | reservedOperation
  /-- A frame without an exchange (R90). -/
  | emptyFrame
  /-- A first byte that is none of the eight opcodes (R112). -/
  | unknownOpcode
  /-- A frame whose length its format does not allow (R91, R92). -/
  | wrongLength
  /-- A data-in exchange that shifts out another byte than `DUMMY_TX` (R90). -/
  | wrongFiller
deriving DecidableEq, Repr

/-- R82, R110: the operation a request names; codes 6 and 7 are reserved. -/
def decodeRequest (r : Request) : Except DecodeError Instr :=
  if r.op = opProbe then .ok (.probe r.sel r.addr r.len)
  else if r.op = opInfo then .ok (.info r.sel r.addr r.len)
  else if r.op = opRead then .ok (.read r.sel r.addr r.len)
  else if r.op = opWrite then .ok (.write r.sel r.addr r.len)
  else if r.op = opErase then .ok (.erase r.sel r.addr r.len)
  else if r.op = opChipErase then .ok (.chipErase r.sel r.addr r.len)
  else .error .reservedOperation

/-! ### Frame formats -/

/-- Which half of an exchange is used (R90, R14): nothing or only the controller keeps it (`plain`), the input goes
to the host (`toHost`), the output comes from the host (`fromHost`). -/
inductive Role where
  | plain
  | toHost
  | fromHost
deriving DecidableEq, Repr

/-- One byte exchange of a frame: its role and the byte shifted out (R14, R133). -/
structure Exchange where
  role : Role
  out : Byte
deriving DecidableEq, Repr

/-- The bytes a list of exchanges shifts out. -/
def outs (xs : List Exchange) : List Byte := xs.map Exchange.out

/-- R55, R93, R145 (SEND_ADDR24): the three address bytes, most significant first. -/
def addrBytes (a : WireAddr) : List Byte :=
  [a.extractLsb' 16 8, a.extractLsb' 8 8, a.extractLsb' 0 8]

/-- The address three bytes stand for, most significant first (R93). -/
def addrOfBytes (a2 a1 a0 : Byte) : WireAddr := a2 ++ a1 ++ a0

/-- Exchanges that shift out given bytes and whose input is not handed to the host. -/
def plainExchanges (bs : List Byte) : List Exchange := bs.map (Exchange.mk .plain)

/-- R91 `F_C`: the opcode alone. -/
def formatC (opc : Byte) : List Exchange := plainExchanges [opc]

/-- R91 `F_S`: opcode, one status byte in. -/
def formatS (opc dummy : Byte) : List Exchange := plainExchanges [opc, dummy]

/-- R91 `F_I`: opcode, `ID_LEN` identification bytes in. -/
def formatI (opc dummy : Byte) : List Exchange :=
  plainExchanges (opc :: List.replicate Config.idLen dummy)

/-- R91 `F_A`: opcode, address. -/
def formatA (opc : Byte) (a : WireAddr) : List Exchange := plainExchanges (opc :: addrBytes a)

/-- R91 `F_AR`: opcode, address, `n` data bytes in, each handed to the host (R182). -/
def formatAR (opc : Byte) (a : WireAddr) (n : Nat) (dummy : Byte) : List Exchange :=
  formatA opc a ++ List.replicate n ⟨.toHost, dummy⟩

/-- R91 `F_AW`: opcode, address, data bytes out, each taken from the host (R192). -/
def formatAW (opc : Byte) (a : WireAddr) (data : List Byte) : List Exchange :=
  formatA opc a ++ data.map (Exchange.mk .fromHost)

/-! ### Decoder -/

/-- `F_AR`'s operands from the bytes after the opcode: every data-in exchange shifts out `DUMMY_TX` (R90). -/
def decodeAR (dummy : Byte) : List Byte → Except DecodeError Instr
  | a2 :: a1 :: a0 :: ds =>
    if ds.length < 2 ^ 32 then
      if ds.all (· == dummy) then .ok (.rd (addrOfBytes a2 a1 a0) ds.length) else .error .wrongFiller
    else .error .wrongLength
  | _ => .error .wrongLength

/-- `F_AW`'s operands from the bytes after the opcode. -/
def decodeAW : List Byte → Except DecodeError Instr
  | a2 :: a1 :: a0 :: ds =>
    if 1 ≤ ds.length ∧ ds.length ≤ Config.pageSize then .ok (.pp (addrOfBytes a2 a1 a0) ds)
    else .error .wrongLength
  | _ => .error .wrongLength

/-- `F_A`'s operand from the bytes after the opcode. -/
def decodeA : List Byte → Except DecodeError Instr
  | [a2, a1, a0] => .ok (.sse (addrOfBytes a2 a1 a0))
  | _ => .error .wrongLength

/-- `F_C`, `F_S` and `F_I`: after the opcode exactly `n` data-in exchanges, and no operand. -/
def decodeFixed (i : Instr) (n : Nat) (dummy : Byte) (rest : List Byte) : Except DecodeError Instr :=
  if rest.length = n then
    if rest.all (· == dummy) then .ok i else .error .wrongFiller
  else .error .wrongLength

/-- R96: a frame's wire command is identified by its first byte alone, and its format gives the rest. -/
def decodeFrame (o : Opcodes) : List Byte → Except DecodeError Instr
  | [] => .error .emptyFrame
  | b :: rest =>
    if b = o.wren then decodeFixed .wren 0 o.dummyTx rest
    else if b = o.wrdi then decodeFixed .wrdi 0 o.dummyTx rest
    else if b = o.rdsr then decodeFixed .rdsr 1 o.dummyTx rest
    else if b = o.rdid then decodeFixed .rdid Config.idLen o.dummyTx rest
    else if b = o.read then decodeAR o.dummyTx rest
    else if b = o.pp then decodeAW rest
    else if b = o.sse then decodeA rest
    else if b = o.be then decodeFixed .be 0 o.dummyTx rest
    else .error .unknownOpcode

/-- The instruction a code stands for. -/
def decode (o : Opcodes) : Code → Except DecodeError Instr
  | .request w => decodeRequest (Request.ofWord w)
  | .frame out => decodeFrame o out

/-! ### Encoder -/

/-- R95 with R91: the frame of each wire command; a host operation has none. -/
def frameOf (o : Opcodes) : Instr → List Exchange
  | .probe .. => []
  | .info .. => []
  | .read .. => []
  | .write .. => []
  | .erase .. => []
  | .chipErase .. => []
  | .wren => formatC o.wren
  | .wrdi => formatC o.wrdi
  | .rdsr => formatS o.rdsr o.dummyTx
  | .rdid => formatI o.rdid o.dummyTx
  | .rd a n => formatAR o.read a n o.dummyTx
  | .pp a data => formatAW o.pp a data
  | .sse a => formatA o.sse a
  | .be => formatC o.be

/-- The code of an instruction (R80 with R82; R91 with R95). -/
def encode (o : Opcodes) : Instr → Code
  | .probe sel addr len => .request (Request.toWord ⟨opProbe, sel, addr, len⟩)
  | .info sel addr len => .request (Request.toWord ⟨opInfo, sel, addr, len⟩)
  | .read sel addr len => .request (Request.toWord ⟨opRead, sel, addr, len⟩)
  | .write sel addr len => .request (Request.toWord ⟨opWrite, sel, addr, len⟩)
  | .erase sel addr len => .request (Request.toWord ⟨opErase, sel, addr, len⟩)
  | .chipErase sel addr len => .request (Request.toWord ⟨opChipErase, sel, addr, len⟩)
  | .wren => .frame (outs (frameOf o .wren))
  | .wrdi => .frame (outs (frameOf o .wrdi))
  | .rdsr => .frame (outs (frameOf o .rdsr))
  | .rdid => .frame (outs (frameOf o .rdid))
  | .rd a n => .frame (outs (frameOf o (.rd a n)))
  | .pp a data => .frame (outs (frameOf o (.pp a data)))
  | .sse a => .frame (outs (frameOf o (.sse a)))
  | .be => .frame (outs (frameOf o .be))

/-! ### The opcode table's words -/

/-- The first `n` bytes of a number, least significant byte first, as the table numbers an instruction's bits. -/
def tableBytes (w : Nat) : Nat → List Byte
  | 0 => []
  | n + 1 => BitVec.ofNat 8 w :: tableBytes (w / 256) n

/-- How many bytes the frame has that starts with `b` and of which the table gives `given` bytes: the format's
length (R91), where the format leaves it open the given bytes and at least the shortest frame. -/
def frameLength (o : Opcodes) (b : Byte) (given : Nat) : Nat :=
  if b = o.rdsr then 2
  else if b = o.rdid then 1 + Config.idLen
  else if b = o.sse then 4
  else if b = o.read then max given 4
  else if b = o.pp then max given 5
  else 1

/-- The code a table word stands for.  The table's two spaces overlap (READ and PP are both 2, and so on), so the
number of bits decides: one byte 0 to 5, or more than 32 bits, is a host request, anything else a frame whose
bytes above `nbits` are 0.  DESIGN CHOICE (safe), assumption 7. -/
def tableCode (nbits w : Nat) : Code :=
  if 32 < nbits ∨ (nbits ≤ 8 ∧ w < 6) then .request (BitVec.ofNat 75 w)
  else .frame (tableBytes w (frameLength Opcodes.default (BitVec.ofNat 8 w) ((nbits + 7) / 8)))

/-- The instruction the decoder reads from a word of spec/opcode_table.json, with the default opcodes the table
prints. -/
def decodeTableWord (nbits w : Nat) : Option Instr :=
  (decode Opcodes.default (tableCode nbits w)).toOption

end Sys2Proof
end

