-- ==== Sys2Proof/Machine/State.lean ====
section
/-! DEFINITION. State: everything the spec gives the controller (10_state.md), the environment it talks to
(47_flash_device_env.md), the reasons a step can stop, and the state after reset (R35). -/

namespace Sys2Proof.Machine

/-! ### Flash arrays (R50, R250) -/

/-- A flash array: the bytes that differ from an erased byte, by address. -/
abbrev Memory := List Host.Cell

/-- What an unlisted address reads as: the erased byte.  PRESUMED (unsafe), assumption 8 (R261). -/
def erasedByte : Byte := 0xFF

/-- The canonical form: addresses strictly rising, no entry equal to what an unlisted address reads as. -/
abbrev Memory.wf (m : Memory) : Prop :=
  (m.map Prod.fst).Pairwise (· < ·) ∧ ∀ c ∈ m, c.2 ≠ erasedByte

/-! ### The reference device (R250) and the lines -/

/-- The program or erase a device is executing (R250 `pending`). -/
inductive Pending where
  | program (cells : List Host.Cell)
  | erase (lo hi : Nat)
deriving DecidableEq, Repr

/-- A reference device (R250), a simulator only.  `rx` holds the bytes of the frame in progress; `refusals` says
of each coming WREN whether the device refuses to arm (R254). -/
structure RefDevice where
  size : Nat
  mem : Memory
  wel : Bool
  wip : Bool
  bp : BitVec 3
  tb : Bool
  b6 : Bool
  srwd : Bool
  id : Vector Byte 20
  pending : Option Pending
  busyLeft : Nat
  busyReads : Nat
  refusals : List Bool
  rx : List Byte
deriving DecidableEq, Repr

/-- What stands on a chip-select line.  `oracle` is the contract of R240: every byte it answers is the
environment's choice.  `empty` (R251) and `device` (R250) are for simulation. -/
inductive Line where
  | oracle
  | empty
  | device (d : RefDevice)
deriving DecidableEq, Repr

/-- The environment on the bus side.  `lines` lists the lines that are not an oracle, ids strictly rising.  `miso`
is a script of the bytes the oracle answers next; past its end it answers free values; `freeIn` counts the
environment's free values used (assumptions 1 and 12). -/
structure Env where
  lines : List (Nat × Line)
  miso : List Byte
  freeIn : Nat
deriving DecidableEq, Repr

/-! ### Bus events, result codes, sequencer states -/

/-- The bus events of R14. -/
inductive BusEvent where
  | pinInit (c : Byte)
  | busInit
  | sel (c : Byte)
  | desel (c : Byte)
  | xfer (o i : Byte)
  | delay (t : Wait)
  | hostIn (b : Byte)
  | hostOut (b : Byte)
deriving DecidableEq, Repr

/-- The result kinds of R281. -/
inductive ResultCode where
  | ok
  | noDevice
  | unsupportedDevice
  | tooManyChips
  | invalidHandle
  | writeEnableFailed
  | timeout
deriving DecidableEq, Repr

/-- The sequencer states of R30. -/
inductive Fsm where
  | idle
  | pInit | pId | pResolve
  | iLookup
  | rCheck | rFrame
  | wCheck | wNext | wWren | wVerify | wPp | wWrdi | wPoll | wWait | wAdv
  | eCheck | eNext | eWren | eVerify | eSse | eSettle | ePoll | eWait | eAdv | eWrdi
  | cCheck | cWren | cVerify | cBe | cPoll | cWait
  | done
deriving DecidableEq, Repr

/-- One bound entry of the Attached Chip table (R22): chip-select id and registry index. -/
structure Attached where
  cs : Byte
  type : Nat
deriving DecidableEq, Repr

/-! ### The state -/

/-- The machine.  The Attached Chip table `att` lists its bound entries, so `att_count` is its length and an entry
at or above `att_count` does not exist (R22). -/
structure State where
  /-- Parameters (R6, R7); `cfg.registry` is the Chip Registry ROM (R21). -/
  cfg : Config
  /-- Attached Chip table (R22). -/
  att : List Attached
  /-- Line configured as an output, a bit per line (R24). -/
  csOe : LineBits
  /-- Level driven, a bit per line, 1 = deasserted (R24). -/
  csN : LineBits
  /-- Byte-exchange engine initialised (R24). -/
  busInit : Bool
  /-- Host port (R27). -/
  busy : Bool
  resCode : BitVec 3
  resHandle : Byte
  infoMfr : Byte
  infoDev : BitVec 16
  infoSize : BitVec 32
  infoDesc : String
  /-- Bytes handed to the host on `rdata` since the last request was accepted. -/
  rdata : List Byte
  /-- Bytes of the accepted request's `wdata` stream the controller has not yet taken. -/
  wdata : List Byte
  /-- Sequencer state (R30). -/
  fsm : Fsm
  /-- Working registers (R25). -/
  op : BitVec 3
  sel : Byte
  addr : Word
  len : Word
  csCur : Byte
  cur : Nat
  rem : Word
  off : Word
  k : BitVec 9
  endAddr : Nat
  stat : Byte
  idbuf : Vector Byte 20
  polls : Nat
  /-- Bus trace so far, oldest event first (R10, R14). -/
  trace : List BusEvent
  /-- Environment on the bus side (47_flash_device_env.md). -/
  env : Env
  /-- Requests the host presents, in order (R27, R31). -/
  requests : List HostRequest
  /-- How many free host bytes have been used (assumption 2). -/
  freeHost : Nat
  /-- The reset input, one entry for each coming step: `none` for no reset, `some n` for a reset that arrives
  after `n` of the step's bus events (R320, R322). -/
  resetPlan : List (Option Nat)
deriving DecidableEq, Repr

/-- `att_count` (R22). -/
def State.attCount (s : State) : Nat := s.att.length

/-- The reasons the machine stops. -/
inductive Fault where
  /-- Raised by INFO when a bound entry's registry index names no entry of the registry, which R23(c) rules out
  and for which R122 gives no result.  Safe: no state that keeps R23 reaches it. -/
  | registryIndex
  /-- Raised by a host operation's state machine in a sequencer state that belongs to another operation, and by a
  busy sequencer whose `op` register holds code 6 or 7; R30 gives such a state no transition.  Safe: no state a
  run reaches is one. -/
  | lostSequencer
deriving DecidableEq, Repr

/-- The reasons an instruction has no meaning. -/
inductive Refusal where
  /-- An instruction that has no meaning yet.  Safe.  No arm of `exec` answers with it. -/
  | notModelled (mnemonic : String)
  /-- Raised by a step in `IDLE` whose presented request has the reserved operation code 6 or 7: R110 has a model
  refuse it.  Safe. -/
  | reservedOperation
deriving DecidableEq, Repr

/-- What an instruction or a step answers. -/
abbrev Outcome := Host.Outcome State Fault Refusal

/-- The environment of which nothing is assumed (R240, R241): every line an unscripted oracle. -/
def Env.unknown : Env where
  lines := []
  miso := []
  freeIn := 0

/-- R35: the machine after reset, for given parameters.  The registers whose reset value R25, R27 and R35 leave
unspecified (`res_handle` and the working registers) are zero: DESIGN CHOICE (unsafe), assumption 9. -/
def State.resetWith (cfg : Config) : State where
  cfg := cfg
  att := []
  csOe := 0
  csN := BitVec.allOnes 256
  busInit := false
  busy := false
  resCode := 0
  resHandle := 0
  infoMfr := 0
  infoDev := 0
  infoSize := 0
  infoDesc := ""
  rdata := []
  wdata := []
  fsm := .idle
  op := 0
  sel := 0
  addr := 0
  len := 0
  csCur := 0
  cur := 0
  rem := 0
  off := 0
  k := 0
  endAddr := 0
  stat := 0
  idbuf := Vector.replicate 20 0
  polls := 0
  trace := []
  env := Env.unknown
  requests := []
  freeHost := 0
  resetPlan := []

/-- The machine right after reset, with the parameters' defaults, an unknown environment and no request. -/
def State.reset : State := State.resetWith Config.default

end Sys2Proof.Machine
end

