-- ==== Sys2Proof/Machine/Flags.lean ====
section
/-! DEFINITION. Flags: the controller keeps none of its own (R26); these are the bits of a device's STATUS byte
(R28) and the composition of that byte by the reference device (R252). -/

namespace Sys2Proof.Machine

/-- Write-in-progress, bit 0. -/
def statusWip (b : Byte) : Bool := b.getLsbD 0

/-- Write-enable latch, bit 1. -/
def statusWel (b : Byte) : Bool := b.getLsbD 1

/-- Block-protect, bits 4..2; no rule reads it (R113). -/
def statusBp (b : Byte) : BitVec 3 := b.extractLsb' 2 3

/-- Top/bottom select, bit 5; no rule reads it (R113). -/
def statusTb (b : Byte) : Bool := b.getLsbD 5

/-- Bit 6, unnamed by the source; no rule reads it (R113). -/
def statusB6 (b : Byte) : Bool := b.getLsbD 6

/-- Status-write-disable, bit 7; no rule reads it (R113). -/
def statusSrwd (b : Byte) : Bool := b.getLsbD 7

/-- R252: `srwd || b6 || tb || bp || wel || wip`. -/
def statusByte (srwd b6 tb : Bool) (bp : BitVec 3) (wel wip : Bool) : Byte :=
  BitVec.ofBool srwd ++ BitVec.ofBool b6 ++ BitVec.ofBool tb ++ bp ++ BitVec.ofBool wel ++ BitVec.ofBool wip

end Sys2Proof.Machine
end

