-- ==== Sys2Proof/Machine/Memory.lean ====
section
/-! DEFINITION. Memory: reading, writing, programming and erasing a flash array (R50, R255, R260). -/

namespace Sys2Proof.Machine

/-- One byte of an array. -/
def Memory.read : Memory → Nat → Byte
  | [], _ => erasedByte
  | (x, v) :: m, a => if x = a then v else Memory.read m a

/-- Store one byte, keeping the canonical form. -/
def Memory.write : Memory → Nat → Byte → Memory
  | [], a, b => if b = erasedByte then [] else [(a, b)]
  | (x, v) :: m, a, b =>
    if x < a then (x, v) :: Memory.write m a b
    else if x = a then (if b = erasedByte then m else (a, b) :: m)
    else (if b = erasedByte then (x, v) :: m else (a, b) :: (x, v) :: m)

/-- R260, R261: programming a byte clears bits: the AND of old value and data. -/
def Memory.programByte (m : Memory) (a : Nat) (b : Byte) : Memory :=
  m.write a (m.read a &&& b)

/-- R260: a program's cells, in order. -/
def Memory.program (m : Memory) (cells : List Host.Cell) : Memory :=
  cells.foldl (fun m c => m.programByte c.1 c.2) m

/-- R260: every byte from `lo` to `hi` becomes the erased byte. -/
def Memory.erase (m : Memory) (lo hi : Nat) : Memory :=
  m.filter (fun c => !(decide (lo ≤ c.1) && decide (c.1 ≤ hi)))

/-- U8: the `n` bytes from `lo` on become free values, from number `free` on (assumption 12). -/
def Memory.scramble (m : Memory) (lo free : Nat) : Nat → Memory
  | 0 => m
  | n + 1 => (Memory.scramble m lo free n).write (lo + n) (Config.freeByte (free + n))

end Sys2Proof.Machine
end

