-- ==== Sys2Proof/Machine/Operands.lean ====
section
/-! DEFINITION. Operands: how an operation's addresses, lengths and identification bytes are computed. -/

namespace Sys2Proof.Machine

/-- R55: the address a frame carries; bits above 23 are dropped. -/
def wireAddr (a : Nat) : WireAddr := BitVec.ofNat 24 a

/-- R56: the device-id, high byte first. -/
def deviceId (hi lo : Byte) : BitVec 16 := hi ++ lo

/-- R191: the length of the next chunk, in the 9 bits of `k` (R25). -/
def chunkLen (rem : Word) : BitVec 9 := BitVec.ofNat 9 (min rem.toNat Config.pageSize)

/-- R61, R211: an address aligned down to its sub-sector. -/
def alignDown (a : Nat) : Nat := a - a % Config.subsectorSize

/-- R211: the end of the requested range; natural arithmetic, no wrap (D16). -/
def rangeEnd (a n : Nat) : Nat := a + n

/-- R257: the base of the page an address lies in. -/
def pageBase (a : Nat) : Nat := a - a % Config.pageSize

end Sys2Proof.Machine
end

