-- ==== Sys2Proof/Machine/Device.lean ====
section
/-! DEFINITION. Device: what the environment answers to a frame: the oracle (R240), an empty line and the reference
device (R250 to R264, a simulator only). -/

namespace Sys2Proof.Machine

namespace RefDevice

/-- R252: the STATUS byte. -/
def status (d : RefDevice) : Byte := statusByte d.srwd d.b6 d.tb d.bp d.wel d.wip

/-- R260: the pending program or erase completes; WIP and the latch clear. -/
def complete (d : RefDevice) : RefDevice :=
  { d with
    mem := match d.pending with
      | none => d.mem
      | some (.program cells) => d.mem.program cells
      | some (.erase lo hi) => d.mem.erase lo hi
    pending := none
    wip := false
    wel := false }

/-- R252: what a status read does to a busy device before the byte is composed. -/
def tick (d : RefDevice) : RefDevice :=
  if d.wip then
    if d.busyLeft = 0 then d.complete else { d with busyLeft := d.busyLeft - 1 }
  else d

/-- The address in the frame received so far. -/
def rxAddr (d : RefDevice) : Nat :=
  (addrOfBytes (d.rx.getD 1 0) (d.rx.getD 2 0) (d.rx.getD 3 0)).toNat

/-- The byte answered to the next exchange of the frame (R252, R253, R255, R256).  The answers to opcode, address
and data-out exchanges are discarded by the controller; here they are 0xFF (assumption 10). -/
def answer (o : Opcodes) (d : RefDevice) : Byte :=
  match d.rx with
  | [] => 0xFF
  | opc :: rest =>
    if opc = o.rdsr ∧ rest = [] then d.tick.status
    else if d.wip then 0xFF
    else if opc = o.rdid then (if h : rest.length < 20 then d.id[rest.length] else 0xFF)
    else if opc = o.read ∧ 3 ≤ rest.length then d.mem.read ((d.rxAddr + (rest.length - 3)) % d.size)
    else 0xFF

/-- One exchange: the answer, the effect of a status read (R252), and the byte received. -/
def exchange (o : Opcodes) (out : Byte) (d : RefDevice) : Byte × RefDevice :=
  let d' := if d.rx = [o.rdsr] then d.tick else d
  (d.answer o, { d' with rx := d.rx ++ [out] })

/-- R257: the cells of a page program; the address wraps inside the page (R262). -/
def programCells (a : Nat) (data : List Byte) : List Host.Cell :=
  data.zipIdx.map (fun p => (pageBase a + (a + p.2) % Config.pageSize, p.1))

/-- R257, R258, R259: a program or erase begins. -/
def start (d : RefDevice) (p : Pending) : RefDevice :=
  { d with pending := some p, wip := true, busyLeft := d.busyReads }

/-- R254: WREN on a device that is not busy; the device may refuse to arm.  R254 says of a refusal that `wel` stays 0; what
a refused WREN leaves of a latch that is already set it does not say: here the latch stays set (DESIGN CHOICE,
assumption 28). -/
def armed (d : RefDevice) : RefDevice :=
  match d.refusals with
  | [] => { d with wel := true }
  | true :: rs => { d with refusals := rs }
  | false :: rs => { d with wel := true, refusals := rs }

/-- Whether every cell of a program lies in the array. -/
def holdsCells (d : RefDevice) (cells : List Host.Cell) : Bool := cells.all (fun c => decide (c.1 < d.size))

/-- R251: the device acts on a state-changing command at `DESEL` (R254, R257, R258, R259); a busy device ignores
it (R256), so does a device whose latch is clear (R243).  A program with a cell
outside `0 .. size-1` and an erase whose address is outside have no device-side meaning (R67, U3): the line is an oracle
from then on (assumption 11).  An erase inside erases the bytes its sub-sector has in the array (R258, R260).  The bounds
of a whole operation are `Env.claim`'s. -/
def atDeselect (o : Opcodes) (d : RefDevice) : Line :=
  let d0 := { d with rx := [] }
  match d.rx with
  | [] => .device d0
  | opc :: rest =>
    if d.wip then .device d0
    else if opc = o.wren then .device d0.armed
    else if opc = o.wrdi then .device { d0 with wel := false }
    else if d.wel = false then .device d0
    else if opc = o.pp then
      let cells := programCells d.rxAddr (rest.drop 3)
      if d.holdsCells cells then .device (d0.start (.program cells)) else .oracle
    else if opc = o.sse then
      let lo := alignDown d.rxAddr
      if d.rxAddr < d.size then
        .device (d0.start (.erase lo (lo + (Config.subsectorSize - 1))))
      else .oracle
    else if opc = o.be then .device (d0.start (.erase 0 (d.size - 1)))
    else .device d0

/-- R265: a reference device as the spec's programs start with it, its array given.  R265 gives `wel`, `wip`, `pending` and
`mem`, R264 the four constants; that `busy_reads` is 0 and no refusal is to come is the model's (DESIGN CHOICE, assumption
29). -/
def initial (size : Nat) (id : Vector Byte 20) (busyReads : Nat) (mem : Memory) : RefDevice where
  size := size
  mem := mem
  wel := false
  wip := false
  bp := 0
  tb := false
  b6 := false
  srwd := false
  id := id
  pending := none
  busyLeft := 0
  busyReads := busyReads
  refusals := []
  rx := []

/-- U8: a program or erase frame of `n` bytes from `lo` on, cut short on a device that would take it: those bytes, the
latch and the busy flag are free values; the rest of the array and the identification stay (R322). -/
def disturbed (d : RefDevice) (lo n free : Nat) : RefDevice :=
  { d with
    mem := d.mem.scramble lo free n
    wel := Config.freeBit free
    wip := Config.freeBit (free + 1)
    pending := none
    busyLeft := Config.freeCount free
    rx := [] }

/-- The `n` bytes from `lo` on, as many of them as the array has. -/
def clip (d : RefDevice) (lo n : Nat) : Nat × Nat := (lo, min n (d.size - lo))

/-- The first byte and the number of bytes of the array in the page, the sub-sector or the array a program or erase command
addresses (R257, R258, R259); none for the other commands. -/
def extent (d : RefDevice) : Instr → Option (Nat × Nat)
  | .pp a _ => some (d.clip (pageBase a.toNat) Config.pageSize)
  | .sse a => some (d.clip (alignDown a.toNat) Config.subsectorSize)
  | .be => some (0, d.size)
  | .wren => none
  | .wrdi => none
  | .rdsr => none
  | .rdid => none
  | .rd _ _ => none
  | .probe .. => none
  | .info .. => none
  | .read .. => none
  | .write .. => none
  | .erase .. => none
  | .chipErase .. => none

/-- Whether a program or erase has a device-side meaning at its address (R67, U3): its cells or its address lie in the array. -/
def inArray (d : RefDevice) : Instr → Bool
  | .pp a data => d.holdsCells (programCells a.toNat data)
  | .sse a => decide (a.toNat < d.size)
  | .be => true
  | .wren => true
  | .wrdi => true
  | .rdsr => true
  | .rdid => true
  | .rd _ _ => true
  | .probe .. => true
  | .info .. => true
  | .read .. => true
  | .write .. => true
  | .erase .. => true
  | .chipErase .. => true

/-- Whether a command sets or clears the latch (R254). -/
def changesLatch : Instr → Bool
  | .wren => true
  | .wrdi => true
  | .rdsr => false
  | .rdid => false
  | .rd _ _ => false
  | .pp _ _ => false
  | .sse _ => false
  | .be => false
  | .probe .. => false
  | .info .. => false
  | .read .. => false
  | .write .. => false
  | .erase .. => false
  | .chipErase .. => false

/-- R322, U8: the frame of a command cut short by reset, and how many free values it took (assumption 12).  The device
keeps everything if no byte reached it, if the command changes nothing (R65) or if the device would ignore it (R256,
R243); a cut WREN or WRDI leaves the latch open; a cut program or erase its own page or sub-sector, the latch and the
busy flag, and where `inArray` fails it has no device-side meaning (assumption 11). -/
def cutShort (d : RefDevice) (w : Instr) (free : Nat) : Line × Nat :=
  let d0 := { d with rx := [] }
  if d.rx = [] ∨ d.wip = true then (.device d0, 0)
  else if changesLatch w then (.device { d0 with wel := Config.freeBit free }, 1)
  else
    match d.extent w with
    | none => (.device d0, 0)
    | some (lo, n) =>
      if d.wel = false then (.device d0, 0)
      else if d.inArray w then (.device (d.disturbed lo n free), n + 2)
      else (.oracle, 0)

/-- R67, D15: the premise on a READ, WRITE or ERASE outside which it has no device-side meaning, `addr + len <= size <= 2^24`
with no address bit above 23 (U3). -/
def covers (d : RefDevice) (addr len : Word) : Bool :=
  decide (addr.toNat < 2 ^ 24) && decide (addr.toNat + len.toNat ≤ d.size) && decide (d.size ≤ 2 ^ 24)

/-- The shape R250, R264 and R265 give a reference device, between frames. -/
abbrev wf (d : RefDevice) : Prop :=
  d.mem.wf ∧ (∀ c ∈ d.mem, c.1 < d.size) ∧ 0 < d.size ∧ d.size ≤ 2 ^ 24 ∧
    d.bp = 0 ∧ d.tb = false ∧ d.b6 = false ∧ d.srwd = false

end RefDevice

namespace Env

/-- The line on a list of lines. -/
def lineIn : List (Nat × Line) → Nat → Line
  | [], _ => .oracle
  | (x, l) :: ls, c => if x = c then l else lineIn ls c

/-- What stands on line `c`. -/
def lineAt (e : Env) (c : Byte) : Line := lineIn e.lines c.toNat

/-- Put a line in place, keeping the ids strictly rising and no oracle listed. -/
def setLineIn : List (Nat × Line) → Nat → Line → List (Nat × Line)
  | [], c, l => if l = .oracle then [] else [(c, l)]
  | (x, k) :: ls, c, l =>
    if x < c then (x, k) :: setLineIn ls c l
    else if x = c then (if l = .oracle then ls else (c, l) :: ls)
    else (if l = .oracle then (x, k) :: ls else (c, l) :: (x, k) :: ls)

/-- Put a line in place. -/
def setLine (e : Env) (c : Byte) (l : Line) : Env := { e with lines := setLineIn e.lines c.toNat l }

/-- R240: the oracle's next byte: the script's, past its end a free value. -/
def oracleByte (e : Env) : Byte × Env :=
  match e.miso with
  | b :: bs => (b, { e with miso := bs })
  | [] => (Config.freeByte e.freeIn, { e with freeIn := e.freeIn + 1 })

/-- `SEL(c)` as the line sees it (R251): a frame begins. -/
def select (e : Env) (c : Byte) : Env :=
  match e.lineAt c with
  | .oracle => e
  | .empty => e
  | .device d => e.setLine c (.device { d with rx := [] })

/-- One exchange on line `c` (R133, R240, R251): only the selected line answers. -/
def exchange (o : Opcodes) (c out : Byte) (e : Env) : Byte × Env :=
  match e.lineAt c with
  | .oracle => e.oracleByte
  | .empty => (0xFF, e)
  | .device d => ((d.exchange o out).1, e.setLine c (.device (d.exchange o out).2))

/-- `DESEL(c)` as the line sees it (R251). -/
def deselect (o : Opcodes) (e : Env) (c : Byte) : Env :=
  match e.lineAt c with
  | .oracle => e
  | .empty => e
  | .device d => e.setLine c (d.atDeselect o)

/-- The frame of a command on line `c` cut short by reset (R322, U8). -/
def cut (w : Instr) (c : Byte) (e : Env) : Env :=
  match e.lineAt c with
  | .oracle => e
  | .empty => e
  | .device d =>
    { e.setLine c (d.cutShort w e.freeIn).1 with freeIn := e.freeIn + (d.cutShort w e.freeIn).2 }

/-- R67, D15, U3: a READ, WRITE or ERASE of `len` bytes at `addr` begins on line `c`.  A reference device that does not cover
the range has no meaning from then on: its line is an oracle (DESIGN CHOICE, assumption 30). -/
def claim (e : Env) (c : Byte) (addr len : Word) : Env :=
  match e.lineAt c with
  | .oracle => e
  | .empty => e
  | .device d => if d.covers addr len then e else e.setLine c .oracle

/-- The environment of which only what stands on line `c` is known. -/
def withLine (c : Byte) (l : Line) : Env := unknown.setLine c l

/-- A listed line is no oracle, and a device's array is in canonical form. -/
def lineOk : Line → Bool
  | .oracle => false
  | .empty => true
  | .device d => decide d.mem.wf

/-- The canonical form of the environment: line ids strictly rising, no oracle listed, every array canonical. -/
abbrev wf (e : Env) : Prop :=
  (e.lines.map Prod.fst).Pairwise (· < ·) ∧ ∀ p ∈ e.lines, lineOk p.2 = true

end Env

end Sys2Proof.Machine
end

