-- ==== Sys2Proof/Machine/Ops.lean ====
section
/-! DEFINITION. Ops: the bus primitives of R14, the frame bracket of R131, the command primitives of R141 to R144,
the registry operations of R121 and R122, handle validation (R285), request acceptance (R31), `raise` (R290) and
completion (R32). -/

namespace Sys2Proof.Machine

/-! ### Line bits -/

/-- One line's bit. -/
def lineBit (v : LineBits) (c : Byte) : Bool := v.getLsbD c.toNat

/-- One line's bit set to 1; an id at or above `N_CS`, the number `n`, names no line (R7; DESIGN CHOICE, assumption 3). -/
def lineSet (n : Nat) (v : LineBits) (c : Byte) : LineBits :=
  if c.toNat < n then v ||| (1#256 <<< c.toNat) else v

/-- One line's bit set to 0; an id at or above `N_CS`, the number `n`, names no line (R7; DESIGN CHOICE, assumption 3). -/
def lineClear (n : Nat) (v : LineBits) (c : Byte) : LineBits :=
  if c.toNat < n then v &&& ~~~(1#256 <<< c.toNat) else v

/-! ### Bus primitives (R14) -/

/-- Append events to the trace. -/
def emit (es : List BusEvent) (s : State) : State := { s with trace := s.trace ++ es }

/-- `PinInit(c)`. -/
def pinInit (c : Byte) (s : State) : State :=
  emit [.pinInit c] { s with csOe := lineSet s.cfg.nCs s.csOe c, csN := lineSet s.cfg.nCs s.csN c }

/-- `BusInit()`. -/
def busInitialise (s : State) : State := emit [.busInit] { s with busInit := true }

/-- `Select(c)`. -/
def select (c : Byte) (s : State) : State :=
  emit [.sel c] { s with csN := lineClear s.cfg.nCs s.csN c, env := s.env.select c }

/-- `Deselect(c)`. -/
def deselect (c : Byte) (s : State) : State :=
  emit [.desel c] { s with csN := lineSet s.cfg.nCs s.csN c, env := s.env.deselect s.cfg.opc c }

/-- `Delay(t)`: the wait is a label of the trace (R310, R345). -/
def delay (t : Wait) (s : State) : State := emit [.delay t] s

/-- The events of one exchange: `Xfer`, with `HostIn` before it or `HostOut` after it (R182, R192). -/
def exchangeEvents (x : Exchange) (i : Byte) : List BusEvent :=
  match x.role with
  | .plain => [.xfer x.out i]
  | .toHost => [.xfer x.out i, .hostOut i]
  | .fromHost => [.hostIn x.out, .xfer x.out i]

/-- `Xfer(o)` (R133): one exchange on line `c`; the input byte is the environment's (R240). -/
def transferByte (c : Byte) (x : Exchange) (s : State) : Byte × State :=
  let r := s.env.exchange s.cfg.opc c x.out
  (r.1, emit (exchangeEvents x r.1) { s with env := r.2 })

/-- A frame's exchanges in order, with the bytes shifted in. -/
def transferAll (c : Byte) : List Exchange → State → List Byte × State
  | [], s => ([], s)
  | x :: xs, s =>
    let r := transferByte c x s
    let rs := transferAll c xs r.2
    (r.1 :: rs.1, rs.2)

/-- A frame up to its last exchange, the line still selected. -/
def openFrame (c : Byte) (xs : List Exchange) (s : State) : List Byte × State :=
  transferAll c xs (select c s)

/-- WITH_SELECTED_CHIP (R131): a whole frame. -/
def frame (c : Byte) (xs : List Exchange) (s : State) : List Byte × State :=
  let r := openFrame c xs s
  (r.1, deselect c r.2)

/-! ### Command primitives (R141 to R144) and the frames of the block operations -/

/-- ISSUE_COMMAND (R144). -/
def issueCommand (c opc : Byte) (s : State) : State := (frame c (formatC opc) s).2

/-- WRITE_ENABLE (R142). -/
def writeEnable (c : Byte) (s : State) : State := issueCommand c s.cfg.opc.wren s

/-- WRITE_DISABLE (R143). -/
def writeDisable (c : Byte) (s : State) : State := issueCommand c s.cfg.opc.wrdi s

/-- READ_STATUS (R141): the second byte shifted in is the status byte. -/
def readStatus (c : Byte) (s : State) : State :=
  let r := frame c (formatS s.cfg.opc.rdsr s.cfg.opc.dummyTx) s
  { r.2 with stat := r.1.getD 1 0 }

/-- READ_ID (R162): the bytes shifted in after the opcode fill `idbuf`. -/
def readId (c : Byte) (s : State) : State :=
  let r := frame c (formatI s.cfg.opc.rdid s.cfg.opc.dummyTx) s
  { r.2 with idbuf := Vector.ofFn (fun i : Fin 20 => r.1.getD (i.val + 1) 0) }

/-- READ_DATA (R182): the bytes shifted in after the address go to the host. -/
def readData (c : Byte) (a : WireAddr) (n : Nat) (s : State) : State :=
  let r := frame c (formatAR s.cfg.opc.read a n s.cfg.opc.dummyTx) s
  { r.2 with rdata := r.2.rdata ++ r.1.drop 4 }

/-- PAGE_PROGRAM (R192), the data bytes already taken from the host stream (`takeHost`). -/
def pageProgram (c : Byte) (a : WireAddr) (data : List Byte) (s : State) : State :=
  (frame c (formatAW s.cfg.opc.pp a data) s).2

/-- SUBSECTOR_ERASE (R212). -/
def subsectorErase (c : Byte) (a : WireAddr) (s : State) : State :=
  (frame c (formatA s.cfg.opc.sse a) s).2

/-- BULK_ERASE (R221). -/
def bulkErase (c : Byte) (s : State) : State := issueCommand c s.cfg.opc.be s

/-! ### The host's write-data stream -/

/-- The next `k` bytes of the host stream; a byte the host did not present is a free value (assumption 2). -/
def hostBytes (wdata : List Byte) (free : Nat) : Nat → List Byte
  | 0 => []
  | k + 1 =>
    match wdata with
    | b :: bs => b :: hostBytes bs free k
    | [] => Config.freeHostByte free :: hostBytes [] (free + 1) k

/-- The state after `k` bytes of the host stream are taken (R52, R192). -/
def takeHost (k : Nat) (s : State) : State :=
  { s with wdata := s.wdata.drop k, freeHost := s.freeHost + (k - s.wdata.length) }

/-! ### Chip Registry (R121, R122) -/

/-- LOOKUP (R121): the first exact match in table order, from index `r` on. -/
def lookupFrom (m : Byte) (d : BitVec 16) : List ChipDescriptor → Nat → Option Nat
  | [], _ => none
  | e :: es, r => if e.mfr = m ∧ e.dev = d then some r else lookupFrom m d es (r + 1)

/-- LOOKUP (R121). -/
def lookup (s : State) (m : Byte) (d : BitVec 16) : Option Nat := lookupFrom m d s.cfg.registry 0

/-- DESCRIBE (R122). -/
def describe (s : State) (r : Nat) : Option ChipDescriptor := s.cfg.registry[r]?

/-! ### Results (R281), errors (R290), completion (R32) -/

/-- R281: the code of each result kind. -/
def ResultCode.code : ResultCode → BitVec 3
  | .ok => 0
  | .noDevice => 1
  | .unsupportedDevice => 2
  | .tooManyChips => 3
  | .invalidHandle => 4
  | .writeEnableFailed => 5
  | .timeout => 6

/-- `raise E` (R290): the operation ends at once with the code, no payload and no further bus event. -/
def raise (e : ResultCode) (s : State) : State := { s with resCode := e.code, fsm := .done }

/-- `return OK` (R15): the operation ends with code OK. -/
def returnOk (s : State) : State := { s with resCode := ResultCode.ok.code, fsm := .done }

/-- Completion (R32), the way back from a result, OK or error (R297). -/
def retire (s : State) : State := { s with busy := false, fsm := .idle }

/-- The payload of a response (R83). -/
inductive Payload where
  | nothing
  | handle (h : Byte)
  | descriptor (mfr : Byte) (dev : BitVec 16) (size : BitVec 32) (desc : String)
deriving DecidableEq, Repr

/-- The response the host port presents (R83): code and the payload of the operation in `op` (R82).  It is valid
in `DONE`; a payload is present when the code is OK, INFO's fields then hold what R165 or R166 left. -/
def response (s : State) : BitVec 3 × Payload :=
  (s.resCode,
    if s.resCode ≠ ResultCode.ok.code then .nothing
    else if s.op = opProbe then .handle s.resHandle
    else if s.op = opInfo then .descriptor s.infoMfr s.infoDev s.infoSize s.infoDesc
    else .nothing)

/-! ### Requests (R31) and handles (R285) -/

/-- `cs_cur <- c`: the line the operation drives (R25). -/
def chooseLine (c : Byte) (s : State) : State := { s with csCur := c }

/-- `polls <- n` (R147). -/
def setPolls (n : Nat) (s : State) : State := { s with polls := n }

/-- Move the sequencer. -/
def goto (f : Fsm) (s : State) : State := { s with fsm := f }

/-- Request acceptance (R31): the request's fields are latched, `busy` rises, the operation's first state is
entered. -/
def accept (r : Request) (first : Fsm) (s : State) : State :=
  { s with op := r.op, sel := r.sel, addr := r.addr, len := r.len, busy := true, rdata := [], fsm := first }

/-- The request in the working registers (R25). -/
def latched (s : State) : Request := ⟨s.op, s.sel, s.addr, s.len⟩

/-- A host operation: in `IDLE` it is accepted (R31); while it is the operation in progress its state machine
makes one transition (R30); a request made while another operation is in progress has no effect (R31, U12). -/
def hostOp (r : Request) (first : Fsm) (advance : State → Outcome) (s : State) : Outcome :=
  if s.fsm = .idle then .next (accept r first s)
  else if latched s = r then advance s
  else .next s

/-- VALIDATE (R285): a bound handle gives its chip-select id to `cs_cur`, and the operation goes on; any other
handle is InvalidHandle. -/
def validate (go : State → State) (s : State) : State :=
  match s.att[s.sel.toNat]? with
  | some e => go (chooseLine e.cs s)
  | none => raise .invalidHandle s

/-- R67: the device side of a READ, WRITE or ERASE of the latched range on the line just chosen. -/
def claimRange (s : State) : State := { s with env := s.env.claim s.csCur s.addr s.len }

/-- ARM's test (R146): bit 1 of the status byte just read. -/
def verifyArmed (f : Fsm) (s : State) : State :=
  if statusWel s.stat then goto f s else raise .writeEnableFailed s

/-- Whether a poll count has reached `POLL_LIMIT` (R147, R148). -/
def limitReached (limit : Option Nat) (polls : Nat) : Bool :=
  match limit with
  | none => false
  | some l => decide (l ≤ polls)

/-- POLL_WIP's test (R147): bit 0 of the status byte just read; `fin` on a device that is ready, else the count
goes up and the loop ends in Timeout at the limit or goes on with `wait`. -/
def pollTest (fin : State → State) (wait : Fsm) (s : State) : State :=
  if statusWip s.stat then
    if limitReached s.cfg.pollLimit (s.polls + 1) then raise .timeout (setPolls (s.polls + 1) s)
    else goto wait (setPolls (s.polls + 1) s)
  else fin s

end Sys2Proof.Machine
end

