-- ==== Sys2Proof/Machine/Erase.lean ====
section
/-! DEFINITION. Erase: the meanings of ERASE (R211, R216) and CHIP_ERASE (R220, R224). -/

namespace Sys2Proof.Machine

/-- The loop's start: the sub-sector of the start address and the end of the range (R211). -/
def firstSubsector (s : State) : State :=
  { s with cur := alignDown s.addr.toNat, endAddr := rangeEnd s.addr.toNat s.len.toNat }

/-- The next sub-sector (R211). -/
def nextSubsector (s : State) : State := { s with cur := s.cur + Config.subsectorSize }

/-- `E_CHECK`'s loop set-up (R211). -/
def eraseSetup (s : State) : State := goto .eNext (firstSubsector (claimRange s))

/-- `E_NEXT` (R216). -/
def eraseNext (s : State) : State :=
  if s.cur < s.endAddr then goto .eWren s else goto .eWrdi s

/-- `E_SETTLE` (R216): the settle delay, and the poll loop begins. -/
def eraseSettle (s : State) : State :=
  goto .ePoll (setPolls 0 (delay .settleErase s))

/-- `E_ADV` (R216). -/
def eraseAdvance (s : State) : State := goto .eNext (nextSubsector s)

/-- ERASE's transitions (R216). -/
def eraseFsm (s : State) : Outcome :=
  match s.fsm with
  | .eCheck => .next (validate eraseSetup s)
  | .eNext => .next (eraseNext s)
  | .eWren => .next (goto .eVerify (writeEnable s.csCur s))
  | .eVerify => .next (verifyArmed .eSse (readStatus s.csCur s))
  | .eSse => .next (goto .eSettle (subsectorErase s.csCur (wireAddr s.cur) s))
  | .eSettle => .next (eraseSettle s)
  | .ePoll => .next (pollTest (goto .eAdv) .eWait (readStatus s.csCur s))
  | .eWait => .next (goto .ePoll (delay .pollErase s))
  | .eAdv => .next (eraseAdvance s)
  | .eWrdi => .next (returnOk (writeDisable s.csCur s))
  | .done => .next (retire s)
  | _ => .fault .lostSequencer

/-- ERASE (R210, R211). -/
def execErase (sel : Byte) (addr len : Word) (s : State) : Outcome :=
  hostOp ⟨opErase, sel, addr, len⟩ .eCheck eraseFsm s

/-- `C_BE` (R224): the chip-erase frame, and the poll loop begins. -/
def chipEraseStart (s : State) : State :=
  goto .cPoll (setPolls 0 (bulkErase s.csCur s))

/-- CHIP_ERASE's transitions (R224). -/
def chipEraseFsm (s : State) : Outcome :=
  match s.fsm with
  | .cCheck => .next (validate (goto .cWren) s)
  | .cWren => .next (goto .cVerify (writeEnable s.csCur s))
  | .cVerify => .next (verifyArmed .cBe (readStatus s.csCur s))
  | .cBe => .next (chipEraseStart s)
  | .cPoll => .next (pollTest returnOk .cWait (readStatus s.csCur s))
  | .cWait => .next (goto .cPoll (delay .pollChipErase s))
  | .done => .next (retire s)
  | _ => .fault .lostSequencer

/-- CHIP_ERASE (R219, R220). -/
def execChipErase (sel : Byte) (addr len : Word) (s : State) : Outcome :=
  hostOp ⟨opChipErase, sel, addr, len⟩ .cCheck chipEraseFsm s

end Sys2Proof.Machine
end

