-- ==== Sys2Proof/Machine/Probe.lean ====
section
/-! DEFINITION. Probe: the meanings of PROBE (R161) and INFO (R165, R166). -/

namespace Sys2Proof.Machine

/-- A new entry and its handle (R161). -/
def appendEntry (c : Byte) (r : Nat) (s : State) : State :=
  { s with att := s.att ++ [⟨c, r⟩], resHandle := BitVec.ofNat 8 s.attCount }

/-- PROBE's registry hit (R161): append an entry and return its handle, or TooManyChips on a full table. -/
def attach (r : Nat) (s : State) : State :=
  if s.attCount = s.cfg.maxChips then raise .tooManyChips s
  else returnOk (appendEntry s.csCur r s)

/-- `P_RESOLVE` (R161, R287): idle test, lookup, append, in this order. -/
def resolve (s : State) : State :=
  if s.idbuf[0] = Config.idleByte then raise .noDevice s
  else
    match lookup s s.idbuf[0] (deviceId s.idbuf[1] s.idbuf[2]) with
    | none => raise .unsupportedDevice s
    | some r => attach r s

/-- `P_INIT` (R161). -/
def probeInit (s : State) : State :=
  goto .pId (busInitialise (pinInit s.sel (chooseLine s.sel s)))

/-- PROBE's transitions (R30, R161). -/
def probeFsm (s : State) : Outcome :=
  match s.fsm with
  | .pInit => .next (probeInit s)
  | .pId => .next (goto .pResolve (readId s.csCur s))
  | .pResolve => .next (resolve s)
  | .done => .next (retire s)
  | _ => .fault .lostSequencer

/-- PROBE (R160, R161). -/
def execProbe (sel : Byte) (addr len : Word) (s : State) : Outcome :=
  hostOp ⟨opProbe, sel, addr, len⟩ .pInit probeFsm s

/-- INFO's fields from a descriptor (R165). -/
def writeInfo (d : ChipDescriptor) (s : State) : State :=
  { s with infoMfr := d.mfr, infoDev := d.dev, infoSize := d.size, infoDesc := d.desc }

/-- INFO with an unbound handle (R166): no register is written; the policy gives the result. -/
def infoUnbound (s : State) : State :=
  match s.cfg.infoPolicy with
  | .hold => returnOk s
  | .error => raise .invalidHandle s

/-- `I_LOOKUP` (R165). -/
def infoLookup (s : State) : Outcome :=
  match s.att[s.sel.toNat]? with
  | none => .next (infoUnbound s)
  | some e =>
    match describe s e.type with
    | some d => .next (returnOk (writeInfo d s))
    | none => .fault .registryIndex

/-- INFO's transitions (R30, R165). -/
def infoFsm (s : State) : Outcome :=
  match s.fsm with
  | .iLookup => infoLookup s
  | .done => .next (retire s)
  | _ => .fault .lostSequencer

/-- INFO (R165, R166). -/
def execInfo (sel : Byte) (addr len : Word) (s : State) : Outcome :=
  hostOp ⟨opInfo, sel, addr, len⟩ .iLookup infoFsm s

end Sys2Proof.Machine
end

