-- ==== Sys2Proof/Machine/Read.lean ====
section
/-! DEFINITION. Read: the meaning of READ (R181). -/

namespace Sys2Proof.Machine

/-- `R_CHECK`'s way on (R181). -/
def readSetup (s : State) : State := goto .rFrame (claimRange s)

/-- `R_FRAME` (R181): the whole range in one frame. -/
def readFrame (s : State) : State :=
  returnOk (readData s.csCur (wireAddr s.addr.toNat) s.len.toNat s)

/-- READ's transitions (R30, R181). -/
def readFsm (s : State) : Outcome :=
  match s.fsm with
  | .rCheck => .next (validate readSetup s)
  | .rFrame => .next (readFrame s)
  | .done => .next (retire s)
  | _ => .fault .lostSequencer

/-- READ (R180, R181). -/
def execRead (sel : Byte) (addr len : Word) (s : State) : Outcome :=
  hostOp ⟨opRead, sel, addr, len⟩ .rCheck readFsm s

end Sys2Proof.Machine
end

