-- ==== Sys2Proof/Machine/Wire.lean ====
section
/-! DEFINITION. Wire: the meanings of the eight wire commands (R95), each one frame on the line of `cs_cur`. -/

namespace Sys2Proof.Machine

/-- WREN (R142). -/
def execWren (s : State) : Outcome := .next (writeEnable s.csCur s)

/-- WRDI (R143). -/
def execWrdi (s : State) : Outcome := .next (writeDisable s.csCur s)

/-- RDSR (R141): writes `stat`. -/
def execRdsr (s : State) : Outcome := .next (readStatus s.csCur s)

/-- RDID (R162): writes `idbuf`. -/
def execRdid (s : State) : Outcome := .next (readId s.csCur s)

/-- RD (R182): `n` bytes to the host. -/
def execRd (a : WireAddr) (n : Nat) (s : State) : Outcome := .next (readData s.csCur a n s)

/-- PP (R192): the bytes `data` from the host. -/
def execPp (a : WireAddr) (data : List Byte) (s : State) : Outcome := .next (pageProgram s.csCur a data s)

/-- SSE (R212). -/
def execSse (a : WireAddr) (s : State) : Outcome := .next (subsectorErase s.csCur a s)

/-- BE (R221). -/
def execBe (s : State) : Outcome := .next (bulkErase s.csCur s)

end Sys2Proof.Machine
end

