-- ==== Sys2Proof/Machine/Write.lean ====
section
/-! DEFINITION. Write: the meaning of WRITE, the page-program state machine (R191, R196). -/

namespace Sys2Proof.Machine

/-- The loop's start (R191). -/
def firstChunk (s : State) : State := { s with cur := s.addr.toNat, off := 0, rem := s.len }

/-- The length of the chunk at hand (R191). -/
def measureChunk (s : State) : State := { s with k := chunkLen s.rem }

/-- The next chunk: the address advances by the page size whatever the chunk's length (R191). -/
def nextChunk (s : State) : State :=
  { s with cur := s.cur + Config.pageSize, off := s.off + s.k.setWidth 32, rem := s.rem - s.k.setWidth 32 }

/-- `W_CHECK`'s loop set-up (R191). -/
def writeSetup (s : State) : State := goto .wNext (firstChunk (claimRange s))

/-- `W_NEXT` (R196). -/
def writeNext (s : State) : State :=
  if s.rem = 0 then returnOk s else goto .wWren (measureChunk s)

/-- The chunk's bytes, the next `k` of the host stream (R192). -/
def chunkData (s : State) : List Byte := hostBytes s.wdata s.freeHost s.k.toNat

/-- `W_PP` (R192): the chunk's host bytes are taken and programmed at `cur`. -/
def writeProgram (s : State) : State :=
  goto .wWrdi (pageProgram s.csCur (wireAddr s.cur) (chunkData s) (takeHost s.k.toNat s))

/-- `W_WRDI` (R196): the write-disable frame, and the poll loop begins. -/
def writeDisarm (s : State) : State :=
  goto .wPoll (setPolls 0 (writeDisable s.csCur s))

/-- `W_ADV` (R191). -/
def writeAdvance (s : State) : State := goto .wNext (nextChunk s)

/-- WRITE's transitions (R196). -/
def writeFsm (s : State) : Outcome :=
  match s.fsm with
  | .wCheck => .next (validate writeSetup s)
  | .wNext => .next (writeNext s)
  | .wWren => .next (goto .wVerify (writeEnable s.csCur s))
  | .wVerify => .next (verifyArmed .wPp (readStatus s.csCur s))
  | .wPp => .next (writeProgram s)
  | .wWrdi => .next (writeDisarm s)
  | .wPoll => .next (pollTest (goto .wAdv) .wWait (readStatus s.csCur s))
  | .wWait => .next (goto .wPoll (delay .pollWrite s))
  | .wAdv => .next (writeAdvance s)
  | .done => .next (retire s)
  | _ => .fault .lostSequencer

/-- WRITE (R190, R191). -/
def execWrite (sel : Byte) (addr len : Word) (s : State) : Outcome :=
  hostOp ⟨opWrite, sel, addr, len⟩ .wCheck writeFsm s

end Sys2Proof.Machine
end

