-- ==== Sys2Proof/Machine/Dispatch.lean ====
section
/-! DEFINITION. Dispatch: one arm per instruction. -/

namespace Sys2Proof.Machine

def exec (i : Instr) (s : State) : Host.Outcome State Fault Refusal :=
  match i with
  | .probe sel addr len => Sys2Proof.Machine.execProbe sel addr len s
  | .info sel addr len => Sys2Proof.Machine.execInfo sel addr len s
  | .read sel addr len => Sys2Proof.Machine.execRead sel addr len s
  | .write sel addr len => Sys2Proof.Machine.execWrite sel addr len s
  | .erase sel addr len => Sys2Proof.Machine.execErase sel addr len s
  | .chipErase sel addr len => Sys2Proof.Machine.execChipErase sel addr len s
  | .wren => Sys2Proof.Machine.execWren s
  | .wrdi => Sys2Proof.Machine.execWrdi s
  | .rdsr => Sys2Proof.Machine.execRdsr s
  | .rdid => Sys2Proof.Machine.execRdid s
  | .rd a n => Sys2Proof.Machine.execRd a n s
  | .pp a data => Sys2Proof.Machine.execPp a data s
  | .sse a => Sys2Proof.Machine.execSse a s
  | .be => Sys2Proof.Machine.execBe s

end Sys2Proof.Machine
end

