-- ==== Sys2Proof/Machine/Fetch.lean ====
section
/-! DEFINITION. Fetch: where the machine's next instruction stands.  The controller fetches nothing from a memory
(R30, R74): idle, it takes the request the host presents (R31); busy, it goes on with the operation in its working
registers, whose sequencer state may emit a wire command.  Reset (R320, R322) is here too. -/

namespace Sys2Proof.Machine

/-- What a step has to do. -/
inductive Fetched where
  /-- Idle and no request presented (R323). -/
  | wait
  /-- Run this instruction at this state. -/
  | run (i : Instr) (s : State)
  /-- Idle and the presented request has a reserved operation code (R110). -/
  | reserved
  /-- Busy with a reserved operation code in `op`; no run reaches this. -/
  | lost

/-- The next instruction: in `IDLE` the presented request, taken with its data stream (R31, R27); otherwise the
operation in the working registers. -/
def fetch (s : State) : Fetched :=
  if s.fsm = .idle then
    match s.requests with
    | [] => .wait
    | r :: rs =>
      match decodeRequest r.req with
      | .ok i => .run i { s with requests := rs, wdata := r.data }
      | .error _ => .reserved
  else
    match decodeRequest (latched s) with
    | .ok i => .run i s
    | .error _ => .lost

/-- The wire command the present sequencer state emits (R30). -/
def wireAt (s : State) : Option Instr :=
  match s.fsm with
  | .idle => none
  | .pInit => none
  | .pId => some .rdid
  | .pResolve => none
  | .iLookup => none
  | .rCheck => none
  | .rFrame => some (.rd (wireAddr s.addr.toNat) s.len.toNat)
  | .wCheck => none
  | .wNext => none
  | .wWren => some .wren
  | .wVerify => some .rdsr
  | .wPp => some (.pp (wireAddr s.cur) (chunkData s))
  | .wWrdi => some .wrdi
  | .wPoll => some .rdsr
  | .wWait => none
  | .wAdv => none
  | .eCheck => none
  | .eNext => none
  | .eWren => some .wren
  | .eVerify => some .rdsr
  | .eSse => some (.sse (wireAddr s.cur))
  | .eSettle => none
  | .ePoll => some .rdsr
  | .eWait => none
  | .eAdv => none
  | .eWrdi => some .wrdi
  | .cCheck => none
  | .cWren => some .wren
  | .cVerify => some .rdsr
  | .cBe => some .be
  | .cPoll => some .rdsr
  | .cWait => none
  | .done => none

/-! ### Reset -/

/-- R35, R320: every register at its reset value; parameters, devices, the host's side and the trace stay (R322).  A device
that is executing a program or erase keeps it, its latch and its busy flag, as R322, R35 and D24 say, where U8 allows any
value (DESIGN CHOICE, assumption 31). -/
def afterReset (s : State) : State :=
  { State.resetWith s.cfg with
    trace := s.trace
    env := s.env
    requests := s.requests
    freeHost := s.freeHost
    resetPlan := s.resetPlan }

/-- R322: the first `m` exchanges of a frame and no `DESEL`: the line goes undriven with the frame cut short. -/
def cutFrame (m : Nat) (w : Instr) (s : State) : State :=
  let s1 := (openFrame s.csCur ((frameOf s.cfg.opc w).take m) s).2
  { s1 with env := s1.env.cut w s.csCur }

/-- The bus events that happen before a reset that arrives after `n` of the present state's `Select`, exchange,
`PinInit` and `BusInit` actions.  A page program has taken its chunk from the host stream. -/
def beforeReset (n : Nat) (s : State) : State :=
  match n with
  | 0 => s
  | m + 1 =>
    if s.fsm = .pInit then (if m = 0 then pinInit s.sel s else busInitialise (pinInit s.sel s))
    else
      match wireAt s with
      | some w => cutFrame m w (if s.fsm = .wPp then takeHost s.k.toNat s else s)
      | none => s

/-- A reset in the present state (R320). -/
def resetDuring (n : Nat) (s : State) : State := afterReset (beforeReset n s)

/-! ### Placing an instruction where the next step finds it -/

/-- The host presents a request to an idle controller. -/
def placeRequest (r : Request) (s : State) : State :=
  { s with fsm := .idle, busy := false, resetPlan := [], requests := ⟨r, []⟩ :: s.requests }

/-- The sequencer stands in a state of operation `op`. -/
def placeState (op : BitVec 3) (f : Fsm) (s : State) : State :=
  { s with fsm := f, op := op, busy := true, resetPlan := [] }

/-- The sequencer stands in a state that emits the wire command, its operand registers set. -/
def placeWire (i : Instr) (s : State) : State :=
  match i with
  | .probe sel addr len => placeRequest ⟨opProbe, sel, addr, len⟩ s
  | .info sel addr len => placeRequest ⟨opInfo, sel, addr, len⟩ s
  | .read sel addr len => placeRequest ⟨opRead, sel, addr, len⟩ s
  | .write sel addr len => placeRequest ⟨opWrite, sel, addr, len⟩ s
  | .erase sel addr len => placeRequest ⟨opErase, sel, addr, len⟩ s
  | .chipErase sel addr len => placeRequest ⟨opChipErase, sel, addr, len⟩ s
  | .wren => placeState opWrite .wWren s
  | .wrdi => placeState opWrite .wWrdi s
  | .rdsr => placeState opWrite .wVerify s
  | .rdid => placeState opProbe .pId s
  | .rd a n => placeState opRead .rFrame { s with addr := a.zeroExtend 32, len := BitVec.ofNat 32 n }
  | .pp a data => placeState opWrite .wPp { s with cur := a.toNat, k := BitVec.ofNat 9 data.length, wdata := data }
  | .sse a => placeState opErase .eSse { s with cur := a.toNat }
  | .be => placeState opChipErase .cBe s

/-- A code where the next step runs it; a frame the decoder rejects has no place in the machine. -/
def placeCode (c : Code) (s : State) : State :=
  match c with
  | .request w => placeRequest (Request.ofWord w) s
  | .frame out =>
    match decodeFrame Opcodes.default out with
    | .ok i => placeWire i s
    | .error _ => s

end Sys2Proof.Machine
end

