-- ==== Sys2Proof/Machine/Cycle.lean ====
section
/-! DEFINITION. Cycle: one step of the sequencer when no reset arrives: run what was fetched. -/

namespace Sys2Proof.Machine

/-- R30, R31: idle without a request the controller waits (R323); otherwise it runs the fetched instruction.  A
presented reserved code is refused (R110). -/
def cycle (s : State) : Outcome :=
  match fetch s with
  | .wait => .next s
  | .run i s1 => exec i s1
  | .reserved => .refused .reservedOperation
  | .lost => .fault .lostSequencer

end Sys2Proof.Machine
end

