-- ==== Sys2Proof/Machine/Step.lean ====
section
/-! DEFINITION. Step: one step of the machine, the reset input first (R320), then the sequencer (R30). -/

namespace Sys2Proof.Machine

/-- One step.  The head of `resetPlan` says whether reset arrives during it (R320: in any state). -/
def step (s : State) : Host.Outcome State Fault Refusal :=
  match s.resetPlan with
  | [] => cycle s
  | none :: rs => cycle { s with resetPlan := rs }
  | some n :: rs => .next (resetDuring n { s with resetPlan := rs })

/-- The state in which the next step runs the instruction of a word of spec/opcode_table.json: a host operation is
presented as a request to the idle controller; a wire command is placed by putting the sequencer in a state that
emits it (assumption 7). -/
def State.withFetchWord (s : State) (nbits w : Nat) : State := placeCode (tableCode nbits w) s

end Sys2Proof.Machine
end

