-- ==== Sys2Proof/Machine/Pseudocode.lean ====
section
/-! DEFINITION. Pseudocode: each host operation as the spec's pseudocode runs it from beginning to end (R161, R165,
R181, R191, R211, R220), with ARM (R146) and POLL_WIP (R147).  R30 calls the pseudocode normative and the state
machine the same thing; the machine's `exec` is the state machine, and a statement compares the two.  A poll loop
may never end (R335), so a run is given fuel.  READ, WRITE and ERASE settle the device side of their range (R67) as the
machine does. -/

namespace Sys2Proof.Machine

/-- How a piece of pseudocode ends: it goes on, it raised an error (R15), or the fuel ran out. -/
inductive Flow where
  | ok (s : State)
  | raised (e : ResultCode) (s : State)
  | unfinished

/-- Sequencing. -/
def Flow.andThen (a : Flow) (f : State → Flow) : Flow :=
  match a with
  | .ok s => f s
  | .raised e s => .raised e s
  | .unfinished => .unfinished

/-- The state in which the response is presented (R15, R290); none if the run did not end. -/
def Flow.answer : Flow → Option State
  | .ok s => some (returnOk s)
  | .raised e s => some (raise e s)
  | .unfinished => none

/-- ARM (R146). -/
def arm (c : Byte) (s : State) : Flow :=
  let s1 := readStatus c (writeEnable c s)
  if statusWel s1.stat then .ok s1 else .raised .writeEnableFailed s1

/-- POLL_WIP's loop (R147). -/
def pollLoop (c : Byte) (t : Wait) : Nat → State → Flow
  | 0, _ => .unfinished
  | fuel + 1, s =>
    let s1 := readStatus c s
    if statusWip s1.stat then
      let s2 := setPolls (s1.polls + 1) s1
      if limitReached s2.cfg.pollLimit s2.polls then .raised .timeout s2
      else pollLoop c t fuel (delay t s2)
    else .ok s1

/-- POLL_WIP (R147). -/
def pollWip (fuel : Nat) (c : Byte) (t : Wait) (s : State) : Flow :=
  pollLoop c t fuel (setPolls 0 s)

/-- VALIDATE (R285). -/
def validateHandle (s : State) : Flow :=
  match s.att[s.sel.toNat]? with
  | some e => .ok (chooseLine e.cs s)
  | none => .raised .invalidHandle s

/-- PROBE (R161). -/
def probeCode (s : State) : Flow :=
  let s1 := readId s.sel (busInitialise (pinInit s.sel (chooseLine s.sel s)))
  if s1.idbuf[0] = Config.idleByte then .raised .noDevice s1
  else
    match lookup s1 s1.idbuf[0] (deviceId s1.idbuf[1] s1.idbuf[2]) with
    | none => .raised .unsupportedDevice s1
    | some r =>
      if s1.attCount = s1.cfg.maxChips then .raised .tooManyChips s1
      else .ok (appendEntry s.sel r s1)

/-- INFO (R165, R166). -/
def infoCode (s : State) : Flow :=
  match s.att[s.sel.toNat]? with
  | some e =>
    match describe s e.type with
    | some d => .ok (writeInfo d s)
    | none => .unfinished
  | none =>
    match s.cfg.infoPolicy with
    | .hold => .ok s
    | .error => .raised .invalidHandle s

/-- READ (R181). -/
def readCode (s : State) : Flow :=
  (validateHandle s).andThen fun s1 =>
    let s2 := claimRange s1
    .ok (readData s2.csCur (wireAddr s2.addr.toNat) s2.len.toNat s2)

/-- WRITE's loop (R191). -/
def writeLoop (pollFuel : Nat) : Nat → State → Flow
  | 0, _ => .unfinished
  | fuel + 1, s =>
    if s.rem = 0 then .ok s
    else
      let s1 := measureChunk s
      (arm s1.csCur s1).andThen fun s2 =>
        let s3 := pageProgram s2.csCur (wireAddr s2.cur) (chunkData s2) (takeHost s2.k.toNat s2)
        (pollWip pollFuel s3.csCur .pollWrite (writeDisable s3.csCur s3)).andThen fun s4 =>
          writeLoop pollFuel fuel (nextChunk s4)

/-- WRITE (R191). -/
def writeCode (fuel : Nat) (s : State) : Flow :=
  (validateHandle s).andThen fun s1 =>
    writeLoop fuel fuel (firstChunk (claimRange s1))

/-- ERASE's loop (R211). -/
def eraseLoop (pollFuel : Nat) : Nat → State → Flow
  | 0, _ => .unfinished
  | fuel + 1, s =>
    if s.cur < s.endAddr then
      (arm s.csCur s).andThen fun s1 =>
        let s2 := delay .settleErase (subsectorErase s1.csCur (wireAddr s1.cur) s1)
        (pollWip pollFuel s2.csCur .pollErase s2).andThen fun s3 =>
          eraseLoop pollFuel fuel (nextSubsector s3)
    else .ok s

/-- ERASE (R211). -/
def eraseCode (fuel : Nat) (s : State) : Flow :=
  (validateHandle s).andThen fun s1 =>
    (eraseLoop fuel fuel (firstSubsector (claimRange s1))).andThen fun s2 => .ok (writeDisable s2.csCur s2)

/-- CHIP_ERASE (R220). -/
def chipEraseCode (fuel : Nat) (s : State) : Flow :=
  (validateHandle s).andThen fun s1 =>
    (arm s1.csCur s1).andThen fun s2 => pollWip fuel s2.csCur .pollChipErase (bulkErase s2.csCur s2)

/-- The pseudocode of a host operation, run on the state in which its request has just been accepted.  A wire
command is no host operation. -/
def pseudocode (fuel : Nat) (i : Instr) (s : State) : Flow :=
  match i with
  | .probe _ _ _ => probeCode s
  | .info _ _ _ => infoCode s
  | .read _ _ _ => readCode s
  | .write _ _ _ => writeCode fuel s
  | .erase _ _ _ => eraseCode fuel s
  | .chipErase _ _ _ => chipEraseCode fuel s
  | .wren => .unfinished
  | .wrdi => .unfinished
  | .rdsr => .unfinished
  | .rdid => .unfinished
  | .rd _ _ => .unfinished
  | .pp _ _ => .unfinished
  | .sse _ => .unfinished
  | .be => .unfinished

/-- The first sequencer state of a host operation (R31). -/
def firstState (i : Instr) : Fsm :=
  match i with
  | .probe _ _ _ => .pInit
  | .info _ _ _ => .iLookup
  | .read _ _ _ => .rCheck
  | .write _ _ _ => .wCheck
  | .erase _ _ _ => .eCheck
  | .chipErase _ _ _ => .cCheck
  | .wren => .idle
  | .wrdi => .idle
  | .rdsr => .idle
  | .rdid => .idle
  | .rd _ _ => .idle
  | .pp _ _ => .idle
  | .sse _ => .idle
  | .be => .idle

end Sys2Proof.Machine
end

