-- ==== Sys2Proof/Machine/Trace.lean ====
section
/-! DEFINITION. Trace: reading a bus trace frame by frame (R96). -/

namespace Sys2Proof.Machine

/-- A frame read from a trace: its line, the bytes shifted out, the bytes shifted in. -/
structure TraceFrame where
  line : Byte
  out : List Byte
  inp : List Byte
deriving DecidableEq, Repr

/-- The closed frames of a trace, from inside frame `cur` or from outside any.  A frame that a reset cut short has
no `DESEL` and is not listed. -/
def framesFrom : Option TraceFrame → List BusEvent → List TraceFrame
  | _, [] => []
  | _, .sel c :: es => framesFrom (some ⟨c, [], []⟩) es
  | some f, .xfer o i :: es => framesFrom (some ⟨f.line, f.out ++ [o], f.inp ++ [i]⟩) es
  | none, .xfer _ _ :: es => framesFrom none es
  | some f, .desel _ :: es => f :: framesFrom none es
  | none, .desel _ :: es => framesFrom none es
  | cur, .pinInit _ :: es => framesFrom cur es
  | cur, .busInit :: es => framesFrom cur es
  | cur, .delay _ :: es => framesFrom cur es
  | cur, .hostIn _ :: es => framesFrom cur es
  | cur, .hostOut _ :: es => framesFrom cur es

/-- The frames of a whole trace. -/
def traceFrames (t : List BusEvent) : List TraceFrame := framesFrom none t

/-- The wire commands of a trace, each with its line (R96). -/
def traceCommands (o : Opcodes) (t : List BusEvent) : List (Byte × Except DecodeError Instr) :=
  (traceFrames t).map fun f => (f.line, decodeFrame o f.out)

end Sys2Proof.Machine
end

