-- ==== Sys2Proof/Safety.lean ====
section
/-! DEFINITION. Safety: the invariant of the machine, in named parts, and what a safe state is. -/

namespace Sys2Proof.Machine

/-- R30: the operation a sequencer state belongs to. -/
def Fsm.owner : Fsm → Option (BitVec 3)
  | .idle => none
  | .pInit => some opProbe
  | .pId => some opProbe
  | .pResolve => some opProbe
  | .iLookup => some opInfo
  | .rCheck => some opRead
  | .rFrame => some opRead
  | .wCheck => some opWrite
  | .wNext => some opWrite
  | .wWren => some opWrite
  | .wVerify => some opWrite
  | .wPp => some opWrite
  | .wWrdi => some opWrite
  | .wPoll => some opWrite
  | .wWait => some opWrite
  | .wAdv => some opWrite
  | .eCheck => some opErase
  | .eNext => some opErase
  | .eWren => some opErase
  | .eVerify => some opErase
  | .eSse => some opErase
  | .eSettle => some opErase
  | .ePoll => some opErase
  | .eWait => some opErase
  | .eAdv => some opErase
  | .eWrdi => some opErase
  | .cCheck => some opChipErase
  | .cWren => some opChipErase
  | .cVerify => some opChipErase
  | .cBe => some opChipErase
  | .cPoll => some opChipErase
  | .cWait => some opChipErase
  | .done => none

/-- R30: the next states of each sequencer state, as its table gives them. -/
def Fsm.successors : Fsm → List Fsm
  | .idle => [.pInit, .iLookup, .rCheck, .wCheck, .eCheck, .cCheck]
  | .pInit => [.pId]
  | .pId => [.pResolve]
  | .pResolve => [.done]
  | .iLookup => [.done]
  | .rCheck => [.rFrame, .done]
  | .rFrame => [.done]
  | .wCheck => [.wNext, .done]
  | .wNext => [.wWren, .done]
  | .wWren => [.wVerify]
  | .wVerify => [.wPp, .done]
  | .wPp => [.wWrdi]
  | .wWrdi => [.wPoll]
  | .wPoll => [.wWait, .wAdv, .done]
  | .wWait => [.wPoll]
  | .wAdv => [.wNext]
  | .eCheck => [.eNext, .done]
  | .eNext => [.eWren, .eWrdi]
  | .eWren => [.eVerify]
  | .eVerify => [.eSse, .done]
  | .eSse => [.eSettle]
  | .eSettle => [.ePoll]
  | .ePoll => [.eWait, .eAdv, .done]
  | .eWait => [.ePoll]
  | .eAdv => [.eNext]
  | .eWrdi => [.done]
  | .cCheck => [.cWren, .done]
  | .cWren => [.cVerify]
  | .cVerify => [.cBe, .done]
  | .cBe => [.cPoll]
  | .cPoll => [.cWait, .done]
  | .cWait => [.cPoll]
  | .done => [.idle]

/-- The sequencer states in which `cs_cur` holds the line the operation drives (R25). -/
def Fsm.lineChosen : Fsm → Bool
  | .idle => false
  | .pInit => false
  | .pId => true
  | .pResolve => true
  | .iLookup => false
  | .rCheck => false
  | .rFrame => true
  | .wCheck => false
  | .wNext => true
  | .wWren => true
  | .wVerify => true
  | .wPp => true
  | .wWrdi => true
  | .wPoll => true
  | .wWait => true
  | .wAdv => true
  | .eCheck => false
  | .eNext => true
  | .eWren => true
  | .eVerify => true
  | .eSse => true
  | .eSettle => true
  | .ePoll => true
  | .eWait => true
  | .eAdv => true
  | .eWrdi => true
  | .cCheck => false
  | .cWren => true
  | .cVerify => true
  | .cBe => true
  | .cPoll => true
  | .cWait => true
  | .done => false

/-- R31, R32: `busy` is 1 exactly outside `IDLE`. -/
def BusyMatchesFsm (s : State) : Prop := s.busy = decide (s.fsm ≠ .idle)

/-- R30: the sequencer stands in a state of the accepted operation, whose code is one of the six. -/
def OperationMatchesFsm (s : State) : Prop :=
  s.fsm ≠ .idle → (∃ i, decodeRequest (latched s) = .ok i) ∧ ∀ o, s.fsm.owner = some o → s.op = o

/-- R24: outside a frame every line is deasserted. -/
def LinesDeasserted (s : State) : Prop := ∀ c, lineBit s.csN c = true

/-- R23(a). -/
def TableBounded (s : State) : Prop := s.att.length ≤ s.cfg.maxChips

/-- R23(c). -/
def TableTypesValid (s : State) : Prop := ∀ e ∈ s.att, e.type < s.cfg.registry.length

/-- R7: an id at or above `N_CS` names no line: nothing there is configured as an output, and no device stands there. -/
def LinesExist (s : State) : Prop :=
  ∀ c, s.cfg.nCs ≤ c.toNat → lineBit s.csOe c = false ∧ ∀ d, s.env.lineAt c ≠ .device d

/-- R325: line `c` may be driven: the bus is initialised and the line, if the id names one, is configured as an output. -/
def LineReady (s : State) (c : Byte) : Prop :=
  (c.toNat < s.cfg.nCs → lineBit s.csOe c = true) ∧ s.busInit = true

/-- R325: a line is configured as an output and the bus initialised before an operation can drive it: for every
attached chip and for the line of the operation in progress. -/
def DrivenLinesReady (s : State) : Prop :=
  (∀ e ∈ s.att, LineReady s e.cs) ∧ (s.fsm.lineChosen = true → LineReady s s.csCur)

/-- R111: the reserved result code is never produced, Timeout only with a finite limit. -/
def ResultCodeLegal (s : State) : Prop :=
  s.resCode ≠ 7 ∧ (s.cfg.pollLimit = none → s.resCode ≠ ResultCode.timeout.code)

/-- Poll counts stay below a finite limit inside a poll loop (R147). -/
def PollsBelowLimit (s : State) : Prop :=
  s.fsm = .wPoll ∨ s.fsm = .wWait ∨ s.fsm = .ePoll ∨ s.fsm = .eWait ∨ s.fsm = .cPoll ∨ s.fsm = .cWait →
    ∀ l, s.cfg.pollLimit = some l → s.polls < l

/-- R193: between two chunks the cursor registers stand at chunk `j`. -/
def AtChunk (s : State) (j : Nat) : Prop :=
  s.cur = s.addr.toNat + 256 * j ∧ s.off.toNat = min (256 * j) s.len.toNat ∧
    s.rem.toNat = s.len.toNat - 256 * j

/-- R193: the chunk map: at every point of WRITE's loop the registers stand at a chunk, and inside the loop body
at one that is not empty, of the length R193 gives it. -/
def WriteChunkMap (s : State) : Prop :=
  (s.fsm = .wNext → ∃ j, AtChunk s j) ∧
    (s.fsm = .wWren ∨ s.fsm = .wVerify ∨ s.fsm = .wPp ∨ s.fsm = .wWrdi ∨ s.fsm = .wPoll ∨ s.fsm = .wWait ∨
        s.fsm = .wAdv →
      ∃ j, AtChunk s j ∧ 256 * j < s.len.toNat ∧ s.k.toNat = min 256 (s.len.toNat - 256 * j))

/-- R61, R213: the erase cursor is `4096 (s0 + j)` with `s0` the sub-sector of the start address, and inside the
loop body it is below the end of the range. -/
def EraseIterationMap (s : State) : Prop :=
  (s.fsm = .eNext ∨ s.fsm = .eWren ∨ s.fsm = .eVerify ∨ s.fsm = .eSse ∨ s.fsm = .eSettle ∨ s.fsm = .ePoll ∨
      s.fsm = .eWait ∨ s.fsm = .eAdv →
    s.endAddr = s.addr.toNat + s.len.toNat ∧ ∃ j, s.cur = 4096 * (s.addr.toNat / 4096 + j)) ∧
  (s.fsm = .eWren ∨ s.fsm = .eVerify ∨ s.fsm = .eSse ∨ s.fsm = .eSettle ∨ s.fsm = .ePoll ∨ s.fsm = .eWait ∨
      s.fsm = .eAdv →
    s.cur < s.endAddr)

/-- R50, R250: the array of a device whose identification the registry lists has the size the registry gives. -/
def DeviceSizesRegistered (s : State) : Prop :=
  ∀ c d r e, s.env.lineAt c = .device d → lookup s d.id[0] (deviceId d.id[1] d.id[2]) = some r →
    s.cfg.registry[r]? = some e → d.size = e.size.toNat

/-- R50: the size of the chip with handle `h` is `REGISTRY[att_type[h]].size`. -/
def ChipSizesRegistered (s : State) : Prop :=
  ∀ a ∈ s.att, ∀ d e, s.env.lineAt a.cs = .device d → s.cfg.registry[a.type]? = some e → d.size = e.size.toNat

/-- R161, R256: when PROBE resolves the identification it read, that is the device's, or the device was busy. -/
def IdentificationRead (s : State) : Prop :=
  s.fsm = .pResolve → ∀ d, s.env.lineAt s.csCur = .device d → s.idbuf = d.id ∨ s.idbuf[0] = 0xFF

/-- R67: while READ, WRITE or ERASE drives a line, a reference device there covers its range: none with a meaning is given
an address outside the premise (assumption 30). -/
def RangeCovered (s : State) : Prop :=
  s.fsm.lineChosen = true → s.fsm.owner ∈ [some opRead, some opWrite, some opErase] →
    ∀ d, s.env.lineAt s.csCur = .device d → d.covers s.addr s.len = true

/-- The invariant of the machine. -/
structure MachineInv (s : State) : Prop where
  config : s.cfg.wf
  busy : BusyMatchesFsm s
  operation : OperationMatchesFsm s
  lines : LinesDeasserted s
  exist : LinesExist s
  bounded : TableBounded s
  types : TableTypesValid s
  ready : DrivenLinesReady s
  code : ResultCodeLegal s
  polls : PollsBelowLimit s
  chunks : WriteChunkMap s
  subsectors : EraseIterationMap s
  memory : s.env.wf
  deviceSizes : DeviceSizesRegistered s
  chipSizes : ChipSizesRegistered s
  identified : IdentificationRead s
  range : RangeCovered s

/-- Instructions run one after the other, stopping at the first that does not answer a next state. -/
def execAll : List Instr → State → Outcome
  | [], s => .next s
  | i :: is, s =>
    match exec i s with
    | .next t => execAll is t
    | .fault r => .fault r
    | .refused r => .refused r

/-- What stands on a line, and every byte of the array of a device there. -/
def deviceAt (s : State) (c : Byte) : Option RefDevice :=
  match s.env.lineAt c with
  | .oracle => none
  | .empty => none
  | .device d => some d

/-- An outcome whose next state has this reset input still to come. -/
def withPlan (rs : List (Option Nat)) : Outcome → Outcome
  | .next t => .next { t with resetPlan := rs }
  | .fault r => .fault r
  | .refused r => .refused r

/-- A step that does not stop the machine. -/
def StepsOn (s : State) : Prop := ∃ t, step s = .next t

end Sys2Proof.Machine
end

