-- ==== Sys2Proof/Certificates/Slice0/Obligations.lean ====
section
/-! DEFINITION. Obligations: the statements for the provers, file by file of the spec. -/

section

open Sys2Proof Sys2Proof.Machine

/-! ### 30_encoding.md -/

/-- Decoding the code of a well-formed instruction gives it back, for every value of every operand. -/
def Obligations.DecodeOfEncodeIsIdentity : Prop :=
  ∀ (o : Opcodes) (i : Instr), o.wf → i.wf = true → decode o (encode o i) = .ok i

/-- A code that decodes is the code of the instruction it decodes to, and that instruction is well formed: no bit of
a code is ignored. -/
def Obligations.EncodeOfDecodeIsIdentity : Prop :=
  ∀ (o : Opcodes) (c : Code) (i : Instr), decode o c = .ok i → encode o i = c ∧ i.wf = true

/-- Words written out from R82, R91, R93 and the default opcodes decode to the instructions they stand for. -/
def Obligations.WordsDecodeAsTheSpecWritesThem : Prop :=
  decode Opcodes.default (.frame [0x06]) = .ok .wren ∧
  decode Opcodes.default (.frame [0x04]) = .ok .wrdi ∧
  decode Opcodes.default (.frame [0x05, 0x00]) = .ok .rdsr ∧
  decode Opcodes.default (.frame [0x03, 0x01, 0x23, 0x45, 0x00, 0x00]) = .ok (.rd 0x012345 2) ∧
  decode Opcodes.default (.frame [0x02, 0x00, 0x01, 0x00, 0x11, 0x22, 0x33]) = .ok (.pp 0x000100 [0x11, 0x22, 0x33]) ∧
  decode Opcodes.default (.frame [0x20, 0x00, 0x10, 0x00]) = .ok (.sse 4096) ∧
  decode Opcodes.default (.frame [0xC7]) = .ok .be ∧
  decodeRequest ⟨0, 5, 0, 0⟩ = .ok (.probe 5 0 0) ∧
  decodeRequest ⟨3, 0, 0x100, 3⟩ = .ok (.write 0 0x100 3) ∧
  decodeRequest ⟨5, 1, 0, 0⟩ = .ok (.chipErase 1 0 0)

/-- R110: operation codes 6 and 7, and no others, name no instruction, and an idle controller that is presented
one refuses it: no bus event, no response. -/
def Obligations.ReservedOperationCodesAreRefused : Prop :=
  (∀ r : Request, decodeRequest r = .error .reservedOperation ↔ r.op = 6 ∨ r.op = 7) ∧
  ∀ (s : State) (r : HostRequest) (rs : List HostRequest),
    s.resetPlan = [] → s.fsm = .idle → s.requests = r :: rs → r.req.op = 6 ∨ r.req.op = 7 →
    step s = .refused .reservedOperation

/-- R93: the three address bytes of a frame are bits 23:16, 15:8 and 7:0 of the address the operation supplies, `addr`
for READ, `cur` for a page program and a sub-sector erase; bits above 23 are dropped. -/
def Obligations.WireAddressIsThreeBytesBigEndian : Prop :=
  (∀ a : Nat, addrBytes (wireAddr a) =
    [BitVec.ofNat 8 (a / 65536), BitVec.ofNat 8 (a / 256), BitVec.ofNat 8 a]) ∧
  ∀ s : State,
    (s.fsm = .rFrame → wireAt s = some (.rd (wireAddr s.addr.toNat) s.len.toNat)) ∧
    (s.fsm = .wPp → ∃ data, wireAt s = some (.pp (wireAddr s.cur) data)) ∧
    (s.fsm = .eSse → wireAt s = some (.sse (wireAddr s.cur))) ∧
    ∀ o a n data, (outs (frameOf o (.rd a n))).take 4 = o.read :: addrBytes a ∧
      (outs (frameOf o (.pp a data))).take 4 = o.pp :: addrBytes a ∧
      outs (frameOf o (.sse a)) = o.sse :: addrBytes a

/-- R96: the events a well-formed wire command appends to a trace parse back to one frame, on the line of `cs_cur`,
that decodes to the command. -/
def Obligations.TraceParsesBackToTheCommand : Prop :=
  ∀ (s t : State) (w : Instr) (es : List BusEvent),
    s.cfg.opc.wf → w.wf = true → w.isHost = false → exec w s = .next t → t.trace = s.trace ++ es →
    traceCommands s.cfg.opc es = [(s.csCur, .ok w)]

/-! ### 10_state.md -/

/-- A step runs the instruction that was fetched: the request presented to an idle controller, taken from the
host's queue with its data stream; the operation in the working registers of a busy one.  Idle without a request
the controller waits.  A step whose entry of the reset input says no reset is the same cycle on the rest of the plan. -/
def Obligations.StepRunsTheFetchedInstruction : Prop :=
  (∀ (s : State) (r : HostRequest) (rs : List HostRequest) (i : Instr),
    s.resetPlan = [] → s.fsm = .idle → s.requests = r :: rs → decodeRequest r.req = .ok i →
    step s = exec i { s with requests := rs, wdata := r.data }) ∧
  (∀ (s : State) (i : Instr), s.resetPlan = [] → s.fsm ≠ .idle → decodeRequest (latched s) = .ok i →
    step s = exec i s) ∧
  (∀ s : State, s.resetPlan = [] → s.fsm = .idle → s.requests = [] → step s = .next s) ∧
  (∀ (s : State) (rs : List (Option Nat)), s.resetPlan = none :: rs →
    step s = cycle { s with resetPlan := rs }) ∧
  ∀ s : State, s.resetPlan = [] → step s = cycle s

/-- In a sequencer state that emits a wire command (R30) the step is that command's `exec` on the bus: same
events, same lines, same environment, same bytes kept.  PP runs on the state whose host stream has given the
chunk's bytes. -/
def Obligations.BusyStepEmitsTheWireCommand : Prop :=
  ∀ (s : State) (w : Instr) (i : Instr),
    s.resetPlan = [] → wireAt s = some w → decodeRequest (latched s) = .ok i → s.fsm.owner = some s.op →
    ∃ t u, exec w s = .next t ∧ step s = .next u ∧
      u.trace = t.trace ∧ u.csN = t.csN ∧ u.env = t.env ∧ u.stat = t.stat ∧ u.idbuf = t.idbuf ∧
      u.rdata = t.rdata

/-- R31: in `IDLE` a request is accepted: its fields are latched, `busy` rises and the operation's first state is
entered; outside `IDLE` a request other than the one in progress has no effect. -/
def Obligations.RequestAcceptedOnlyWhenIdle : Prop :=
  ∀ (s : State) (r : Request) (i : Instr), decodeRequest r = .ok i →
    (s.fsm = .idle → exec i s = .next { s with
      op := r.op, sel := r.sel, addr := r.addr, len := r.len, busy := true, rdata := [], fsm := firstState i }) ∧
    (s.fsm ≠ .idle → latched s ≠ r → exec i s = .next s)

/-- R31: a step of a busy controller takes no request from the host. -/
def Obligations.BusyStepTakesNoRequest : Prop :=
  ∀ s t : State, s.resetPlan = [] → s.fsm ≠ .idle → step s = .next t → t.requests = s.requests

/-- R32: in `DONE` the step lowers `busy` and returns to `IDLE`, and there is no other way back to `IDLE` but
reset. -/
def Obligations.DoneIsTheOnlyWayBackToIdle : Prop :=
  (∀ (s : State) (i : Instr), s.resetPlan = [] → s.fsm = .done → decodeRequest (latched s) = .ok i →
    step s = .next { s with busy := false, fsm := .idle }) ∧
  ∀ s t : State, s.resetPlan = [] → s.fsm ≠ .idle → step s = .next t → t.fsm = .idle → s.fsm = .done

/-- R30: a step without reset goes along an edge of the table of states, or waits in `IDLE`; the edges from `W_POLL`
and `E_POLL` into `DONE` exist only with a finite poll limit, and with no limit `C_POLL` enters `DONE` only with
result OK. -/
def Obligations.TransitionsFollowTheTable : Prop :=
  ∀ s t : State, s.resetPlan = [] → step s = .next t →
    ((s.fsm = .idle ∧ t = s) ∨ t.fsm ∈ s.fsm.successors) ∧
    (s.fsm = .wPoll ∨ s.fsm = .ePoll → t.fsm = .done → s.cfg.pollLimit ≠ none) ∧
    (s.fsm = .cPoll → t.fsm = .done → s.cfg.pollLimit = none → t.resCode = 0)

/-- R35: the values the spec gives for reset, in `State.reset` and for every configuration. -/
def Obligations.ResetLeavesTheStatedValues : Prop :=
  ∀ cfg : Config, ∀ s : State, s = State.resetWith cfg ∨ (cfg = Config.default ∧ s = State.reset) →
    s.cfg = cfg ∧ s.fsm = .idle ∧ s.busy = false ∧ s.attCount = 0 ∧
    (∀ c, lineBit s.csOe c = false) ∧ (∀ c, lineBit s.csN c = true) ∧ s.busInit = false ∧ s.resCode = 0 ∧
    s.infoMfr = 0 ∧ s.infoDev = 0 ∧ s.infoSize = 0 ∧ s.infoDesc = ""

/-- R23(d): the Attached Chip table is append-only: a step without reset leaves it, or appends one entry in PROBE's
last state, whose handle is the count before. -/
def Obligations.AttachedTableIsAppendOnly : Prop :=
  ∀ s t : State, s.resetPlan = [] → step s = .next t →
    t.att = s.att ∨
    ∃ r, s.fsm = .pResolve ∧ t.att = s.att ++ [⟨s.csCur, r⟩] ∧ t.resHandle = BitVec.ofNat 8 s.attCount

/-! ### 40_chip_registry.md -/

/-- R121: LOOKUP is the first exact match in table order, or none; the sentinel never matches. -/
def Obligations.LookupIsTheFirstExactMatch : Prop :=
  ∀ (s : State) (m : Byte) (d : BitVec 16),
    (∀ r, lookup s m d = some r ↔
      (∃ e, s.cfg.registry[r]? = some e ∧ e.mfr = m ∧ e.dev = d) ∧
      ∀ r' < r, ∀ e, s.cfg.registry[r']? = some e → ¬(e.mfr = m ∧ e.dev = d)) ∧
    (lookup s m d = none ↔ ∀ e ∈ s.cfg.registry, ¬(e.mfr = m ∧ e.dev = d)) ∧
    (s.cfg.wf → lookup s 0 d = none)

/-! ### 41_bus_session.md and 42_command_primitives.md -/

/-- R144 with R142, R143 and R221: WREN, WRDI and BE are one exchange of their opcode inside one bracket on the line of `cs_cur`;
the byte shifted in is discarded. -/
def Obligations.SingleByteCommandsAreOneExchange : Prop :=
  ∀ s : State, ∀ p ∈ [(Instr.wren, s.cfg.opc.wren), (Instr.wrdi, s.cfg.opc.wrdi), (Instr.be, s.cfg.opc.be)],
    ∃ (e : Env) (i : Byte), exec p.1 s = .next { s with
      csN := lineSet s.cfg.nCs s.csN s.csCur
      env := e
      trace := s.trace ++ [.sel s.csCur, .xfer p.2 i, .desel s.csCur] }

/-- R141: RDSR is two exchanges; the second byte shifted in is the status byte, kept raw in `stat`. -/
def Obligations.StatusReadKeepsTheSecondByte : Prop :=
  ∀ s : State, ∃ (e : Env) (i0 i1 : Byte), exec .rdsr s = .next { s with
    csN := lineSet s.cfg.nCs s.csN s.csCur
    env := e
    trace := s.trace ++
      [.sel s.csCur, .xfer s.cfg.opc.rdsr i0, .xfer s.cfg.opc.dummyTx i1, .desel s.csCur]
    stat := i1 }

/-- R131: a bracket ends with its own line deasserted and every other line at the level it had; an id at or above `N_CS`
names no line, and there nothing changes (assumption 3). -/
def Obligations.BracketDeassertsItsLineOnly : Prop :=
  ∀ (s t : State) (w : Instr), w.isHost = false → exec w s = .next t →
    ∀ c, lineBit t.csN c = if c = s.csCur ∧ c.toNat < s.cfg.nCs then true else lineBit s.csN c

/-- R240: on a line of which nothing is assumed the bytes shifted in are the environment's, in order: a frame of
as many exchanges takes as many bytes of the script, and nothing else of the environment moves. -/
def Obligations.OracleAnswersFromTheEnvironment : Prop :=
  ∀ (s t : State) (w : Instr) (script rest : List Byte),
    w.isHost = false → s.env.lineAt s.csCur = .oracle → s.env.miso = script ++ rest →
    script.length = (frameOf s.cfg.opc w).length → exec w s = .next t →
    t.env = { s.env with miso := rest } ∧
    ∃ es, t.trace = s.trace ++ es ∧ (traceFrames es).map TraceFrame.inp = [script]

/-- Frame of the wire commands: beyond the bus (lines, environment, trace) RDSR changes `stat`, RDID `idbuf`, RD
`rdata`, the others nothing; and the environment of every other line is as before. -/
def Obligations.WireCommandsChangeOnlyTheBus : Prop :=
  ∀ (s t : State) (w : Instr), w.isHost = false → exec w s = .next t →
    t = { s with
      csN := t.csN, env := t.env, trace := t.trace, stat := t.stat, idbuf := t.idbuf, rdata := t.rdata } ∧
    (w ≠ .rdsr → t.stat = s.stat) ∧ (w ≠ .rdid → t.idbuf = s.idbuf) ∧
    ((∀ a n, w ≠ .rd a n) → t.rdata = s.rdata) ∧
    (s.env.wf → ∀ c, c ≠ s.csCur → t.env.lineAt c = s.env.lineAt c)

/-- The input byte of a command that keeps none does not matter: two controllers that differ only in their
environment and trace stay so. -/
def Obligations.DiscardedInputDoesNotMatter : Prop :=
  ∀ (s : State) (e : Env) (tr : List BusEvent) (w : Instr),
    w.isHost = false → w ≠ .rdsr → w ≠ .rdid → (∀ a n, w ≠ .rd a n) →
    ∃ t e' tr', exec w s = .next t ∧ exec w { s with env := e, trace := tr } = .next { t with env := e', trace := tr' }

/-! ### 43_probe_info.md -/

/-- R161, `P_INIT`: PROBE configures the pin, deasserts it and initialises the bus, in this order. -/
def Obligations.ProbeInitialisesPinAndBus : Prop :=
  ∀ (s : State) (c : Byte) (a n : Word), s.fsm = .pInit → latched s = ⟨0, c, a, n⟩ →
    exec (.probe c a n) s = .next { s with
      csCur := c
      csOe := lineSet s.cfg.nCs s.csOe c
      csN := lineSet s.cfg.nCs s.csN c
      busInit := true
      trace := s.trace ++ [.pinInit c, .busInit]
      fsm := .pId }

/-- R162: RDID shifts out the opcode and 20 filler bytes and keeps the 20 bytes shifted in after the opcode. -/
def Obligations.ReadIdFillsTheIdBuffer : Prop :=
  ∀ s : State, ∃ (e : Env) (i0 : Byte) (ids : Vector Byte 20), exec .rdid s = .next { s with
    csN := lineSet s.cfg.nCs s.csN s.csCur
    env := e
    trace := s.trace ++ [.sel s.csCur, .xfer s.cfg.opc.rdid i0] ++
      ids.toList.map (BusEvent.xfer s.cfg.opc.dummyTx) ++ [.desel s.csCur]
    idbuf := ids }

/-- R161, `P_ID`: PROBE reads the identification block of its line, whatever it holds. -/
def Obligations.ProbeReadsTheId : Prop :=
  ∀ (s : State) (c : Byte) (a n : Word), s.fsm = .pId → latched s = ⟨0, c, a, n⟩ →
    ∃ t, exec .rdid s = .next t ∧ exec (.probe c a n) s = .next { t with fsm := .pResolve }

/-- R161 and R287, `P_RESOLVE`: NoDevice, UnsupportedDevice, TooManyChips are tested in this order; otherwise an
entry is appended and its handle, the count before, returned. -/
def Obligations.ProbeTestsInOrderAndAppends : Prop :=
  ∀ (s : State) (c : Byte) (a n : Word), s.fsm = .pResolve → latched s = ⟨0, c, a, n⟩ →
    (s.idbuf[0] = 0xFF → exec (.probe c a n) s = .next { s with resCode := 1, fsm := .done }) ∧
    (s.idbuf[0] ≠ 0xFF → lookup s s.idbuf[0] (s.idbuf[1] ++ s.idbuf[2]) = none →
      exec (.probe c a n) s = .next { s with resCode := 2, fsm := .done }) ∧
    (∀ r, s.idbuf[0] ≠ 0xFF → lookup s s.idbuf[0] (s.idbuf[1] ++ s.idbuf[2]) = some r →
      s.attCount = s.cfg.maxChips → exec (.probe c a n) s = .next { s with resCode := 3, fsm := .done }) ∧
    (∀ r, s.idbuf[0] ≠ 0xFF → lookup s s.idbuf[0] (s.idbuf[1] ++ s.idbuf[2]) = some r →
      s.attCount ≠ s.cfg.maxChips → exec (.probe c a n) s = .next { s with
        att := s.att ++ [⟨s.csCur, r⟩]
        resHandle := BitVec.ofNat 8 s.attCount
        resCode := 0
        fsm := .done })

/-- R165: INFO with a bound handle writes the four `info_*` registers from the registry and returns OK; no bus
event. -/
def Obligations.InfoProjectsTheRegistryEntry : Prop :=
  ∀ (s : State) (h : Byte) (a n : Word) (e : Attached) (d : ChipDescriptor),
    s.fsm = .iLookup → latched s = ⟨1, h, a, n⟩ →
    s.att[h.toNat]? = some e → s.cfg.registry[e.type]? = some d →
    exec (.info h a n) s = .next { s with
      infoMfr := d.mfr, infoDev := d.dev, infoSize := d.size, infoDesc := d.desc, resCode := 0, fsm := .done }

/-- R166: INFO with an unbound handle writes no `info_*` register; the result is OK under `hold`, InvalidHandle
under `error`. -/
def Obligations.InfoOnUnboundHandleFollowsThePolicy : Prop :=
  ∀ (s : State) (h : Byte) (a n : Word), s.fsm = .iLookup → latched s = ⟨1, h, a, n⟩ → s.attCount ≤ h.toNat →
    (s.cfg.infoPolicy = .hold → exec (.info h a n) s = .next { s with resCode := 0, fsm := .done }) ∧
    (s.cfg.infoPolicy = .error → exec (.info h a n) s = .next { s with resCode := 4, fsm := .done })

/-! ### 44_read.md -/

/-- R182: RD sends the opcode and the address, then clocks in `n` bytes and hands each to the host. -/
def Obligations.ReadDataFrameDeliversEveryByte : Prop :=
  ∀ (s : State) (a : WireAddr) (n : Nat), ∃ (e : Env) (i0 i1 i2 i3 : Byte) (data : List Byte), data.length = n ∧
    exec (.rd a n) s = .next { s with
      csN := lineSet s.cfg.nCs s.csN s.csCur
      env := e
      trace := s.trace ++
        [.sel s.csCur, .xfer s.cfg.opc.read i0, .xfer (a.extractLsb' 16 8) i1, .xfer (a.extractLsb' 8 8) i2,
          .xfer (a.extractLsb' 0 8) i3] ++
        data.flatMap (fun b => [BusEvent.xfer s.cfg.opc.dummyTx b, .hostOut b]) ++ [.desel s.csCur]
      rdata := s.rdata ++ data }

/-- R181, `R_FRAME`: READ is one RD frame of the whole range and returns OK. -/
def Obligations.ReadIsOneFrame : Prop :=
  ∀ (s : State) (h : Byte) (a n : Word), s.fsm = .rFrame → latched s = ⟨2, h, a, n⟩ →
    ∃ t, exec (.rd (wireAddr a.toNat) n.toNat) s = .next t ∧
      exec (.read h a n) s = .next { t with resCode := 0, fsm := .done }

/-! ### 45_write.md -/

/-- R192: PP sends the opcode, the address and the data bytes, each taken from the host just before it is shifted
out; what is shifted in is discarded. -/
def Obligations.PageProgramFrameSendsEveryByte : Prop :=
  ∀ (s : State) (a : WireAddr) (data : List Byte),
    ∃ (e : Env) (i0 i1 i2 i3 : Byte) (ins : List Byte), ins.length = data.length ∧
    exec (.pp a data) s = .next { s with
      csN := lineSet s.cfg.nCs s.csN s.csCur
      env := e
      trace := s.trace ++
        [.sel s.csCur, .xfer s.cfg.opc.pp i0, .xfer (a.extractLsb' 16 8) i1, .xfer (a.extractLsb' 8 8) i2,
          .xfer (a.extractLsb' 0 8) i3] ++
        (data.zip ins).flatMap (fun p => [BusEvent.hostIn p.1, .xfer p.1 p.2]) ++ [.desel s.csCur] }

/-- WRITE as transitions of the sequencer (R196), each from the registers and the status byte of the wire command it
runs. -/
def Obligations.WriteTransitions : Prop :=
  ∀ (s : State) (h : Byte) (a n : Word), latched s = ⟨3, h, a, n⟩ →
    (s.fsm = .wNext → s.rem = 0 → exec (.write h a n) s = .next { s with resCode := 0, fsm := .done }) ∧
    (s.fsm = .wNext → s.rem ≠ 0 → exec (.write h a n) s = .next { s with k := BitVec.ofNat 9 (min s.rem.toNat 256), fsm := .wWren }) ∧
    (s.fsm = .wWren → ∃ t, exec .wren s = .next t ∧ exec (.write h a n) s = .next { t with fsm := .wVerify }) ∧
    (s.fsm = .wVerify → ∃ t, exec .rdsr s = .next t ∧ exec (.write h a n) s =
      .next (if t.stat.getLsbD 1 then { t with fsm := .wPp } else { t with resCode := 5, fsm := .done })) ∧
    (s.fsm = .wPp → s.k.toNat ≤ s.wdata.length →
      ∃ t, exec (.pp (wireAddr s.cur) (s.wdata.take s.k.toNat)) { s with wdata := s.wdata.drop s.k.toNat } = .next t ∧
        exec (.write h a n) s = .next { t with fsm := .wWrdi }) ∧
    (s.fsm = .wWrdi → ∃ t, exec .wrdi s = .next t ∧
      exec (.write h a n) s = .next { t with polls := 0, fsm := .wPoll }) ∧
    (s.fsm = .wPoll → ∃ t, exec .rdsr s = .next t ∧
      (t.stat.getLsbD 0 = false → exec (.write h a n) s = .next { t with fsm := .wAdv }) ∧
      (t.stat.getLsbD 0 = true → (∃ l, t.cfg.pollLimit = some l ∧ l ≤ t.polls + 1) →
        exec (.write h a n) s = .next { t with polls := t.polls + 1, resCode := 6, fsm := .done }) ∧
      (t.stat.getLsbD 0 = true → (∀ l, t.cfg.pollLimit = some l → t.polls + 1 < l) →
        exec (.write h a n) s = .next { t with polls := t.polls + 1, fsm := .wWait })) ∧
    (s.fsm = .wWait → exec (.write h a n) s =
      .next { s with trace := s.trace ++ [.delay .pollWrite], fsm := .wPoll }) ∧
    (s.fsm = .wAdv → exec (.write h a n) s =
      .next { s with cur := s.cur + 256, off := s.off + s.k.setWidth 32, rem := s.rem - s.k.setWidth 32, fsm := .wNext })

/-! ### 46_erase.md -/

/-- R212: SSE sends the opcode and the three address bytes; what is shifted in is discarded. -/
def Obligations.SubsectorEraseFrameSendsTheAddress : Prop :=
  ∀ (s : State) (a : WireAddr), ∃ (e : Env) (i0 i1 i2 i3 : Byte),
    exec (.sse a) s = .next { s with
      csN := lineSet s.cfg.nCs s.csN s.csCur
      env := e
      trace := s.trace ++
        [.sel s.csCur, .xfer s.cfg.opc.sse i0, .xfer (a.extractLsb' 16 8) i1, .xfer (a.extractLsb' 8 8) i2,
          .xfer (a.extractLsb' 0 8) i3, .desel s.csCur] }

/-- ERASE as transitions of the sequencer (R216). -/
def Obligations.EraseTransitions : Prop :=
  ∀ (s : State) (h : Byte) (a n : Word), latched s = ⟨4, h, a, n⟩ →
    (s.fsm = .eNext → s.cur < s.endAddr → exec (.erase h a n) s = .next { s with fsm := .eWren }) ∧
    (s.fsm = .eNext → s.endAddr ≤ s.cur → exec (.erase h a n) s = .next { s with fsm := .eWrdi }) ∧
    (s.fsm = .eWren → ∃ t, exec .wren s = .next t ∧ exec (.erase h a n) s = .next { t with fsm := .eVerify }) ∧
    (s.fsm = .eVerify → ∃ t, exec .rdsr s = .next t ∧ exec (.erase h a n) s =
      .next (if t.stat.getLsbD 1 then { t with fsm := .eSse } else { t with resCode := 5, fsm := .done })) ∧
    (s.fsm = .eSse → ∃ t, exec (.sse (wireAddr s.cur)) s = .next t ∧
      exec (.erase h a n) s = .next { t with fsm := .eSettle }) ∧
    (s.fsm = .eSettle → exec (.erase h a n) s =
      .next { s with trace := s.trace ++ [.delay .settleErase], polls := 0, fsm := .ePoll }) ∧
    (s.fsm = .ePoll → ∃ t, exec .rdsr s = .next t ∧
      (t.stat.getLsbD 0 = false → exec (.erase h a n) s = .next { t with fsm := .eAdv }) ∧
      (t.stat.getLsbD 0 = true → (∃ l, t.cfg.pollLimit = some l ∧ l ≤ t.polls + 1) →
        exec (.erase h a n) s = .next { t with polls := t.polls + 1, resCode := 6, fsm := .done }) ∧
      (t.stat.getLsbD 0 = true → (∀ l, t.cfg.pollLimit = some l → t.polls + 1 < l) →
        exec (.erase h a n) s = .next { t with polls := t.polls + 1, fsm := .eWait })) ∧
    (s.fsm = .eWait → exec (.erase h a n) s =
      .next { s with trace := s.trace ++ [.delay .pollErase], fsm := .ePoll }) ∧
    (s.fsm = .eAdv → exec (.erase h a n) s = .next { s with cur := s.cur + 4096, fsm := .eNext }) ∧
    (s.fsm = .eWrdi → ∃ t, exec .wrdi s = .next t ∧
      exec (.erase h a n) s = .next { t with resCode := 0, fsm := .done })

/-- CHIP_ERASE as transitions of the sequencer (R224). -/
def Obligations.ChipEraseTransitions : Prop :=
  ∀ (s : State) (h : Byte) (a n : Word), latched s = ⟨5, h, a, n⟩ →
    (s.fsm = .cWren → ∃ t, exec .wren s = .next t ∧ exec (.chipErase h a n) s = .next { t with fsm := .cVerify }) ∧
    (s.fsm = .cVerify → ∃ t, exec .rdsr s = .next t ∧ exec (.chipErase h a n) s =
      .next (if t.stat.getLsbD 1 then { t with fsm := .cBe } else { t with resCode := 5, fsm := .done })) ∧
    (s.fsm = .cBe → ∃ t, exec .be s = .next t ∧
      exec (.chipErase h a n) s = .next { t with polls := 0, fsm := .cPoll }) ∧
    (s.fsm = .cPoll → ∃ t, exec .rdsr s = .next t ∧
      (t.stat.getLsbD 0 = false → exec (.chipErase h a n) s = .next { t with resCode := 0, fsm := .done }) ∧
      (t.stat.getLsbD 0 = true → (∃ l, t.cfg.pollLimit = some l ∧ l ≤ t.polls + 1) →
        exec (.chipErase h a n) s = .next { t with polls := t.polls + 1, resCode := 6, fsm := .done }) ∧
      (t.stat.getLsbD 0 = true → (∀ l, t.cfg.pollLimit = some l → t.polls + 1 < l) →
        exec (.chipErase h a n) s = .next { t with polls := t.polls + 1, fsm := .cWait })) ∧
    (s.fsm = .cWait → exec (.chipErase h a n) s =
      .next { s with trace := s.trace ++ [.delay .pollChipErase], fsm := .cPoll })

/-! ### 60_exceptions.md -/

/-- R285 with R191 and R211: the four operations that take a handle check it first: unbound, they end with InvalidHandle and nothing
but the result code changed; bound, `cs_cur` is the handle's line and the operation sets its loop up.  What a range outside
the chip leaves of a device there is `OutOfRangeOperationsHaveNoDeviceSide` (assumption 30). -/
def Obligations.HandleIsCheckedFirst : Prop :=
  ∀ (s : State) (h : Byte) (a n : Word),
    (s.attCount ≤ h.toNat → ∀ p ∈ [(Instr.read h a n, Fsm.rCheck, (2 : BitVec 3)), (.write h a n, .wCheck, 3),
        (.erase h a n, .eCheck, 4), (.chipErase h a n, .cCheck, 5)],
      s.fsm = p.2.1 → latched s = ⟨p.2.2, h, a, n⟩ →
      exec p.1 s = .next { s with resCode := 4, fsm := .done }) ∧
    (∀ e, s.att[h.toNat]? = some e →
      (s.fsm = .rCheck → latched s = ⟨2, h, a, n⟩ →
        exec (.read h a n) s = .next { s with csCur := e.cs, env := s.env.claim e.cs a n, fsm := .rFrame }) ∧
      (s.fsm = .wCheck → latched s = ⟨3, h, a, n⟩ →
        exec (.write h a n) s = .next { s with
          csCur := e.cs, env := s.env.claim e.cs a n, cur := a.toNat, off := 0, rem := n, fsm := .wNext }) ∧
      (s.fsm = .eCheck → latched s = ⟨4, h, a, n⟩ →
        exec (.erase h a n) s = .next { s with
          csCur := e.cs, env := s.env.claim e.cs a n, cur := a.toNat / 4096 * 4096, endAddr := a.toNat + n.toNat,
          fsm := .eNext }) ∧
      (s.fsm = .cCheck → latched s = ⟨5, h, a, n⟩ →
        exec (.chipErase h a n) s = .next { s with csCur := e.cs, fsm := .cWren }))

/-- R290: `raise E` writes the result code, moves to `DONE`, and does nothing else; the next step returns to
`IDLE` without a bus event (R32). -/
def Obligations.RaiseEndsTheOperationAtOnce : Prop :=
  ∀ (s : State) (e : ResultCode) (i : Instr), s.resetPlan = [] → decodeRequest (latched s) = .ok i →
    raise e s = { s with resCode := e.code, fsm := .done } ∧
    step (raise e s) = .next { s with resCode := e.code, busy := false, fsm := .idle }

/-- R282: which operation can end with which result code. -/
def Obligations.OperationsEndOnlyWithTheirCodes : Prop :=
  ∀ s t : State, s.resetPlan = [] → OperationMatchesFsm s → s.fsm ≠ .done → step s = .next t → t.fsm = .done →
    (s.op = opProbe → t.resCode = 0 ∨ t.resCode = 1 ∨ t.resCode = 2 ∨ t.resCode = 3) ∧
    (s.op = opInfo → t.resCode = 0 ∨ (t.resCode = 4 ∧ s.cfg.infoPolicy = .error)) ∧
    (s.op = opRead → t.resCode = 0 ∨ t.resCode = 4) ∧
    (s.op = opWrite ∨ s.op = opErase ∨ s.op = opChipErase →
      t.resCode = 0 ∨ t.resCode = 4 ∨ t.resCode = 5 ∨ (t.resCode = 6 ∧ s.cfg.pollLimit ≠ none))

/-- R294: a failed arm ends the operation: after the status byte with bit 1 clear no further bus event comes before
the controller is idle again. -/
def Obligations.FailedArmSendsNothingMore : Prop :=
  ∀ (s t : State), s.resetPlan = [] → OperationMatchesFsm s →
    s.fsm = .wVerify ∨ s.fsm = .eVerify ∨ s.fsm = .cVerify →
    exec .rdsr s = .next t → t.stat.getLsbD 1 = false →
    step s = .next { t with resCode := 5, fsm := .done } ∧
    step { t with resCode := 5, fsm := .done } = .next { t with resCode := 5, busy := false, fsm := .idle }

/-- Frame of the host operations, register by register.  Parameters, queue and reset input never change; the trace only
grows; the latched request changes only on acceptance, `busy` only on acceptance and in `DONE`, `res_code` only on entry
to `DONE`; `cs_cur` only where PROBE begins or a handle is checked; the pins of every line but the operation's own never;
table, `bus_init`, `idbuf`, `res_handle` only in PROBE; `info_*` only in INFO, which has no bus event; `rdata` only in
READ or on acceptance; the loop registers only in the operation that owns them; and what stands on every line but the
operation's own is as before. -/
def Obligations.HostOperationsKeepWhatTheyDoNotOwn : Prop :=
  ∀ (s t : State) (i : Instr), i.isHost = true → exec i s = .next t →
    t.cfg = s.cfg ∧ t.requests = s.requests ∧ t.resetPlan = s.resetPlan ∧ (∃ es, t.trace = s.trace ++ es) ∧
    (s.fsm ≠ .idle → t.op = s.op ∧ t.sel = s.sel ∧ t.addr = s.addr ∧ t.len = s.len) ∧
    (s.fsm ≠ .idle → s.fsm ≠ .done → t.busy = s.busy) ∧ (t.fsm ≠ .done → t.resCode = s.resCode) ∧
    (s.fsm ∉ [.pInit, .rCheck, .wCheck, .eCheck, .cCheck] → t.csCur = s.csCur) ∧
    (∀ c, c ≠ t.csCur → lineBit t.csN c = lineBit s.csN c ∧ lineBit t.csOe c = lineBit s.csOe c) ∧
    ((∀ c a n, i ≠ .probe c a n) → t.att = s.att ∧ t.csOe = s.csOe ∧ t.busInit = s.busInit ∧
      t.idbuf = s.idbuf ∧ t.resHandle = s.resHandle) ∧
    ((∀ h a n, i ≠ .info h a n) → t.infoMfr = s.infoMfr ∧ t.infoDev = s.infoDev ∧ t.infoSize = s.infoSize ∧
      t.infoDesc = s.infoDesc) ∧
    ((∀ h a n, i ≠ .read h a n) → s.fsm ≠ .idle → t.rdata = s.rdata) ∧
    ((∀ h a n, i ≠ .write h a n) → t.wdata = s.wdata ∧ t.freeHost = s.freeHost ∧ t.rem = s.rem ∧
      t.off = s.off ∧ t.k = s.k) ∧
    ((∀ h a n, i ≠ .erase h a n) → t.endAddr = s.endAddr) ∧
    ((∀ h a n, i ≠ .write h a n ∧ i ≠ .erase h a n) → t.cur = s.cur) ∧
    ((∃ h a n, i = .info h a n) → t.trace = s.trace ∧ t.env = s.env ∧ t.csN = s.csN) ∧
    ((∃ h a n, i = .probe h a n ∨ i = .info h a n ∨ i = .read h a n) → t.stat = s.stat ∧ t.polls = s.polls) ∧
    (s.env.wf → ∀ c, c ≠ t.csCur → t.env.lineAt c = s.env.lineAt c)

/-! ### 47_flash_device_env.md -/

/-- R243, R244, R254 and R257 to R259 on the reference device: what each wire command leaves of an idle device, a
device that refuses to arm included; its array is unchanged by every one of them, a program or erase only becomes pending,
and with the latch clear every program and erase, whatever its address and data, is ignored.  An erase of a last sub-sector
that the array holds only in part is one of them.  That a refused WREN leaves a latch that was set already is the model's
choice (assumption 28). -/
def Obligations.IdleDeviceFollowsItsCommands : Prop :=
  ∀ (s : State) (d : RefDevice), s.cfg.opc.wf → s.env.wf → s.env.lineAt s.csCur = .device d → d.wip = false →
    (d.refusals = [] → ∃ t, exec .wren s = .next t ∧ deviceAt t s.csCur = some { d with wel := true, rx := [] }) ∧
    (∀ rs, d.refusals = false :: rs → ∃ t, exec .wren s = .next t ∧
      deviceAt t s.csCur = some { d with wel := true, refusals := rs, rx := [] }) ∧
    (∀ rs, d.refusals = true :: rs → ∃ t, exec .wren s = .next t ∧
      deviceAt t s.csCur = some { d with refusals := rs, rx := [] }) ∧
    (∃ t, exec .wrdi s = .next t ∧ deviceAt t s.csCur = some { d with wel := false, rx := [] }) ∧
    (∃ t, exec .rdsr s = .next t ∧ deviceAt t s.csCur = some { d with rx := [] } ∧
      t.stat.getLsbD 0 = false ∧ t.stat.getLsbD 1 = d.wel) ∧
    (∃ t, exec .rdid s = .next t ∧ deviceAt t s.csCur = some { d with rx := [] } ∧ t.idbuf = d.id) ∧
    (∀ a n, ∃ t, exec (.rd a n) s = .next t ∧ deviceAt t s.csCur = some { d with rx := [] } ∧
      t.rdata = s.rdata ++ (List.range n).map (fun i => d.mem.read ((a.toNat + i) % d.size))) ∧
    (∀ a data, d.wel = true → (∀ i < data.length, a.toNat / 256 * 256 + (a.toNat + i) % 256 < d.size) →
      ∃ t, exec (.pp a data) s = .next t ∧ deviceAt t s.csCur = some { d with
        pending := some (.program (RefDevice.programCells a.toNat data))
        wip := true, busyLeft := d.busyReads, rx := [] }) ∧
    (∀ a, d.wel = true → a.toNat < d.size →
      ∃ t, exec (.sse a) s = .next t ∧ deviceAt t s.csCur = some { d with
        pending := some (.erase (a.toNat / 4096 * 4096) (a.toNat / 4096 * 4096 + 4095))
        wip := true, busyLeft := d.busyReads, rx := [] }) ∧
    (d.wel = true → ∃ t, exec .be s = .next t ∧ deviceAt t s.csCur = some { d with
        pending := some (.erase 0 (d.size - 1)), wip := true, busyLeft := d.busyReads, rx := [] }) ∧
    (d.wel = false → ∀ w, (w = .be ∨ (∃ a, w = .sse a) ∨ ∃ a data, w = .pp a data) →
      ∃ t, exec w s = .next t ∧ deviceAt t s.csCur = some { d with rx := [] })

/-- R252, R256: a busy device answers status reads and ignores every other command: each status read while polls are
left to it shows bit 0 set and counts one down, the next completes the pending operation and shows bits 0 and 1
clear. -/
def Obligations.BusyDeviceIgnoresAllButStatusReads : Prop :=
  ∀ (s : State) (d : RefDevice), s.cfg.opc.wf → s.env.wf → s.env.lineAt s.csCur = .device d → d.wip = true →
    (d.busyLeft ≠ 0 → ∃ t, exec .rdsr s = .next t ∧ t.stat.getLsbD 0 = true ∧
      deviceAt t s.csCur = some { d with busyLeft := d.busyLeft - 1, rx := [] }) ∧
    (d.busyLeft = 0 → ∃ t, exec .rdsr s = .next t ∧ t.stat.getLsbD 0 = false ∧ t.stat.getLsbD 1 = false ∧
      deviceAt t s.csCur = some { d with
        mem := (match d.pending with
          | none => d.mem
          | some (.program cells) => d.mem.program cells
          | some (.erase lo hi) => d.mem.erase lo hi)
        pending := none, wip := false, wel := false, rx := [] }) ∧
    (∀ w, w.isHost = false → w ≠ .rdsr →
      ∃ t, exec w s = .next t ∧ deviceAt t s.csCur = some { d with rx := [] })

/-- R260, R261: a completed program leaves in every byte the AND of its old value with each data byte sent to it, in
order, a completed erase 0xFF; every byte outside reads as before. -/
def Obligations.ProgramAndsAndEraseSets : Prop :=
  ∀ m : Memory, m.wf →
    (∀ a b x, (m.programByte a b).read x = if x = a then m.read a &&& b else m.read x) ∧
    (∀ cells x, (m.program cells).read x =
      ((cells.filter (fun c => c.1 = x)).map Prod.snd).foldl (· &&& ·) (m.read x)) ∧
    (∀ cells x, (∀ c ∈ cells, c.1 ≠ x) → (m.program cells).read x = m.read x) ∧
    (∀ lo hi x, (m.erase lo hi).read x = if lo ≤ x ∧ x ≤ hi then 0xFF else m.read x) ∧
    (∀ a b, (m.programByte a b).wf) ∧ (∀ cells, (m.program cells).wf) ∧ (∀ lo hi, (m.erase lo hi).wf)

/-- R28, R252: the places of the bits in the STATUS byte. -/
def Obligations.StatusByteLayout : Prop :=
  ∀ (srwd b6 tb : Bool) (bp : BitVec 3) (wel wip : Bool),
    let b := statusByte srwd b6 tb bp wel wip
    statusWip b = wip ∧ statusWel b = wel ∧ statusBp b = bp ∧ statusTb b = tb ∧ statusB6 b = b6 ∧ statusSrwd b = srwd

/-- R266 for one chunk: on an idle reference device whose target bytes are erased, WREN, PP, status reads until WIP
clears, then RD deliver the bytes that were programmed. -/
def Obligations.ProgrammedChunkReadsBack : Prop :=
  ∀ (s : State) (d : RefDevice) (a : WireAddr) (data : List Byte),
    s.cfg.opc.wf → s.env.wf → s.env.lineAt s.csCur = .device d → d.wf → d.wip = false → d.refusals = [] →
    1 ≤ data.length → a.toNat % 256 + data.length ≤ 256 → a.toNat + data.length ≤ d.size →
    (∀ i < data.length, d.mem.read (a.toNat + i) = 0xFF) →
    ∃ t, execAll ([.wren, .pp a data] ++ List.replicate (d.busyReads + 1) .rdsr ++ [.rd a data.length]) s = .next t ∧
      t.rdata = s.rdata ++ data

/-- R266, the round trip: a WRITE of `n` bytes and a READ of the same range, presented one after the other to an idle
controller whose handle is bound to an idle reference device with the range erased, deliver the bytes written.  The
start is page-aligned or the range stays inside one page, and a finite poll limit exceeds the device's busy reads. -/
def Obligations.WriteThenReadDeliversTheData : Prop :=
  ∀ (s : State) (d : RefDevice) (e : Attached) (h : Byte) (a n : Word) (data : List Byte) (rs : List HostRequest),
    s.resetPlan = [] → s.fsm = .idle → s.cfg.opc.wf → s.env.wf →
    s.requests = ⟨⟨3, h, a, n⟩, data⟩ :: ⟨⟨2, h, a, n⟩, []⟩ :: rs →
    s.att[h.toNat]? = some e → s.env.lineAt e.cs = .device d → d.wf → d.wip = false → d.refusals = [] →
    (∀ l, s.cfg.pollLimit = some l → d.busyReads < l) →
    data.length = n.toNat → (a.toNat % 256 = 0 ∨ a.toNat % 256 + n.toNat ≤ 256) → a.toNat + n.toNat ≤ d.size →
    (∀ i < n.toNat, d.mem.read (a.toNat + i) = 0xFF) →
    ∃ k t, Host.Core.run core k s = .next t ∧ t.fsm = .idle ∧ t.requests = rs ∧ t.resCode = 0 ∧ t.rdata = data

/-! ### 70_reset_and_hazards.md -/

/-- R320, R321, R322: reset may arrive in any state, after any number of a frame's events; afterwards every register
has its reset value, no handle is bound, the parameters are as before, and so is every line but the one whose frame
was cut short. -/
def Obligations.ResetInAnyState : Prop :=
  ∀ (s : State) (n : Nat) (rs : List (Option Nat)), s.resetPlan = some n :: rs →
    ∃ t, step s = .next t ∧
      t = { State.resetWith s.cfg with
        trace := t.trace, env := t.env, requests := s.requests, freeHost := t.freeHost, resetPlan := rs } ∧
      (∃ es, t.trace = s.trace ++ es) ∧
      (s.env.wf → ∀ c, c ≠ s.csCur → t.env.lineAt c = s.env.lineAt c) ∧
      (wireAt s = none → t.env = s.env) ∧ (n = 0 → t.env = s.env)

/-- R335: with `POLL_LIMIT = INF` a poll loop goes on, on any line, until a status read shows WIP = 0: after any number of
steps the controller is still in the loop, busy, and no request has been taken, or one of the status reads before showed
WIP = 0.  An empty line never shows it, so there the loop never ends. -/
def Obligations.UnresponsiveDeviceHangsTheController : Prop :=
  ∀ s : State, s.resetPlan = [] → OperationMatchesFsm s → s.busy = true → s.cfg.pollLimit = none →
    ∀ p ∈ [(Fsm.wPoll, Fsm.wWait), (.ePoll, .eWait), (.cPoll, .cWait)], s.fsm = p.1 →
    ∀ k,
      let inLoop := ∃ t, Host.Core.run core k s = .next t ∧ (t.fsm = p.1 ∨ t.fsm = p.2) ∧ t.busy = true ∧
        t.requests = s.requests ∧ t.att = s.att
      (inLoop ∨ ∃ j < k, ∃ t u, Host.Core.run core j s = .next t ∧ t.fsm = p.1 ∧ exec .rdsr t = .next u ∧
        u.stat.getLsbD 0 = false) ∧
      (s.env.lineAt s.csCur = .empty → inLoop)

/-- R147, R148: with a finite limit the same line ends the loop in Timeout, after exactly `POLL_LIMIT` status
reads. -/
def Obligations.FiniteLimitEndsInTimeout : Prop :=
  ∀ (s : State) (l : Nat), s.resetPlan = [] → OperationMatchesFsm s → s.cfg.pollLimit = some l →
    s.env.lineAt s.csCur = .empty → s.polls < l →
    s.fsm = .wPoll ∨ s.fsm = .ePoll ∨ s.fsm = .cPoll →
    ∃ t, Host.Core.run core (2 * (l - s.polls) - 1) s = .next t ∧
      t.fsm = .done ∧ t.resCode = 6 ∧ t.polls = l

/-! ### The whole machine -/

/-- The invariant holds right after reset, and also with a reference device in its initial state (R265) on a line, whose
array is canonical and, where the registry lists its identification, has the size registered (R50). -/
def Obligations.ResetMeetsTheInvariant : Prop :=
  MachineInv State.reset ∧
  ∀ cfg : Config, cfg.wf → MachineInv (State.resetWith cfg) ∧
    ∀ (c : Byte) (size : Nat) (id : Vector Byte 20) (n : Nat) (mem : Memory), c.toNat < cfg.nCs → mem.wf →
      (∀ r e, lookup (State.resetWith cfg) id[0] (id[1] ++ id[2]) = some r → cfg.registry[r]? = some e →
        size = e.size.toNat) →
      MachineInv { State.resetWith cfg with env := Env.withLine c (.device (RefDevice.initial size id n mem)) }

/-- Every step keeps the invariant, a step in which reset arrives included. -/
def Obligations.StepKeepsTheInvariant : Prop := ∀ s t : State, MachineInv s → step s = .next t → MachineInv t

/-- A state that meets the invariant never faults, and is refused only for a reserved operation code presented to
the idle controller. -/
def Obligations.InvariantStatesStepOn : Prop :=
  ∀ s : State, MachineInv s →
    StepsOn s ∨
    (step s = .refused .reservedOperation ∧ s.fsm = .idle ∧
      ∃ r rs, s.requests = r :: rs ∧ (r.req.op = 6 ∨ r.req.op = 7))

/-- R325: no sequence of requests drives the bus through an uninitialised pin: every line a step selects is
configured as an output, and the bus is initialised.  An id at or above `N_CS` names no line (R7; assumption 3): selecting it
drives nothing. -/
def Obligations.SelectsOnlyInitialisedLines : Prop :=
  ∀ s t : State, MachineInv s → s.resetPlan = [] → step s = .next t →
    ∃ es, t.trace = s.trace ++ es ∧
      ∀ c, BusEvent.sel c ∈ es → (c.toNat < s.cfg.nCs → lineBit s.csOe c = true) ∧ s.busInit = true

/-- R213, R193: the address of every page program and sub-sector erase a step emits is the one the chunk map and the
iteration map give: chunk `j` of WRITE at `addr + 256 j`, and a multiple of 4096 inside the range for ERASE. -/
def Obligations.EmittedAddressesFollowTheMaps : Prop :=
  ∀ s : State, MachineInv s →
    (∀ a data, wireAt s = some (.pp a data) →
      ∃ j, 256 * j < s.len.toNat ∧ a = wireAddr (s.addr.toNat + 256 * j) ∧ s.off.toNat = 256 * j ∧
        data.length = min 256 (s.len.toNat - 256 * j)) ∧
    (∀ a, wireAt s = some (.sse a) →
      ∃ q, a = wireAddr (4096 * q) ∧ s.addr.toNat / 4096 ≤ q ∧ 4096 * q < s.addr.toNat + s.len.toNat)

/-- R30: what the pseudocode ends in, the state machine reaches.  From `IDLE` with a request presented, if the operation's pseudocode,
run on the state in which the request has been accepted, ends, then the machine reaches, in some number of steps,
exactly the state the pseudocode ends in, in `DONE` with its result code. -/
def Obligations.StateMachineRunsThePseudocode : Prop :=
  ∀ (s t : State) (r : HostRequest) (rs : List HostRequest) (i : Instr) (fuel : Nat),
    s.resetPlan = [] → s.fsm = .idle → s.requests = r :: rs → decodeRequest r.req = .ok i →
    (pseudocode fuel i (accept r.req (firstState i) { s with requests := rs, wdata := r.data })).answer = some t →
    ∃ k, Host.Core.run core k s = .next t

/-- R30, the other direction: the state in which the machine first comes to `DONE` is the one the operation's pseudocode
ends in, run with enough fuel for its loops. -/
def Obligations.PseudocodeFollowsTheStateMachine : Prop :=
  ∀ (s t : State) (r : HostRequest) (rs : List HostRequest) (i : Instr) (k : Nat),
    s.resetPlan = [] → s.fsm = .idle → s.requests = r :: rs → decodeRequest r.req = .ok i →
    Host.Core.run core k s = .next t → t.fsm = .done →
    (∀ j < k, ∀ u, Host.Core.run core j s = .next u → u.fsm ≠ .done) →
    ∃ fuel,
      (pseudocode fuel i (accept r.req (firstState i) { s with requests := rs, wdata := r.data })).answer = some t

/-- A step in which no reset arrives does what it does with no reset to come, and leaves the rest of the plan: so every
statement about a step with an empty plan is one about every step without reset. -/
def Obligations.StepsWithoutResetIgnoreThePlan : Prop :=
  ∀ (s : State) (rs : List (Option Nat)), s.resetPlan = none :: rs →
    step s = withPlan rs (step { s with resetPlan := [] })

/-- R322 with U8: what a reset that arrives after `n + 1` of a frame's `Select` and exchanges leaves of the reference
device on the line.  It keeps everything if no byte reached it, if the command changes nothing, if it is busy and the
command is no status read (assumption 31), or if a program or erase meets a clear latch; a status read has done what R252 says once its
second exchange was made; a cut WREN or WRDI leaves the latch open; a cut program or erase inside the array leaves the
bytes of its own page or sub-sector, the latch and the busy flag open, and every other byte as it was. -/
def Obligations.ResetLeavesTheDevices : Prop :=
  ∀ (s t : State) (n : Nat) (rs : List (Option Nat)) (w : Instr) (d : RefDevice),
    s.resetPlan = some (n + 1) :: rs → wireAt s = some w → s.cfg.opc.wf → s.env.wf →
    s.env.lineAt s.csCur = .device d → step s = .next t →
    (n = 0 ∨ w = .rdid ∨ (∃ a m, w = .rd a m) ∨ (d.wip = true ∧ w ≠ .rdsr) ∨
        (d.wel = false ∧ (w = .be ∨ (∃ a, w = .sse a) ∨ ∃ a data, w = .pp a data)) →
      deviceAt t s.csCur = some { d with rx := [] }) ∧
    (w = .rdsr → deviceAt t s.csCur = some { (if n < 2 then d else d.tick) with rx := [] }) ∧
    (w = .wren ∨ w = .wrdi → ∃ b, deviceAt t s.csCur = some { d with wel := b, rx := [] }) ∧
    (∀ lo m, (∃ a data, w = .pp a data ∧ lo = a.toNat / 256 * 256 ∧ m = 256 ∧
          ∀ i < data.length, a.toNat / 256 * 256 + (a.toNat + i) % 256 < d.size) ∨
        (∃ a, w = .sse a ∧ lo = a.toNat / 4096 * 4096 ∧ m = 4096 ∧ a.toNat < d.size) ∨
        (w = .be ∧ lo = 0 ∧ m = d.size) →
      ∃ d', deviceAt t s.csCur = some d' ∧ d'.size = d.size ∧ d'.id = d.id ∧ d'.busyReads = d.busyReads ∧
        d'.refusals = d.refusals ∧ d'.rx = [] ∧ ∀ x, x < lo ∨ lo + m ≤ x → d'.mem.read x = d.mem.read x)

/-- R50 with R165: in a state that meets the invariant, the size INFO reports for a bound handle is the size of the
array of the device on its line. -/
def Obligations.InfoReportsTheSizeOfTheChip : Prop :=
  ∀ (s : State) (h : Byte) (a n : Word) (e : Attached) (d : RefDevice),
    MachineInv s → s.fsm = .iLookup → latched s = ⟨1, h, a, n⟩ → s.att[h.toNat]? = some e →
    s.env.lineAt e.cs = .device d →
    ∃ t, exec (.info h a n) s = .next t ∧ t.infoSize.toNat = d.size ∧ t.resCode = 0

/-- R7, R24: the parameter `N_CS` says which ids name a line.  A step without reset leaves both
bits of every other id as they were (assumption 3), and makes a line an output only where PROBE initialises it. -/
def Obligations.OnlyExistingLinesAreDriven : Prop :=
  ∀ s t : State, s.resetPlan = [] → step s = .next t →
    (∀ c, s.cfg.nCs ≤ c.toNat → lineBit t.csN c = lineBit s.csN c ∧ lineBit t.csOe c = lineBit s.csOe c) ∧
    ∀ c, lineBit t.csOe c ≠ lineBit s.csOe c →
      lineBit t.csOe c = true ∧ c.toNat < s.cfg.nCs ∧ s.fsm = .pInit ∧ c = s.sel

/-- R67, D15, U3 (assumption 30), with R181, R193 and R213.  Where READ, WRITE or ERASE begins, a reference device on the
handle's line that holds the whole range, with no address bit above 23, stays as it is; any other has no device-side
meaning from then on, and every other line stays.  So in a state that meets the invariant every address a frame is about
to give a reference device lies in its array: the whole range of RD, every cell of PP, the address of SSE. -/
def Obligations.OutOfRangeOperationsHaveNoDeviceSide : Prop :=
  (∀ (s : State) (h : Byte) (a n : Word) (e : Attached), s.env.wf → s.att[h.toNat]? = some e →
    ∀ p ∈ [(Instr.read h a n, Fsm.rCheck, (2 : BitVec 3)), (.write h a n, .wCheck, 3), (.erase h a n, .eCheck, 4)],
      s.fsm = p.2.1 → latched s = ⟨p.2.2, h, a, n⟩ →
      ∃ t, exec p.1 s = .next t ∧ t.csCur = e.cs ∧ (∀ c, c ≠ e.cs → t.env.lineAt c = s.env.lineAt c) ∧
        (∀ d, s.env.lineAt e.cs = .device d →
          (a.toNat < 2 ^ 24 ∧ a.toNat + n.toNat ≤ d.size ∧ d.size ≤ 2 ^ 24 → t.env = s.env) ∧
          (2 ^ 24 ≤ a.toNat ∨ d.size < a.toNat + n.toNat ∨ 2 ^ 24 < d.size → t.env.lineAt e.cs = .oracle)) ∧
        ((∀ d, s.env.lineAt e.cs ≠ .device d) → t.env = s.env)) ∧
  ∀ (s : State) (d : RefDevice), MachineInv s → s.env.lineAt s.csCur = .device d →
    (∀ a n, wireAt s = some (.rd a n) → a.toNat + n ≤ d.size) ∧
    (∀ a data, wireAt s = some (.pp a data) → a.toNat + data.length ≤ d.size ∧
      ∀ c ∈ RefDevice.programCells a.toNat data, c.1 < d.size) ∧
    (∀ a, wireAt s = some (.sse a) → a.toNat < d.size)

end
end

