-- ==== Sys2Proof/Laws/Decode.lean ====
section
/-! SUPPORT. Laws of the encodings: the request record and the address bytes read back, and what the request decoder
can answer, said once. -/

namespace Sys2Proof

theorem Request.ofWord_toWord (r : Request) : Request.ofWord r.toWord = r := by
  obtain ⟨op, sel, addr, len⟩ := r
  simp only [Request.ofWord, Request.toWord, Request.mk.injEq]
  refine ⟨?_, ?_, ?_, ?_⟩ <;>
    (apply BitVec.eq_of_getLsbD_eq; intro i hi
     simp only [BitVec.getLsbD_append, BitVec.getLsbD_extractLsb', hi, decide_true, Bool.true_and])
  · simp [hi]
  · have h1 : ¬ 3 + i < 3 := by omega
    simp [hi, h1]
  · have h1 : ¬ 11 + i < 3 := by omega
    have h2 : ¬ 11 + i - 3 < 8 := by omega
    have h3 : 11 + i - 3 - 8 = i := by omega
    simp [h1, h2, h3, hi]
  · have h1 : ¬ 43 + i < 3 := by omega
    have h2 : ¬ 43 + i - 3 < 8 := by omega
    have h3 : ¬ 43 + i - 3 - 8 < 32 := by omega
    have h4 : 43 + i - 3 - 8 - 32 = i := by omega
    simp [h1, h2, h3, h4]

theorem Request.toWord_ofWord (w : BitVec 75) : (Request.ofWord w).toWord = w := by
  apply BitVec.eq_of_getLsbD_eq
  intro i hi
  simp only [Request.ofWord, Request.toWord, BitVec.getLsbD_append, BitVec.getLsbD_extractLsb']
  split_ifs with h1 h2 h3
  · simp [h1]
  · have : 3 + (i - 3) = i := by omega
    simp [h2, this]
  · have : 11 + (i - 3 - 8) = i := by omega
    simp [h3, this]
  · have : 43 + (i - 3 - 8 - 32) = i := by omega
    have h4 : i - 3 - 8 - 32 < 32 := by omega
    simp [h4, this]

/-- R93: the three bytes of an address give it back. -/
theorem addrOfBytes_extract (a : WireAddr) :
    addrOfBytes (a.extractLsb' 16 8) (a.extractLsb' 8 8) (a.extractLsb' 0 8) = a := by
  apply BitVec.eq_of_getLsbD_eq
  intro i hi
  simp only [addrOfBytes, BitVec.getLsbD_append, BitVec.getLsbD_extractLsb']
  split_ifs with h1 h2
  · simp [h1]
  · have : 8 + (i - 8) = i := by omega
    simp [h2, this]
  · have : 16 + (i - 8 - 8) = i := by omega
    have h4 : i - 8 - 8 < 8 := by omega
    simp [h4, this]

theorem addrBytes_addrOfBytes (a2 a1 a0 : Byte) : addrBytes (addrOfBytes a2 a1 a0) = [a2, a1, a0] := by
  simp only [addrBytes, List.cons.injEq, and_true]
  refine ⟨?_, ?_, ?_⟩ <;>
    (apply BitVec.eq_of_getLsbD_eq; intro i hi
     simp only [addrOfBytes, BitVec.getLsbD_append, BitVec.getLsbD_extractLsb', hi, decide_true,
       Bool.true_and])
  · have h1 : ¬ 16 + i < 8 := by omega
    have h2 : ¬ 16 + i - 8 < 8 := by omega
    have h3 : 16 + i - 8 - 8 = i := by omega
    simp [h1, h2, h3]
  · have h1 : ¬ 8 + i < 8 := by omega
    have h2 : 8 + i - 8 = i := by omega
    simp [h1, hi, h2]
  · simp [hi]

@[simp] theorem addrBytes_length (a : WireAddr) : (addrBytes a).length = 3 := rfl

/-- Everything the request decoder can answer (R82, R110). -/
theorem decodeRequest_cases (r : Request) :
    (r.op = opProbe ∧ decodeRequest r = .ok (.probe r.sel r.addr r.len)) ∨
    (r.op = opInfo ∧ decodeRequest r = .ok (.info r.sel r.addr r.len)) ∨
    (r.op = opRead ∧ decodeRequest r = .ok (.read r.sel r.addr r.len)) ∨
    (r.op = opWrite ∧ decodeRequest r = .ok (.write r.sel r.addr r.len)) ∨
    (r.op = opErase ∧ decodeRequest r = .ok (.erase r.sel r.addr r.len)) ∨
    (r.op = opChipErase ∧ decodeRequest r = .ok (.chipErase r.sel r.addr r.len)) ∨
    ((r.op = 6 ∨ r.op = 7) ∧ decodeRequest r = .error .reservedOperation) := by
  obtain ⟨op, sel, addr, len⟩ := r
  have h : op = 0 ∨ op = 1 ∨ op = 2 ∨ op = 3 ∨ op = 4 ∨ op = 5 ∨ op = 6 ∨ op = 7 := by revert op; decide
  rcases h with rfl | rfl | rfl | rfl | rfl | rfl | rfl | rfl <;>
    simp [decodeRequest, opProbe, opInfo, opRead, opWrite, opErase, opChipErase]

end Sys2Proof
end

