-- ==== Sys2Proof/Laws/Memory.lean ====
section
/-! SUPPORT. Laws of the flash arrays: read after write, program and erase, and the canonical form every operation
keeps. -/

namespace Sys2Proof.Machine.Memory

theorem read_of_not_mem {m : Memory} {a : Nat} (h : ∀ c ∈ m, c.1 ≠ a) : m.read a = erasedByte := by
  induction m with
  | nil => rfl
  | cons c m ih =>
    obtain ⟨x, v⟩ := c
    have hx : x ≠ a := h (x, v) (by simp)
    simp only [read, if_neg hx]
    exact ih fun c hc => h c (by simp [hc])

theorem wf_cons {x : Nat} {v : Byte} {m : Memory} :
    wf ((x, v) :: m) ↔ (∀ c ∈ m, x < c.1) ∧ v ≠ erasedByte ∧ wf m := by
  simp only [wf, List.map_cons, List.pairwise_cons, List.mem_map, forall_exists_index, and_imp,
    List.mem_cons, forall_eq_or_imp]
  constructor
  · rintro ⟨⟨h1, h2⟩, h3, h4⟩
    exact ⟨fun c hc => h1 c.1 c hc rfl, h3, h2, h4⟩
  · rintro ⟨h1, h3, h2, h4⟩
    exact ⟨⟨fun n c hc he => he ▸ h1 c hc, h2⟩, h3, h4⟩

/-- A write adds no address but its own. -/
theorem mem_write {m : Memory} {a : Nat} {b : Byte} {c : Host.Cell} (h : c ∈ m.write a b) :
    c = (a, b) ∨ c ∈ m := by
  induction m with
  | nil =>
    simp only [write] at h
    split at h <;> simp_all
  | cons e m ih =>
    obtain ⟨x, v⟩ := e
    simp only [write] at h
    split at h
    · simp only [List.mem_cons] at h ⊢
      rcases h with h | h
      · exact .inr (.inl h)
      · rcases ih h with h | h
        · exact .inl h
        · exact .inr (.inr h)
    · split at h <;> split at h <;> (simp_all; try tauto)

/-- A write keeps the canonical form. -/
theorem write_wf {m : Memory} (h : m.wf) (a : Nat) (b : Byte) : (m.write a b).wf := by
  induction m with
  | nil =>
    simp only [write]
    split <;> simp_all [wf]
  | cons e m ih =>
    obtain ⟨x, v⟩ := e
    obtain ⟨h1, h2, h3⟩ := wf_cons.mp h
    simp only [write]
    split
    · rename_i hlt
      refine wf_cons.mpr ⟨fun c hc => ?_, h2, ih h3⟩
      rcases mem_write hc with rfl | hc
      · exact hlt
      · exact h1 c hc
    · split
      · rename_i _ heq
        split
        · exact h3
        · rename_i hb
          exact wf_cons.mpr ⟨fun c hc => heq ▸ h1 c hc, hb, h3⟩
      · split
        · exact h
        · rename_i hge hne hb
          refine wf_cons.mpr ⟨fun c hc => ?_, hb, h⟩
          have hax : a < x := by omega
          rcases List.mem_cons.mp hc with rfl | hc
          · exact hax
          · exact lt_trans hax (h1 c hc)

/-- Read after write, on a canonical array. -/
theorem read_write {m : Memory} (h : m.wf) (a : Nat) (b : Byte) (x : Nat) :
    (m.write a b).read x = if x = a then b else m.read x := by
  induction m with
  | nil =>
    simp only [write]
    by_cases hb : b = erasedByte
    · simp [hb, read]
    · by_cases hx : x = a
      · simp [hb, read, hx]
      · simp [hb, read, hx, Ne.symm hx]
  | cons e m ih =>
    obtain ⟨y, v⟩ := e
    obtain ⟨h1, h2, h3⟩ := wf_cons.mp h
    have hout : ∀ z, z ≤ y → read m z = erasedByte := fun z hz =>
      read_of_not_mem fun c hc => by have := h1 c hc; omega
    simp only [write]
    by_cases hlt : y < a
    · simp only [if_pos hlt, read, ih h3]
      by_cases hyx : y = x
      · have : x ≠ a := by omega
        simp [hyx, this]
      · simp [hyx]
    · by_cases heq : y = a
      · subst heq
        by_cases hb : b = erasedByte
        · by_cases hx : x = y
          · simp [hb, hx, hout y le_rfl]
          · simp [hb, hx, read, Ne.symm hx]
        · by_cases hx : x = y
          · simp [hb, hx, read]
          · simp [hb, hx, read, Ne.symm hx]
      · simp only [if_neg hlt, if_neg heq]
        by_cases hb : b = erasedByte
        · by_cases hx : x = a
          · simp [hb, hx, read, heq, hout a (by omega)]
          · simp [hb, hx]
        · by_cases hx : x = a
          · simp [hb, hx, read]
          · simp [hb, hx, read, Ne.symm hx]

theorem programByte_wf {m : Memory} (h : m.wf) (a : Nat) (b : Byte) : (m.programByte a b).wf :=
  write_wf h a _

/-- R260, R261: a programmed byte is the AND of old value and data; every other byte is as before. -/
theorem read_programByte {m : Memory} (h : m.wf) (a : Nat) (b : Byte) (x : Nat) :
    (m.programByte a b).read x = if x = a then m.read a &&& b else m.read x := read_write h a _ x

theorem program_wf {m : Memory} (h : m.wf) (cells : List Host.Cell) : (m.program cells).wf := by
  induction cells generalizing m with
  | nil => exact h
  | cons c cs ih => exact ih (programByte_wf h c.1 c.2)

theorem read_program_of_not_mem {m : Memory} (h : m.wf) {cells : List Host.Cell} {x : Nat}
    (hx : ∀ c ∈ cells, c.1 ≠ x) : (m.program cells).read x = m.read x := by
  induction cells generalizing m with
  | nil => rfl
  | cons c cs ih =>
    have hc : x ≠ c.1 := Ne.symm (hx c (by simp))
    have := ih (programByte_wf h c.1 c.2) fun d hd => hx d (by simp [hd])
    simpa [program, read_programByte h, hc] using this

theorem erase_wf {m : Memory} (h : m.wf) (lo hi : Nat) : (m.erase lo hi).wf := by
  refine ⟨?_, fun c hc => h.2 c (List.mem_filter.mp hc).1⟩
  exact h.1.sublist (List.filter_sublist.map _)

/-- R260: an erase leaves the erased byte in its range and every other byte as before. -/
theorem read_erase (m : Memory) (lo hi x : Nat) :
    (m.erase lo hi).read x = if lo ≤ x ∧ x ≤ hi then erasedByte else m.read x := by
  induction m with
  | nil => simp [erase, read]
  | cons e m ih =>
    obtain ⟨y, v⟩ := e
    simp only [erase] at ih ⊢
    by_cases hy : lo ≤ y ∧ y ≤ hi
    · rw [List.filter_cons_of_neg (by simp [hy]), ih]
      by_cases hx : lo ≤ x ∧ x ≤ hi
      · simp [hx]
      · have : y ≠ x := fun e => hx (e ▸ hy)
        simp [hx, read, this]
    · rw [List.filter_cons_of_pos (by simpa only [Bool.not_eq_true', Bool.and_eq_false_iff, decide_eq_false_iff_not, ← not_and_or] using hy)]
      simp only [read, ih]
      by_cases hyx : y = x
      · subst hyx
        simp [hy]
      · simp [hyx]

/-- A cut frame's free bytes keep the canonical form. -/
theorem scramble_wf {m : Memory} (h : m.wf) (lo free n : Nat) : (m.scramble lo free n).wf := by
  induction n with
  | zero => exact h
  | succ n ih => exact write_wf ih _ _

/-- Reading after a cut frame: free values in its range, everything else as before. -/
theorem read_scramble {m : Memory} (h : m.wf) (lo free n x : Nat) :
    (m.scramble lo free n).read x =
      if lo ≤ x ∧ x < lo + n then Config.freeByte (free + (x - lo)) else m.read x := by
  induction n with
  | zero =>
    rw [if_neg (by omega)]
    rfl
  | succ n ih =>
    simp only [scramble, read_write (scramble_wf h lo free n), ih]
    by_cases hx : x = lo + n
    · simp [hx]
    · rw [if_neg hx]
      have : (lo ≤ x ∧ x < lo + (n + 1)) ↔ (lo ≤ x ∧ x < lo + n) := by omega
      simp only [this]

/-- R260: a completed program leaves in each byte the AND of its old value and the data sent to it, in order. -/
theorem read_program {m : Memory} (h : m.wf) (cells : List Host.Cell) (x : Nat) :
    (m.program cells).read x = (cells.filter (fun c => c.1 = x)).foldl (fun v c => v &&& c.2) (m.read x) := by
  induction cells generalizing m with
  | nil => rfl
  | cons c cs ih =>
    have := ih (programByte_wf h c.1 c.2)
    simp only [program, List.foldl_cons] at this ⊢
    rw [this, read_programByte h]
    by_cases hc : c.1 = x
    · simp [hc]
    · simp [hc, Ne.symm hc]

end Sys2Proof.Machine.Memory
end

