-- ==== Sys2Proof/Laws/Lines.lean ====
section
/-! SUPPORT. Laws of the chip-select lines: the bits of `cs_oe` and `cs_n`, and the environment line by line. -/

namespace Sys2Proof.Machine

/-! ### Line bits -/

theorem one_shl_bit (c : Byte) (i : Nat) (hi : i < 256) :
    (1#256 <<< c.toNat).getLsbD i = decide (i = c.toNat) := by
  have hc : c.toNat < 256 := c.isLt
  rw [BitVec.getLsbD_shiftLeft]
  by_cases h : i = c.toNat
  · subst h; simp [hc]
  · by_cases hlt : i < c.toNat
    · simp [h, hlt]
    · have : i - c.toNat ≠ 0 := by omega
      simp [h, hlt, BitVec.getLsbD_one, this]

theorem lineBit_lineSet (n : Nat) (v : LineBits) (c d : Byte) :
    lineBit (lineSet n v c) d = ((decide (d = c) && decide (d.toNat < n)) || lineBit v d) := by
  have hd : d.toNat < 256 := d.isLt
  unfold lineSet
  split_ifs with h
  · simp only [lineBit, BitVec.getLsbD_or, one_shl_bit c _ hd, BitVec.toNat_inj]
    by_cases hc : d = c <;> simp_all
  · by_cases hc : d = c <;> simp_all

theorem lineBit_lineClear (n : Nat) (v : LineBits) (c d : Byte) :
    lineBit (lineClear n v c) d = (!(decide (d = c) && decide (d.toNat < n)) && lineBit v d) := by
  have hd : d.toNat < 256 := d.isLt
  unfold lineClear
  split_ifs with h
  · simp only [lineBit, BitVec.getLsbD_and, BitVec.getLsbD_not, one_shl_bit c _ hd, BitVec.toNat_inj, hd, decide_true,
      Bool.true_and]
    by_cases hc : d = c <;> simp_all
  · by_cases hc : d = c <;> simp_all

theorem lineBits_ext {v w : LineBits} (h : ∀ c, lineBit v c = lineBit w c) : v = w := by
  apply BitVec.eq_of_getLsbD_eq
  intro i hi
  have := h (BitVec.ofNat 8 i)
  simpa [lineBit, Nat.mod_eq_of_lt hi] using this

/-- R131: a bracket leaves its line deasserted and every other line as it was. -/
theorem lineSet_lineClear (n : Nat) (v : LineBits) (c : Byte) : lineSet n (lineClear n v c) c = lineSet n v c := by
  apply lineBits_ext
  intro d
  rw [lineBit_lineSet, lineBit_lineClear, lineBit_lineSet]
  cases decide (d = c) && decide (d.toNat < n) <;> simp

theorem lineSet_of_lineBit {n : Nat} {v : LineBits} {c : Byte} (h : lineBit v c = true) : lineSet n v c = v := by
  apply lineBits_ext
  intro d
  rw [lineBit_lineSet]
  by_cases hd : d = c
  · subst hd; simp [h]
  · simp [hd]

theorem lineBit_allOnes (c : Byte) : lineBit (BitVec.allOnes 256) c = true := by
  have hc : c.toNat < 256 := c.isLt
  rw [lineBit, BitVec.getLsbD_allOnes, decide_eq_true hc]

@[simp] theorem lineSet_allOnes (n : Nat) (c : Byte) : lineSet n (BitVec.allOnes 256) c = BitVec.allOnes 256 :=
  lineSet_of_lineBit (lineBit_allOnes c)

/-! ### The environment's lines -/

namespace Env

theorem lineIn_setLineIn (ls : List (Nat × Line)) (h : (ls.map Prod.fst).Pairwise (· < ·))
    (c : Nat) (l : Line) (d : Nat) :
    lineIn (setLineIn ls c l) d = if d = c then l else lineIn ls d := by
  induction ls with
  | nil =>
    simp only [setLineIn]
    by_cases hl : l = .oracle
    · simp [hl, lineIn]
    · by_cases hd : d = c
      · simp [hl, lineIn, hd]
      · simp [hl, lineIn, hd, Ne.symm hd]
  | cons e ls ih =>
    obtain ⟨x, k⟩ := e
    simp only [List.map_cons, List.pairwise_cons, List.mem_map, forall_exists_index, and_imp] at h
    obtain ⟨h1, h2⟩ := h
    have hout : ∀ (z : Nat), z ≤ x → lineIn ls z = .oracle := by
      intro z hz
      have : ∀ p ∈ ls, z < p.1 := fun p hp => by have := h1 p.1 p hp rfl; omega
      clear ih h1 h2
      induction ls with
      | nil => rfl
      | cons p ls ih2 =>
        have hp : p.1 ≠ z := by have := this p (by simp); omega
        simp only [lineIn, if_neg hp]
        exact ih2 fun q hq => this q (by simp [hq])
    simp only [setLineIn]
    by_cases hlt : x < c
    · simp only [if_pos hlt, lineIn, ih h2]
      by_cases hx : x = d
      · have : d ≠ c := by omega
        simp [hx, this]
      · simp [hx]
    · by_cases heq : x = c
      · subst heq
        by_cases hl : l = .oracle
        · by_cases hd : d = x
          · simp [hl, hd, hout x le_rfl]
          · simp [hl, hd, lineIn, Ne.symm hd]
        · by_cases hd : d = x
          · simp [hl, hd, lineIn]
          · simp [hl, hd, lineIn, Ne.symm hd]
      · simp only [if_neg hlt, if_neg heq]
        by_cases hl : l = .oracle
        · by_cases hd : d = c
          · simp [hl, hd, lineIn, heq, hout c (by omega)]
          · simp [hl, hd]
        · by_cases hd : d = c
          · simp [hl, hd, lineIn]
          · simp [hl, hd, lineIn, Ne.symm hd]

theorem mem_setLineIn {ls : List (Nat × Line)} {c : Nat} {l : Line} {p : Nat × Line}
    (h : p ∈ setLineIn ls c l) : (p = (c, l) ∧ l ≠ .oracle) ∨ p ∈ ls := by
  induction ls with
  | nil =>
    simp only [setLineIn] at h
    split at h <;> simp_all
  | cons e ls ih =>
    obtain ⟨x, k⟩ := e
    simp only [setLineIn] at h
    split at h
    · simp only [List.mem_cons] at h ⊢
      rcases h with h | h
      · exact .inr (.inl h)
      · rcases ih h with h | h
        · exact .inl h
        · exact .inr (.inr h)
    · split at h <;> split at h <;> (simp_all; try tauto)

theorem setLineIn_sorted {ls : List (Nat × Line)} (h : (ls.map Prod.fst).Pairwise (· < ·))
    (c : Nat) (l : Line) : ((setLineIn ls c l).map Prod.fst).Pairwise (· < ·) := by
  induction ls with
  | nil =>
    simp only [setLineIn]
    split <;> simp
  | cons e ls ih =>
    obtain ⟨x, k⟩ := e
    have h0 := h
    simp only [List.map_cons, List.pairwise_cons, List.mem_map, forall_exists_index, and_imp] at h
    obtain ⟨h1, h2⟩ := h
    simp only [setLineIn]
    split
    · rename_i hlt
      simp only [List.map_cons, List.pairwise_cons, List.mem_map, forall_exists_index, and_imp]
      refine ⟨?_, ih h2⟩
      rintro _ p hp rfl
      rcases mem_setLineIn hp with ⟨rfl, _⟩ | hp
      · exact hlt
      · exact h1 p.1 p hp rfl
    · split
      · rename_i _ heq
        split
        · exact h2
        · simp only [List.map_cons, List.pairwise_cons, List.mem_map, forall_exists_index, and_imp]
          exact ⟨fun _ p hp e => heq ▸ h1 _ p hp e, h2⟩
      · split
        · exact h0
        · rename_i hge hne _
          rw [List.map_cons, List.pairwise_cons]
          refine ⟨?_, h0⟩
          intro n hn
          have hcx : c < x := by omega
          simp only [List.map_cons, List.mem_cons, List.mem_map] at hn
          rcases hn with rfl | ⟨p, hp, rfl⟩
          · exact hcx
          · exact lt_trans hcx (h1 p.1 p hp rfl)

/-- Putting a line in place changes that line and no other. -/
theorem lineAt_setLine {e : Env} (h : e.wf) (c : Byte) (l : Line) (d : Byte) :
    (e.setLine c l).lineAt d = if d = c then l else e.lineAt d := by
  simp only [lineAt, setLine, lineIn_setLineIn _ h.1, BitVec.toNat_inj]

theorem setLine_wf {e : Env} (h : e.wf) (c : Byte) {l : Line} (hl : l = .oracle ∨ lineOk l = true) :
    (e.setLine c l).wf := by
  refine ⟨setLineIn_sorted h.1 _ _, fun p hp => ?_⟩
  rcases mem_setLineIn hp with ⟨rfl, hne⟩ | hp
  · exact hl.resolve_left hne
  · exact h.2 p hp

theorem lineIn_mem {ls : List (Nat × Line)} {c : Nat} (h : lineIn ls c ≠ .oracle) :
    (c, lineIn ls c) ∈ ls := by
  induction ls with
  | nil => exact absurd rfl h
  | cons e ls ih =>
    obtain ⟨x, k⟩ := e
    simp only [lineIn] at h ⊢
    by_cases hx : x = c
    · simp [hx]
    · simp only [if_neg hx] at h ⊢
      exact List.mem_cons_of_mem _ (ih h)

theorem lineOk_device {d : RefDevice} : lineOk (.device d) = true ↔ d.mem.wf := decide_eq_true_iff

/-- The array of a device in a canonical environment is canonical. -/
theorem device_mem_wf {e : Env} (h : e.wf) {c : Byte} {d : RefDevice} (hd : e.lineAt c = .device d) :
    d.mem.wf := by
  have hne : lineIn e.lines c.toNat ≠ .oracle := by
    rw [show lineIn e.lines c.toNat = .device d from hd]; simp
  have := h.2 _ (lineIn_mem hne)
  rw [show lineIn e.lines c.toNat = .device d from hd] at this
  exact lineOk_device.mp this

end Env

/-! ### The reference device's array -/

namespace RefDevice

@[simp] theorem start_mem (d : RefDevice) (p : Pending) : (d.start p).mem = d.mem := rfl

@[simp] theorem armed_mem (d : RefDevice) : d.armed.mem = d.mem := by
  unfold armed; split <;> rfl

@[simp] theorem start_size (d : RefDevice) (p : Pending) : (d.start p).size = d.size := rfl

@[simp] theorem start_id (d : RefDevice) (p : Pending) : (d.start p).id = d.id := rfl

@[simp] theorem armed_size (d : RefDevice) : d.armed.size = d.size := by
  unfold armed; split <;> rfl

@[simp] theorem armed_id (d : RefDevice) : d.armed.id = d.id := by
  unfold armed; split <;> rfl

@[simp] theorem tick_size (d : RefDevice) : d.tick.size = d.size := by
  unfold tick complete; split_ifs <;> rfl

@[simp] theorem tick_id (d : RefDevice) : d.tick.id = d.id := by
  unfold tick complete; split_ifs <;> rfl

@[simp] theorem exchange_size (o : Opcodes) (out : Byte) (d : RefDevice) : (d.exchange o out).2.size = d.size := by
  simp only [exchange]; split_ifs <;> simp

@[simp] theorem exchange_id (o : Opcodes) (out : Byte) (d : RefDevice) : (d.exchange o out).2.id = d.id := by
  simp only [exchange]; split_ifs <;> simp

theorem complete_mem_wf {d : RefDevice} (h : d.mem.wf) : d.complete.mem.wf := by
  unfold complete
  cases d.pending with
  | none => exact h
  | some p =>
    cases p with
    | program cells => exact Memory.program_wf h cells
    | erase lo hi => exact Memory.erase_wf h lo hi

theorem tick_mem_wf {d : RefDevice} (h : d.mem.wf) : d.tick.mem.wf := by
  unfold tick
  split
  · split
    · exact complete_mem_wf h
    · exact h
  · exact h

theorem exchange_mem_wf {d : RefDevice} (h : d.mem.wf) (o : Opcodes) (out : Byte) :
    (d.exchange o out).2.mem.wf := by
  simp only [exchange]
  split
  · exact tick_mem_wf h
  · exact h

/-- What `DESEL` can leave on a line: the device with its array, its size and its identification as they were, or an
oracle (assumption 11). -/
theorem atDeselect_cases (o : Opcodes) (d : RefDevice) :
    d.atDeselect o = .oracle ∨
    ∃ d', d.atDeselect o = .device d' ∧ d'.mem = d.mem ∧ d'.size = d.size ∧ d'.id = d.id := by
  unfold atDeselect
  split
  · exact .inr ⟨_, rfl, rfl, rfl, rfl⟩
  · dsimp only
    split_ifs <;> first | exact .inl rfl | exact .inr ⟨_, rfl, by simp, by simp, by simp⟩

/-- R67: the premise as the rule states it. -/
theorem covers_iff (d : RefDevice) (a n : Word) :
    d.covers a n = true ↔ a.toNat < 2 ^ 24 ∧ a.toNat + n.toNat ≤ d.size ∧ d.size ≤ 2 ^ 24 := by
  simp [covers, and_assoc]

/-- R265: a reference device in its initial state is well formed. -/
theorem initial_wf {size : Nat} {mem : Memory} (hm : mem.wf) (hc : ∀ c ∈ mem, c.1 < size) (h0 : 0 < size)
    (h24 : size ≤ 2 ^ 24) (id : Vector Byte 20) (n : Nat) : (initial size id n mem).wf :=
  ⟨hm, hc, h0, h24, rfl, rfl, rfl, rfl⟩

/-- R322, U8: what a cut frame can leave on a line: an oracle, or the device with its size, its identification and a
canonical array. -/
theorem cutShort_cases (d : RefDevice) (w : Instr) (free : Nat) :
    (d.cutShort w free).1 = .oracle ∨
    ∃ d', (d.cutShort w free).1 = .device d' ∧ d'.size = d.size ∧ d'.id = d.id ∧ (d.mem.wf → d'.mem.wf) := by
  unfold cutShort
  dsimp only
  split
  · exact .inr ⟨_, rfl, rfl, rfl, fun h => h⟩
  · split
    · exact .inr ⟨_, rfl, rfl, rfl, fun h => h⟩
    · split
      · exact .inr ⟨_, rfl, rfl, rfl, fun h => h⟩
      · split
        · exact .inr ⟨_, rfl, rfl, rfl, fun h => h⟩
        · split
          · exact .inr ⟨_, rfl, rfl, rfl, fun h => Memory.scramble_wf h _ _ _⟩
          · exact .inl rfl

end RefDevice

/-! ### What the environment's operations keep -/

namespace Env

/-- The environment right after reset lists nothing. -/
theorem reset_env_wf : State.reset.env.wf := ⟨.nil, nofun⟩

theorem select_wf {e : Env} (h : e.wf) (c : Byte) : (e.select c).wf := by
  unfold select
  split
  · exact h
  · exact h
  · rename_i d hd
    exact setLine_wf h c (.inr (lineOk_device.mpr (show d.mem.wf from device_mem_wf h hd)))

theorem exchange_wf {e : Env} (h : e.wf) (o : Opcodes) (c out : Byte) : (e.exchange o c out).2.wf := by
  unfold exchange
  split
  · unfold oracleByte; split <;> exact h
  · exact h
  · rename_i d hd
    exact setLine_wf h c
      (.inr (lineOk_device.mpr (RefDevice.exchange_mem_wf (device_mem_wf h hd) o out)))

theorem deselect_wf {e : Env} (h : e.wf) (o : Opcodes) (c : Byte) : (e.deselect o c).wf := by
  unfold deselect
  split
  · exact h
  · exact h
  · rename_i d hd
    rcases RefDevice.atDeselect_cases o d with hl | ⟨d', hl, hm, _⟩
    · exact setLine_wf h c (.inl hl)
    · refine setLine_wf h c (.inr ?_)
      rw [hl]
      exact lineOk_device.mpr (hm ▸ device_mem_wf h hd)

theorem cut_wf {e : Env} (h : e.wf) (w : Instr) (c : Byte) : (e.cut w c).wf := by
  unfold cut
  split
  · exact h
  · exact h
  · rename_i d hd
    refine setLine_wf h c ?_
    rcases RefDevice.cutShort_cases d w e.freeIn with hl | ⟨d', hl, _, _, hm⟩
    · exact .inl hl
    · exact .inr (hl ▸ lineOk_device.mpr (hm (device_mem_wf h hd)))

theorem cut_other {e : Env} (h : e.wf) (w : Instr) {c d : Byte} (hd : d ≠ c) :
    (e.cut w c).lineAt d = e.lineAt d := by
  unfold cut
  split
  · rfl
  · rfl
  · exact (lineAt_setLine h c _ d).trans (if_neg hd)

/-- What a claimed range leaves of its line (R67, assumption 30): everything, or an oracle where a device does not cover it. -/
theorem claim_cases (e : Env) (c : Byte) (addr len : Word) :
    (e.claim c addr len = e ∧ ∀ d, e.lineAt c = .device d → d.covers addr len = true) ∨
    ∃ d, e.lineAt c = .device d ∧ d.covers addr len = false ∧ e.claim c addr len = e.setLine c .oracle := by
  unfold claim
  split
  · exact .inl ⟨rfl, by simp_all⟩
  · exact .inl ⟨rfl, by simp_all⟩
  · rename_i d hd
    by_cases h : d.covers addr len = true
    · exact .inl ⟨if_pos h, by simp_all⟩
    · exact .inr ⟨d, hd, by simpa using h, if_neg h⟩

theorem claim_wf {e : Env} (h : e.wf) (c : Byte) (addr len : Word) : (e.claim c addr len).wf := by
  rcases claim_cases e c addr len with ⟨h', _⟩ | ⟨_, _, _, h'⟩ <;> rw [h']
  exacts [h, setLine_wf h c (.inl rfl)]

theorem claim_other {e : Env} (h : e.wf) {c d : Byte} (addr len : Word) (hd : d ≠ c) :
    (e.claim c addr len).lineAt d = e.lineAt d := by
  rcases claim_cases e c addr len with ⟨h', _⟩ | ⟨_, _, _, h'⟩ <;> rw [h']
  exact (lineAt_setLine h c _ d).trans (if_neg hd)

/-- After a claim a device on the line covers the range. -/
theorem claim_covers {e : Env} (h : e.wf) {c : Byte} {addr len : Word} {d : RefDevice}
    (hd : (e.claim c addr len).lineAt c = .device d) : d.covers addr len = true := by
  rcases claim_cases e c addr len with ⟨h', hc⟩ | ⟨_, _, _, h'⟩ <;> rw [h'] at hd
  · exact hc d hd
  · rw [lineAt_setLine h, if_pos rfl] at hd
    cases hd

/-- The line of a cut frame. -/
theorem cut_self {e : Env} (h : e.wf) (w : Instr) {c : Byte} {d : RefDevice} (hd : e.lineAt c = .device d) :
    (e.cut w c).lineAt c = (d.cutShort w e.freeIn).1 := by
  unfold cut
  split
  · simp_all
  · simp_all
  · rename_i d' hd'
    obtain rfl : d' = d := by simpa using hd'.symm.trans hd
    exact (lineAt_setLine h c _ c).trans (if_pos rfl)

theorem unknown_wf : unknown.wf := ⟨.nil, fun _ h => by cases h⟩

theorem lineAt_withLine (c : Byte) (l : Line) (d : Byte) :
    (withLine c l).lineAt d = if d = c then l else .oracle :=
  lineAt_setLine unknown_wf c l d

theorem withLine_wf (c : Byte) {l : Line} (h : l = .oracle ∨ lineOk l = true) : (withLine c l).wf :=
  setLine_wf unknown_wf c h

theorem select_other {e : Env} (h : e.wf) {c d : Byte} (hd : d ≠ c) : (e.select c).lineAt d = e.lineAt d := by
  unfold select
  split
  · rfl
  · rfl
  · rw [lineAt_setLine h, if_neg hd]

theorem exchange_other {e : Env} (h : e.wf) (o : Opcodes) {c d : Byte} (out : Byte) (hd : d ≠ c) :
    (e.exchange o c out).2.lineAt d = e.lineAt d := by
  unfold exchange
  split
  · unfold oracleByte; split <;> rfl
  · rfl
  · rw [lineAt_setLine h, if_neg hd]

theorem deselect_other {e : Env} (h : e.wf) (o : Opcodes) {c d : Byte} (hd : d ≠ c) :
    (e.deselect o c).lineAt d = e.lineAt d := by
  unfold deselect
  split
  · rfl
  · rfl
  · rw [lineAt_setLine h, if_neg hd]

/-- No device is where none was, and a device keeps its size and its identification (R250, R322). -/
def KeepsDevices (e f : Env) : Prop :=
  ∀ c d', f.lineAt c = .device d' → ∃ d, e.lineAt c = .device d ∧ d'.size = d.size ∧ d'.id = d.id

theorem KeepsDevices.refl (e : Env) : KeepsDevices e e := fun _ d h => ⟨d, h, rfl, rfl⟩

theorem KeepsDevices.trans {e f g : Env} (h : KeepsDevices e f) (h' : KeepsDevices f g) : KeepsDevices e g := by
  intro c d hd
  obtain ⟨d1, h1, h2, h3⟩ := h' c d hd
  obtain ⟨d2, h4, h5, h6⟩ := h c d1 h1
  exact ⟨d2, h4, h2.trans h5, h3.trans h6⟩

/-- Putting an oracle, or the device with the same size and identification, where a device stands. -/
theorem setLine_keepsDevices {e : Env} (h : e.wf) {c : Byte} {d : RefDevice} (hd : e.lineAt c = .device d) {l : Line}
    (hl : l = .oracle ∨ ∃ d', l = .device d' ∧ d'.size = d.size ∧ d'.id = d.id) : KeepsDevices e (e.setLine c l) := by
  intro x d' hx
  rw [lineAt_setLine h] at hx
  split_ifs at hx with hc
  · subst hc
    rcases hl with rfl | ⟨d1, rfl, h1, h2⟩
    · cases hx
    · obtain rfl : d1 = d' := by simpa using hx
      exact ⟨d, hd, h1, h2⟩
  · exact ⟨d', hx, rfl, rfl⟩

theorem select_keepsDevices {e : Env} (h : e.wf) (c : Byte) : KeepsDevices e (e.select c) := by
  unfold select
  split
  · exact .refl e
  · exact .refl e
  · rename_i d hd
    exact setLine_keepsDevices h hd (.inr ⟨_, rfl, rfl, rfl⟩)

theorem exchange_keepsDevices {e : Env} (h : e.wf) (o : Opcodes) (c out : Byte) :
    KeepsDevices e (e.exchange o c out).2 := by
  unfold exchange
  split
  · unfold oracleByte; split <;> exact fun _ d h => ⟨d, h, rfl, rfl⟩
  · exact .refl e
  · rename_i d hd
    exact setLine_keepsDevices h hd (.inr ⟨_, rfl, by simp, by simp⟩)

theorem deselect_keepsDevices {e : Env} (h : e.wf) (o : Opcodes) (c : Byte) : KeepsDevices e (e.deselect o c) := by
  unfold deselect
  split
  · exact .refl e
  · exact .refl e
  · rename_i d hd
    refine setLine_keepsDevices h hd ?_
    rcases RefDevice.atDeselect_cases o d with hl | ⟨d', hl, _, h1, h2⟩
    · exact .inl hl
    · exact .inr ⟨d', hl, h1, h2⟩

theorem claim_keepsDevices {e : Env} (h : e.wf) (c : Byte) (addr len : Word) : KeepsDevices e (e.claim c addr len) := by
  rcases claim_cases e c addr len with ⟨h', _⟩ | ⟨_, hd, _, h'⟩ <;> rw [h']
  exacts [.refl e, setLine_keepsDevices h hd (.inl rfl)]

theorem cut_keepsDevices {e : Env} (h : e.wf) (w : Instr) (c : Byte) : KeepsDevices e (e.cut w c) := by
  unfold cut
  split
  · exact .refl e
  · exact .refl e
  · rename_i d hd
    refine setLine_keepsDevices h hd ?_
    rcases RefDevice.cutShort_cases d w e.freeIn with hl | ⟨d', hl, h1, h2, _⟩
    · exact .inl hl
    · exact .inr ⟨d', hl, h1, h2⟩

end Env

end Sys2Proof.Machine
end

