-- ==== Sys2Proof/Laws/Frame.lean ====
section
/-! SUPPORT. Laws of the frame bracket and of the command primitives: everything a frame can do, said once. -/

namespace Sys2Proof.Machine

/-- The bytes the environment answers to a run of exchanges on one line, and the environment after it. -/
def Env.transfers (o : Opcodes) (c : Byte) : List Byte → Env → List Byte × Env
  | [], e => ([], e)
  | b :: bs, e =>
    let r := e.exchange o c b
    let rs := Env.transfers o c bs r.2
    (r.1 :: rs.1, rs.2)

/-- The bytes answered during a whole frame (R131). -/
def Env.frameInput (o : Opcodes) (c : Byte) (bs : List Byte) (e : Env) : List Byte :=
  (Env.transfers o c bs (e.select c)).1

/-- The environment after a whole frame (R131). -/
def Env.frameAfter (o : Opcodes) (c : Byte) (bs : List Byte) (e : Env) : Env :=
  (Env.transfers o c bs (e.select c)).2.deselect o c

/-- The events of a run of exchanges, given the bytes shifted in. -/
def exchangesEvents : List Exchange → List Byte → List BusEvent
  | [], _ => []
  | _ :: _, [] => []
  | x :: xs, i :: is => exchangeEvents x i ++ exchangesEvents xs is

/-- The events of a whole frame. -/
def frameEvents (c : Byte) (xs : List Exchange) (is : List Byte) : List BusEvent :=
  .sel c :: (exchangesEvents xs is ++ [.desel c])

theorem Env.transfers_length (o : Opcodes) (c : Byte) (bs : List Byte) (e : Env) :
    (Env.transfers o c bs e).1.length = bs.length := by
  induction bs generalizing e with
  | nil => rfl
  | cons b bs ih => simp [Env.transfers, ih]

@[simp] theorem Env.frameInput_length (o : Opcodes) (c : Byte) (bs : List Byte) (e : Env) :
    (Env.frameInput o c bs e).length = bs.length := Env.transfers_length o c bs _

theorem Env.transfers_wf {e : Env} (h : e.wf) (o : Opcodes) (c : Byte) (bs : List Byte) :
    (Env.transfers o c bs e).2.wf := by
  induction bs generalizing e with
  | nil => exact h
  | cons b bs ih => exact ih (Env.exchange_wf h o c b)

theorem Env.frameAfter_wf {e : Env} (h : e.wf) (o : Opcodes) (c : Byte) (bs : List Byte) :
    (Env.frameAfter o c bs e).wf :=
  Env.deselect_wf (Env.transfers_wf (Env.select_wf h c) o c bs) o c

theorem Env.transfers_other {e : Env} (h : e.wf) (o : Opcodes) {c d : Byte} (hd : d ≠ c) (bs : List Byte) :
    (Env.transfers o c bs e).2.lineAt d = e.lineAt d := by
  induction bs generalizing e with
  | nil => rfl
  | cons b bs ih =>
    exact (ih (Env.exchange_wf h o c b)).trans (Env.exchange_other h o b hd)

/-- A frame on one line leaves every other line as it was (R251). -/
theorem Env.frameAfter_other {e : Env} (h : e.wf) (o : Opcodes) {c d : Byte} (hd : d ≠ c) (bs : List Byte) :
    (Env.frameAfter o c bs e).lineAt d = e.lineAt d := by
  rw [Env.frameAfter, Env.deselect_other (Env.transfers_wf (Env.select_wf h c) o c bs) o hd,
    Env.transfers_other (Env.select_wf h c) o hd, Env.select_other h hd]

theorem Env.transfers_keepsDevices {e : Env} (h : e.wf) (o : Opcodes) (c : Byte) (bs : List Byte) :
    Env.KeepsDevices e (Env.transfers o c bs e).2 := by
  induction bs generalizing e with
  | nil => exact .refl e
  | cons b bs ih => exact (Env.exchange_keepsDevices h o c b).trans (ih (Env.exchange_wf h o c b))

/-- A frame brings no device and leaves the size and the identification of every device (R250). -/
theorem Env.frameAfter_keepsDevices {e : Env} (h : e.wf) (o : Opcodes) (c : Byte) (bs : List Byte) :
    Env.KeepsDevices e (Env.frameAfter o c bs e) :=
  ((Env.select_keepsDevices h c).trans (Env.transfers_keepsDevices (Env.select_wf h c) o c bs)).trans
    (Env.deselect_keepsDevices (Env.transfers_wf (Env.select_wf h c) o c bs) o c)

/-- Everything a run of exchanges does. -/
theorem transferAll_eq (c : Byte) (xs : List Exchange) (s : State) :
    transferAll c xs s =
      ((Env.transfers s.cfg.opc c (outs xs) s.env).1,
        { s with
          env := (Env.transfers s.cfg.opc c (outs xs) s.env).2
          trace := s.trace ++ exchangesEvents xs (Env.transfers s.cfg.opc c (outs xs) s.env).1 }) := by
  induction xs generalizing s with
  | nil => simp [transferAll, outs, Env.transfers, exchangesEvents]
  | cons x xs ih =>
    simp only [transferAll, transferByte, emit, ih]
    simp [outs, Env.transfers, exchangesEvents]

/-- Everything a frame does: the bytes shifted in are the environment's, the line ends deasserted, the events are
appended, nothing else changes. -/
theorem frame_eq (c : Byte) (xs : List Exchange) (s : State) :
    frame c xs s =
      (Env.frameInput s.cfg.opc c (outs xs) s.env,
        { s with
          csN := lineSet s.cfg.nCs s.csN c
          env := Env.frameAfter s.cfg.opc c (outs xs) s.env
          trace := s.trace ++ frameEvents c xs (Env.frameInput s.cfg.opc c (outs xs) s.env) }) := by
  simp only [frame, openFrame, select, emit, transferAll_eq, deselect, lineSet_lineClear]
  simp [Env.frameInput, Env.frameAfter, frameEvents]

/-- Everything a frame cut short before `DESEL` does (R322). -/
theorem openFrame_eq (c : Byte) (xs : List Exchange) (s : State) :
    openFrame c xs s =
      (Env.frameInput s.cfg.opc c (outs xs) s.env,
        { s with
          csN := lineClear s.cfg.nCs s.csN c
          env := (Env.transfers s.cfg.opc c (outs xs) (s.env.select c)).2
          trace := s.trace ++ (.sel c :: exchangesEvents xs (Env.frameInput s.cfg.opc c (outs xs) s.env)) }) := by
  simp only [openFrame, select, emit, transferAll_eq]
  simp [Env.frameInput]

/-! ### The primitives -/

theorem issueCommand_eq (c opc : Byte) (s : State) :
    issueCommand c opc s =
      { s with
        csN := lineSet s.cfg.nCs s.csN c
        env := Env.frameAfter s.cfg.opc c [opc] s.env
        trace := s.trace ++ frameEvents c (formatC opc) (Env.frameInput s.cfg.opc c [opc] s.env) } := by
  rw [issueCommand, frame_eq]; rfl

theorem readStatus_eq (c : Byte) (s : State) :
    readStatus c s =
      { s with
        csN := lineSet s.cfg.nCs s.csN c
        env := Env.frameAfter s.cfg.opc c [s.cfg.opc.rdsr, s.cfg.opc.dummyTx] s.env
        trace := s.trace ++ frameEvents c (formatS s.cfg.opc.rdsr s.cfg.opc.dummyTx)
          (Env.frameInput s.cfg.opc c [s.cfg.opc.rdsr, s.cfg.opc.dummyTx] s.env)
        stat := (Env.frameInput s.cfg.opc c [s.cfg.opc.rdsr, s.cfg.opc.dummyTx] s.env).getD 1 0 } := by
  rw [readStatus, frame_eq]; rfl

theorem readId_eq (c : Byte) (s : State) :
    readId c s =
      { s with
        csN := lineSet s.cfg.nCs s.csN c
        env := Env.frameAfter s.cfg.opc c (outs (formatI s.cfg.opc.rdid s.cfg.opc.dummyTx)) s.env
        trace := s.trace ++ frameEvents c (formatI s.cfg.opc.rdid s.cfg.opc.dummyTx)
          (Env.frameInput s.cfg.opc c (outs (formatI s.cfg.opc.rdid s.cfg.opc.dummyTx)) s.env)
        idbuf := Vector.ofFn (fun i : Fin 20 =>
          (Env.frameInput s.cfg.opc c (outs (formatI s.cfg.opc.rdid s.cfg.opc.dummyTx)) s.env).getD
            (i.val + 1) 0) } := by
  rw [readId, frame_eq]

theorem readData_eq (c : Byte) (a : WireAddr) (n : Nat) (s : State) :
    readData c a n s =
      { s with
        csN := lineSet s.cfg.nCs s.csN c
        env := Env.frameAfter s.cfg.opc c (outs (formatAR s.cfg.opc.read a n s.cfg.opc.dummyTx)) s.env
        trace := s.trace ++ frameEvents c (formatAR s.cfg.opc.read a n s.cfg.opc.dummyTx)
          (Env.frameInput s.cfg.opc c (outs (formatAR s.cfg.opc.read a n s.cfg.opc.dummyTx)) s.env)
        rdata := s.rdata ++
          (Env.frameInput s.cfg.opc c (outs (formatAR s.cfg.opc.read a n s.cfg.opc.dummyTx)) s.env).drop 4 } := by
  rw [readData, frame_eq]

theorem pageProgram_eq (c : Byte) (a : WireAddr) (data : List Byte) (s : State) :
    pageProgram c a data s =
      { s with
        csN := lineSet s.cfg.nCs s.csN c
        env := Env.frameAfter s.cfg.opc c (outs (formatAW s.cfg.opc.pp a data)) s.env
        trace := s.trace ++ frameEvents c (formatAW s.cfg.opc.pp a data)
          (Env.frameInput s.cfg.opc c (outs (formatAW s.cfg.opc.pp a data)) s.env) } := by
  rw [pageProgram, frame_eq]

theorem subsectorErase_eq (c : Byte) (a : WireAddr) (s : State) :
    subsectorErase c a s =
      { s with
        csN := lineSet s.cfg.nCs s.csN c
        env := Env.frameAfter s.cfg.opc c (outs (formatA s.cfg.opc.sse a)) s.env
        trace := s.trace ++ frameEvents c (formatA s.cfg.opc.sse a)
          (Env.frameInput s.cfg.opc c (outs (formatA s.cfg.opc.sse a)) s.env) } := by
  rw [subsectorErase, frame_eq]

/-! ### The bytes each format shifts out (R91) -/

@[simp] theorem outs_plainExchanges (bs : List Byte) : outs (plainExchanges bs) = bs := by
  simp [outs, plainExchanges, Function.comp_def]

@[simp] theorem outs_formatC (opc : Byte) : outs (formatC opc) = [opc] := outs_plainExchanges _

@[simp] theorem outs_formatS (opc dummy : Byte) : outs (formatS opc dummy) = [opc, dummy] := outs_plainExchanges _

@[simp] theorem outs_formatI (opc dummy : Byte) : outs (formatI opc dummy) = opc :: List.replicate 20 dummy :=
  outs_plainExchanges _

@[simp] theorem outs_formatA (opc : Byte) (a : WireAddr) : outs (formatA opc a) = opc :: addrBytes a :=
  outs_plainExchanges _

@[simp] theorem outs_formatAR (opc : Byte) (a : WireAddr) (n : Nat) (dummy : Byte) :
    outs (formatAR opc a n dummy) = opc :: (addrBytes a ++ List.replicate n dummy) := by
  have := outs_formatA opc a
  simp only [outs] at this ⊢
  simp [formatAR, this]

@[simp] theorem outs_formatAW (opc : Byte) (a : WireAddr) (data : List Byte) :
    outs (formatAW opc a data) = opc :: (addrBytes a ++ data) := by
  have := outs_formatA opc a
  simp only [outs] at this ⊢
  simp [formatAW, this, Function.comp_def]

/-! ### The events of each kind of exchange (R14, R90) -/

theorem exchangesEvents_append (xs ys : List Exchange) (is js : List Byte) (h : xs.length = is.length) :
    exchangesEvents (xs ++ ys) (is ++ js) = exchangesEvents xs is ++ exchangesEvents ys js := by
  induction xs generalizing is with
  | nil => cases is with
    | nil => rfl
    | cons i is => simp at h
  | cons x xs ih => cases is with
    | nil => simp at h
    | cons i is => simp [exchangesEvents, ih is (by simpa using h)]

theorem exchangesEvents_plain (bs is : List Byte) :
    exchangesEvents (plainExchanges bs) is = List.zipWith BusEvent.xfer bs is := by
  induction bs generalizing is with
  | nil => rfl
  | cons b bs ih =>
    cases is with
    | nil => rfl
    | cons i is =>
      have := ih is
      simp only [plainExchanges] at this
      simp [plainExchanges, exchangesEvents, exchangeEvents, this]

theorem exchangesEvents_fromHost (bs is : List Byte) :
    exchangesEvents (bs.map (Exchange.mk .fromHost)) is =
      (bs.zip is).flatMap (fun p => [BusEvent.hostIn p.1, .xfer p.1 p.2]) := by
  induction bs generalizing is with
  | nil => rfl
  | cons b bs ih =>
    cases is with
    | nil => rfl
    | cons i is => simp [exchangesEvents, exchangeEvents, ih is]

theorem exchangesEvents_toHost (b : Byte) (is : List Byte) :
    exchangesEvents (List.replicate is.length ⟨.toHost, b⟩) is =
      is.flatMap (fun i => [BusEvent.xfer b i, .hostOut i]) := by
  induction is with
  | nil => rfl
  | cons i is ih => simp [List.replicate_succ, exchangesEvents, exchangeEvents, ih]

/-! ### The host's stream -/

@[simp] theorem hostBytes_length (w : List Byte) (f k : Nat) : (hostBytes w f k).length = k := by
  induction k generalizing w f with
  | zero => rfl
  | succ k ih => cases w <;> simp [hostBytes, ih]

/-- A chunk the host presented in full is taken as presented. -/
theorem hostBytes_of_le (w : List Byte) (f k : Nat) (h : k ≤ w.length) : hostBytes w f k = w.take k := by
  induction k generalizing w f with
  | zero => simp [hostBytes]
  | succ k ih =>
    cases w with
    | nil => simp at h
    | cons b w => simp [hostBytes, ih w f (by simpa using h)]

end Sys2Proof.Machine
end

