-- ==== Sys2Proof/Laws/Primitives.lean ====
section
/-! SUPPORT. Laws of the command primitives, one lemma per field: beyond the bus a primitive changes at most the
register it fills. -/

namespace Sys2Proof.Machine

/-! ### `issueCommand` -/

@[simp] theorem issueCommand_cfg (c opc : Byte) (s : State) :
    (issueCommand c opc s).cfg = s.cfg := by rw [issueCommand_eq]
@[simp] theorem issueCommand_att (c opc : Byte) (s : State) :
    (issueCommand c opc s).att = s.att := by rw [issueCommand_eq]
@[simp] theorem issueCommand_csOe (c opc : Byte) (s : State) :
    (issueCommand c opc s).csOe = s.csOe := by rw [issueCommand_eq]
@[simp] theorem issueCommand_csN (c opc : Byte) (s : State) :
    (issueCommand c opc s).csN = lineSet s.cfg.nCs s.csN c := by rw [issueCommand_eq]
@[simp] theorem issueCommand_busInit (c opc : Byte) (s : State) :
    (issueCommand c opc s).busInit = s.busInit := by rw [issueCommand_eq]
@[simp] theorem issueCommand_busy (c opc : Byte) (s : State) :
    (issueCommand c opc s).busy = s.busy := by rw [issueCommand_eq]
@[simp] theorem issueCommand_resCode (c opc : Byte) (s : State) :
    (issueCommand c opc s).resCode = s.resCode := by rw [issueCommand_eq]
@[simp] theorem issueCommand_resHandle (c opc : Byte) (s : State) :
    (issueCommand c opc s).resHandle = s.resHandle := by rw [issueCommand_eq]
@[simp] theorem issueCommand_infoMfr (c opc : Byte) (s : State) :
    (issueCommand c opc s).infoMfr = s.infoMfr := by rw [issueCommand_eq]
@[simp] theorem issueCommand_infoDev (c opc : Byte) (s : State) :
    (issueCommand c opc s).infoDev = s.infoDev := by rw [issueCommand_eq]
@[simp] theorem issueCommand_infoSize (c opc : Byte) (s : State) :
    (issueCommand c opc s).infoSize = s.infoSize := by rw [issueCommand_eq]
@[simp] theorem issueCommand_infoDesc (c opc : Byte) (s : State) :
    (issueCommand c opc s).infoDesc = s.infoDesc := by rw [issueCommand_eq]
@[simp] theorem issueCommand_rdata (c opc : Byte) (s : State) :
    (issueCommand c opc s).rdata = s.rdata := by rw [issueCommand_eq]
@[simp] theorem issueCommand_wdata (c opc : Byte) (s : State) :
    (issueCommand c opc s).wdata = s.wdata := by rw [issueCommand_eq]
@[simp] theorem issueCommand_fsm (c opc : Byte) (s : State) :
    (issueCommand c opc s).fsm = s.fsm := by rw [issueCommand_eq]
@[simp] theorem issueCommand_op (c opc : Byte) (s : State) :
    (issueCommand c opc s).op = s.op := by rw [issueCommand_eq]
@[simp] theorem issueCommand_sel (c opc : Byte) (s : State) :
    (issueCommand c opc s).sel = s.sel := by rw [issueCommand_eq]
@[simp] theorem issueCommand_addr (c opc : Byte) (s : State) :
    (issueCommand c opc s).addr = s.addr := by rw [issueCommand_eq]
@[simp] theorem issueCommand_len (c opc : Byte) (s : State) :
    (issueCommand c opc s).len = s.len := by rw [issueCommand_eq]
@[simp] theorem issueCommand_csCur (c opc : Byte) (s : State) :
    (issueCommand c opc s).csCur = s.csCur := by rw [issueCommand_eq]
@[simp] theorem issueCommand_cur (c opc : Byte) (s : State) :
    (issueCommand c opc s).cur = s.cur := by rw [issueCommand_eq]
@[simp] theorem issueCommand_rem (c opc : Byte) (s : State) :
    (issueCommand c opc s).rem = s.rem := by rw [issueCommand_eq]
@[simp] theorem issueCommand_off (c opc : Byte) (s : State) :
    (issueCommand c opc s).off = s.off := by rw [issueCommand_eq]
@[simp] theorem issueCommand_k (c opc : Byte) (s : State) :
    (issueCommand c opc s).k = s.k := by rw [issueCommand_eq]
@[simp] theorem issueCommand_endAddr (c opc : Byte) (s : State) :
    (issueCommand c opc s).endAddr = s.endAddr := by rw [issueCommand_eq]
@[simp] theorem issueCommand_stat (c opc : Byte) (s : State) :
    (issueCommand c opc s).stat = s.stat := by rw [issueCommand_eq]
@[simp] theorem issueCommand_idbuf (c opc : Byte) (s : State) :
    (issueCommand c opc s).idbuf = s.idbuf := by rw [issueCommand_eq]
@[simp] theorem issueCommand_polls (c opc : Byte) (s : State) :
    (issueCommand c opc s).polls = s.polls := by rw [issueCommand_eq]
@[simp] theorem issueCommand_requests (c opc : Byte) (s : State) :
    (issueCommand c opc s).requests = s.requests := by rw [issueCommand_eq]
@[simp] theorem issueCommand_freeHost (c opc : Byte) (s : State) :
    (issueCommand c opc s).freeHost = s.freeHost := by rw [issueCommand_eq]
@[simp] theorem issueCommand_resetPlan (c opc : Byte) (s : State) :
    (issueCommand c opc s).resetPlan = s.resetPlan := by rw [issueCommand_eq]

theorem issueCommand_env_wf (c opc : Byte) {s : State} (h : s.env.wf) : (issueCommand c opc s).env.wf := by
  rw [issueCommand_eq]; dsimp only; exact Env.frameAfter_wf h _ _ _

theorem issueCommand_other (c opc : Byte) {s : State} (h : s.env.wf) {d : Byte} (hd : d ≠ c) :
    (issueCommand c opc s).env.lineAt d = s.env.lineAt d := by
  rw [issueCommand_eq]; dsimp only; exact Env.frameAfter_other h _ hd _

/-! ### `writeEnable` -/

@[simp] theorem writeEnable_cfg (c : Byte) (s : State) :
    (writeEnable c s).cfg = s.cfg := by rw [writeEnable, issueCommand_eq]
@[simp] theorem writeEnable_att (c : Byte) (s : State) :
    (writeEnable c s).att = s.att := by rw [writeEnable, issueCommand_eq]
@[simp] theorem writeEnable_csOe (c : Byte) (s : State) :
    (writeEnable c s).csOe = s.csOe := by rw [writeEnable, issueCommand_eq]
@[simp] theorem writeEnable_csN (c : Byte) (s : State) :
    (writeEnable c s).csN = lineSet s.cfg.nCs s.csN c := by rw [writeEnable, issueCommand_eq]
@[simp] theorem writeEnable_busInit (c : Byte) (s : State) :
    (writeEnable c s).busInit = s.busInit := by rw [writeEnable, issueCommand_eq]
@[simp] theorem writeEnable_busy (c : Byte) (s : State) :
    (writeEnable c s).busy = s.busy := by rw [writeEnable, issueCommand_eq]
@[simp] theorem writeEnable_resCode (c : Byte) (s : State) :
    (writeEnable c s).resCode = s.resCode := by rw [writeEnable, issueCommand_eq]
@[simp] theorem writeEnable_resHandle (c : Byte) (s : State) :
    (writeEnable c s).resHandle = s.resHandle := by rw [writeEnable, issueCommand_eq]
@[simp] theorem writeEnable_infoMfr (c : Byte) (s : State) :
    (writeEnable c s).infoMfr = s.infoMfr := by rw [writeEnable, issueCommand_eq]
@[simp] theorem writeEnable_infoDev (c : Byte) (s : State) :
    (writeEnable c s).infoDev = s.infoDev := by rw [writeEnable, issueCommand_eq]
@[simp] theorem writeEnable_infoSize (c : Byte) (s : State) :
    (writeEnable c s).infoSize = s.infoSize := by rw [writeEnable, issueCommand_eq]
@[simp] theorem writeEnable_infoDesc (c : Byte) (s : State) :
    (writeEnable c s).infoDesc = s.infoDesc := by rw [writeEnable, issueCommand_eq]
@[simp] theorem writeEnable_rdata (c : Byte) (s : State) :
    (writeEnable c s).rdata = s.rdata := by rw [writeEnable, issueCommand_eq]
@[simp] theorem writeEnable_wdata (c : Byte) (s : State) :
    (writeEnable c s).wdata = s.wdata := by rw [writeEnable, issueCommand_eq]
@[simp] theorem writeEnable_fsm (c : Byte) (s : State) :
    (writeEnable c s).fsm = s.fsm := by rw [writeEnable, issueCommand_eq]
@[simp] theorem writeEnable_op (c : Byte) (s : State) :
    (writeEnable c s).op = s.op := by rw [writeEnable, issueCommand_eq]
@[simp] theorem writeEnable_sel (c : Byte) (s : State) :
    (writeEnable c s).sel = s.sel := by rw [writeEnable, issueCommand_eq]
@[simp] theorem writeEnable_addr (c : Byte) (s : State) :
    (writeEnable c s).addr = s.addr := by rw [writeEnable, issueCommand_eq]
@[simp] theorem writeEnable_len (c : Byte) (s : State) :
    (writeEnable c s).len = s.len := by rw [writeEnable, issueCommand_eq]
@[simp] theorem writeEnable_csCur (c : Byte) (s : State) :
    (writeEnable c s).csCur = s.csCur := by rw [writeEnable, issueCommand_eq]
@[simp] theorem writeEnable_cur (c : Byte) (s : State) :
    (writeEnable c s).cur = s.cur := by rw [writeEnable, issueCommand_eq]
@[simp] theorem writeEnable_rem (c : Byte) (s : State) :
    (writeEnable c s).rem = s.rem := by rw [writeEnable, issueCommand_eq]
@[simp] theorem writeEnable_off (c : Byte) (s : State) :
    (writeEnable c s).off = s.off := by rw [writeEnable, issueCommand_eq]
@[simp] theorem writeEnable_k (c : Byte) (s : State) :
    (writeEnable c s).k = s.k := by rw [writeEnable, issueCommand_eq]
@[simp] theorem writeEnable_endAddr (c : Byte) (s : State) :
    (writeEnable c s).endAddr = s.endAddr := by rw [writeEnable, issueCommand_eq]
@[simp] theorem writeEnable_stat (c : Byte) (s : State) :
    (writeEnable c s).stat = s.stat := by rw [writeEnable, issueCommand_eq]
@[simp] theorem writeEnable_idbuf (c : Byte) (s : State) :
    (writeEnable c s).idbuf = s.idbuf := by rw [writeEnable, issueCommand_eq]
@[simp] theorem writeEnable_polls (c : Byte) (s : State) :
    (writeEnable c s).polls = s.polls := by rw [writeEnable, issueCommand_eq]
@[simp] theorem writeEnable_requests (c : Byte) (s : State) :
    (writeEnable c s).requests = s.requests := by rw [writeEnable, issueCommand_eq]
@[simp] theorem writeEnable_freeHost (c : Byte) (s : State) :
    (writeEnable c s).freeHost = s.freeHost := by rw [writeEnable, issueCommand_eq]
@[simp] theorem writeEnable_resetPlan (c : Byte) (s : State) :
    (writeEnable c s).resetPlan = s.resetPlan := by rw [writeEnable, issueCommand_eq]

theorem writeEnable_env_wf (c : Byte) {s : State} (h : s.env.wf) : (writeEnable c s).env.wf := by
  rw [writeEnable, issueCommand_eq]; dsimp only; exact Env.frameAfter_wf h _ _ _

theorem writeEnable_other (c : Byte) {s : State} (h : s.env.wf) {d : Byte} (hd : d ≠ c) :
    (writeEnable c s).env.lineAt d = s.env.lineAt d := by
  rw [writeEnable, issueCommand_eq]; dsimp only; exact Env.frameAfter_other h _ hd _

/-! ### `writeDisable` -/

@[simp] theorem writeDisable_cfg (c : Byte) (s : State) :
    (writeDisable c s).cfg = s.cfg := by rw [writeDisable, issueCommand_eq]
@[simp] theorem writeDisable_att (c : Byte) (s : State) :
    (writeDisable c s).att = s.att := by rw [writeDisable, issueCommand_eq]
@[simp] theorem writeDisable_csOe (c : Byte) (s : State) :
    (writeDisable c s).csOe = s.csOe := by rw [writeDisable, issueCommand_eq]
@[simp] theorem writeDisable_csN (c : Byte) (s : State) :
    (writeDisable c s).csN = lineSet s.cfg.nCs s.csN c := by rw [writeDisable, issueCommand_eq]
@[simp] theorem writeDisable_busInit (c : Byte) (s : State) :
    (writeDisable c s).busInit = s.busInit := by rw [writeDisable, issueCommand_eq]
@[simp] theorem writeDisable_busy (c : Byte) (s : State) :
    (writeDisable c s).busy = s.busy := by rw [writeDisable, issueCommand_eq]
@[simp] theorem writeDisable_resCode (c : Byte) (s : State) :
    (writeDisable c s).resCode = s.resCode := by rw [writeDisable, issueCommand_eq]
@[simp] theorem writeDisable_resHandle (c : Byte) (s : State) :
    (writeDisable c s).resHandle = s.resHandle := by rw [writeDisable, issueCommand_eq]
@[simp] theorem writeDisable_infoMfr (c : Byte) (s : State) :
    (writeDisable c s).infoMfr = s.infoMfr := by rw [writeDisable, issueCommand_eq]
@[simp] theorem writeDisable_infoDev (c : Byte) (s : State) :
    (writeDisable c s).infoDev = s.infoDev := by rw [writeDisable, issueCommand_eq]
@[simp] theorem writeDisable_infoSize (c : Byte) (s : State) :
    (writeDisable c s).infoSize = s.infoSize := by rw [writeDisable, issueCommand_eq]
@[simp] theorem writeDisable_infoDesc (c : Byte) (s : State) :
    (writeDisable c s).infoDesc = s.infoDesc := by rw [writeDisable, issueCommand_eq]
@[simp] theorem writeDisable_rdata (c : Byte) (s : State) :
    (writeDisable c s).rdata = s.rdata := by rw [writeDisable, issueCommand_eq]
@[simp] theorem writeDisable_wdata (c : Byte) (s : State) :
    (writeDisable c s).wdata = s.wdata := by rw [writeDisable, issueCommand_eq]
@[simp] theorem writeDisable_fsm (c : Byte) (s : State) :
    (writeDisable c s).fsm = s.fsm := by rw [writeDisable, issueCommand_eq]
@[simp] theorem writeDisable_op (c : Byte) (s : State) :
    (writeDisable c s).op = s.op := by rw [writeDisable, issueCommand_eq]
@[simp] theorem writeDisable_sel (c : Byte) (s : State) :
    (writeDisable c s).sel = s.sel := by rw [writeDisable, issueCommand_eq]
@[simp] theorem writeDisable_addr (c : Byte) (s : State) :
    (writeDisable c s).addr = s.addr := by rw [writeDisable, issueCommand_eq]
@[simp] theorem writeDisable_len (c : Byte) (s : State) :
    (writeDisable c s).len = s.len := by rw [writeDisable, issueCommand_eq]
@[simp] theorem writeDisable_csCur (c : Byte) (s : State) :
    (writeDisable c s).csCur = s.csCur := by rw [writeDisable, issueCommand_eq]
@[simp] theorem writeDisable_cur (c : Byte) (s : State) :
    (writeDisable c s).cur = s.cur := by rw [writeDisable, issueCommand_eq]
@[simp] theorem writeDisable_rem (c : Byte) (s : State) :
    (writeDisable c s).rem = s.rem := by rw [writeDisable, issueCommand_eq]
@[simp] theorem writeDisable_off (c : Byte) (s : State) :
    (writeDisable c s).off = s.off := by rw [writeDisable, issueCommand_eq]
@[simp] theorem writeDisable_k (c : Byte) (s : State) :
    (writeDisable c s).k = s.k := by rw [writeDisable, issueCommand_eq]
@[simp] theorem writeDisable_endAddr (c : Byte) (s : State) :
    (writeDisable c s).endAddr = s.endAddr := by rw [writeDisable, issueCommand_eq]
@[simp] theorem writeDisable_stat (c : Byte) (s : State) :
    (writeDisable c s).stat = s.stat := by rw [writeDisable, issueCommand_eq]
@[simp] theorem writeDisable_idbuf (c : Byte) (s : State) :
    (writeDisable c s).idbuf = s.idbuf := by rw [writeDisable, issueCommand_eq]
@[simp] theorem writeDisable_polls (c : Byte) (s : State) :
    (writeDisable c s).polls = s.polls := by rw [writeDisable, issueCommand_eq]
@[simp] theorem writeDisable_requests (c : Byte) (s : State) :
    (writeDisable c s).requests = s.requests := by rw [writeDisable, issueCommand_eq]
@[simp] theorem writeDisable_freeHost (c : Byte) (s : State) :
    (writeDisable c s).freeHost = s.freeHost := by rw [writeDisable, issueCommand_eq]
@[simp] theorem writeDisable_resetPlan (c : Byte) (s : State) :
    (writeDisable c s).resetPlan = s.resetPlan := by rw [writeDisable, issueCommand_eq]

theorem writeDisable_env_wf (c : Byte) {s : State} (h : s.env.wf) : (writeDisable c s).env.wf := by
  rw [writeDisable, issueCommand_eq]; dsimp only; exact Env.frameAfter_wf h _ _ _

theorem writeDisable_other (c : Byte) {s : State} (h : s.env.wf) {d : Byte} (hd : d ≠ c) :
    (writeDisable c s).env.lineAt d = s.env.lineAt d := by
  rw [writeDisable, issueCommand_eq]; dsimp only; exact Env.frameAfter_other h _ hd _

/-! ### `bulkErase` -/

@[simp] theorem bulkErase_cfg (c : Byte) (s : State) :
    (bulkErase c s).cfg = s.cfg := by rw [bulkErase, issueCommand_eq]
@[simp] theorem bulkErase_att (c : Byte) (s : State) :
    (bulkErase c s).att = s.att := by rw [bulkErase, issueCommand_eq]
@[simp] theorem bulkErase_csOe (c : Byte) (s : State) :
    (bulkErase c s).csOe = s.csOe := by rw [bulkErase, issueCommand_eq]
@[simp] theorem bulkErase_csN (c : Byte) (s : State) :
    (bulkErase c s).csN = lineSet s.cfg.nCs s.csN c := by rw [bulkErase, issueCommand_eq]
@[simp] theorem bulkErase_busInit (c : Byte) (s : State) :
    (bulkErase c s).busInit = s.busInit := by rw [bulkErase, issueCommand_eq]
@[simp] theorem bulkErase_busy (c : Byte) (s : State) :
    (bulkErase c s).busy = s.busy := by rw [bulkErase, issueCommand_eq]
@[simp] theorem bulkErase_resCode (c : Byte) (s : State) :
    (bulkErase c s).resCode = s.resCode := by rw [bulkErase, issueCommand_eq]
@[simp] theorem bulkErase_resHandle (c : Byte) (s : State) :
    (bulkErase c s).resHandle = s.resHandle := by rw [bulkErase, issueCommand_eq]
@[simp] theorem bulkErase_infoMfr (c : Byte) (s : State) :
    (bulkErase c s).infoMfr = s.infoMfr := by rw [bulkErase, issueCommand_eq]
@[simp] theorem bulkErase_infoDev (c : Byte) (s : State) :
    (bulkErase c s).infoDev = s.infoDev := by rw [bulkErase, issueCommand_eq]
@[simp] theorem bulkErase_infoSize (c : Byte) (s : State) :
    (bulkErase c s).infoSize = s.infoSize := by rw [bulkErase, issueCommand_eq]
@[simp] theorem bulkErase_infoDesc (c : Byte) (s : State) :
    (bulkErase c s).infoDesc = s.infoDesc := by rw [bulkErase, issueCommand_eq]
@[simp] theorem bulkErase_rdata (c : Byte) (s : State) :
    (bulkErase c s).rdata = s.rdata := by rw [bulkErase, issueCommand_eq]
@[simp] theorem bulkErase_wdata (c : Byte) (s : State) :
    (bulkErase c s).wdata = s.wdata := by rw [bulkErase, issueCommand_eq]
@[simp] theorem bulkErase_fsm (c : Byte) (s : State) :
    (bulkErase c s).fsm = s.fsm := by rw [bulkErase, issueCommand_eq]
@[simp] theorem bulkErase_op (c : Byte) (s : State) :
    (bulkErase c s).op = s.op := by rw [bulkErase, issueCommand_eq]
@[simp] theorem bulkErase_sel (c : Byte) (s : State) :
    (bulkErase c s).sel = s.sel := by rw [bulkErase, issueCommand_eq]
@[simp] theorem bulkErase_addr (c : Byte) (s : State) :
    (bulkErase c s).addr = s.addr := by rw [bulkErase, issueCommand_eq]
@[simp] theorem bulkErase_len (c : Byte) (s : State) :
    (bulkErase c s).len = s.len := by rw [bulkErase, issueCommand_eq]
@[simp] theorem bulkErase_csCur (c : Byte) (s : State) :
    (bulkErase c s).csCur = s.csCur := by rw [bulkErase, issueCommand_eq]
@[simp] theorem bulkErase_cur (c : Byte) (s : State) :
    (bulkErase c s).cur = s.cur := by rw [bulkErase, issueCommand_eq]
@[simp] theorem bulkErase_rem (c : Byte) (s : State) :
    (bulkErase c s).rem = s.rem := by rw [bulkErase, issueCommand_eq]
@[simp] theorem bulkErase_off (c : Byte) (s : State) :
    (bulkErase c s).off = s.off := by rw [bulkErase, issueCommand_eq]
@[simp] theorem bulkErase_k (c : Byte) (s : State) :
    (bulkErase c s).k = s.k := by rw [bulkErase, issueCommand_eq]
@[simp] theorem bulkErase_endAddr (c : Byte) (s : State) :
    (bulkErase c s).endAddr = s.endAddr := by rw [bulkErase, issueCommand_eq]
@[simp] theorem bulkErase_stat (c : Byte) (s : State) :
    (bulkErase c s).stat = s.stat := by rw [bulkErase, issueCommand_eq]
@[simp] theorem bulkErase_idbuf (c : Byte) (s : State) :
    (bulkErase c s).idbuf = s.idbuf := by rw [bulkErase, issueCommand_eq]
@[simp] theorem bulkErase_polls (c : Byte) (s : State) :
    (bulkErase c s).polls = s.polls := by rw [bulkErase, issueCommand_eq]
@[simp] theorem bulkErase_requests (c : Byte) (s : State) :
    (bulkErase c s).requests = s.requests := by rw [bulkErase, issueCommand_eq]
@[simp] theorem bulkErase_freeHost (c : Byte) (s : State) :
    (bulkErase c s).freeHost = s.freeHost := by rw [bulkErase, issueCommand_eq]
@[simp] theorem bulkErase_resetPlan (c : Byte) (s : State) :
    (bulkErase c s).resetPlan = s.resetPlan := by rw [bulkErase, issueCommand_eq]

theorem bulkErase_env_wf (c : Byte) {s : State} (h : s.env.wf) : (bulkErase c s).env.wf := by
  rw [bulkErase, issueCommand_eq]; dsimp only; exact Env.frameAfter_wf h _ _ _

theorem bulkErase_other (c : Byte) {s : State} (h : s.env.wf) {d : Byte} (hd : d ≠ c) :
    (bulkErase c s).env.lineAt d = s.env.lineAt d := by
  rw [bulkErase, issueCommand_eq]; dsimp only; exact Env.frameAfter_other h _ hd _

/-! ### `subsectorErase` -/

@[simp] theorem subsectorErase_cfg (c : Byte) (a : WireAddr) (s : State) :
    (subsectorErase c a s).cfg = s.cfg := by rw [subsectorErase_eq]
@[simp] theorem subsectorErase_att (c : Byte) (a : WireAddr) (s : State) :
    (subsectorErase c a s).att = s.att := by rw [subsectorErase_eq]
@[simp] theorem subsectorErase_csOe (c : Byte) (a : WireAddr) (s : State) :
    (subsectorErase c a s).csOe = s.csOe := by rw [subsectorErase_eq]
@[simp] theorem subsectorErase_csN (c : Byte) (a : WireAddr) (s : State) :
    (subsectorErase c a s).csN = lineSet s.cfg.nCs s.csN c := by rw [subsectorErase_eq]
@[simp] theorem subsectorErase_busInit (c : Byte) (a : WireAddr) (s : State) :
    (subsectorErase c a s).busInit = s.busInit := by rw [subsectorErase_eq]
@[simp] theorem subsectorErase_busy (c : Byte) (a : WireAddr) (s : State) :
    (subsectorErase c a s).busy = s.busy := by rw [subsectorErase_eq]
@[simp] theorem subsectorErase_resCode (c : Byte) (a : WireAddr) (s : State) :
    (subsectorErase c a s).resCode = s.resCode := by rw [subsectorErase_eq]
@[simp] theorem subsectorErase_resHandle (c : Byte) (a : WireAddr) (s : State) :
    (subsectorErase c a s).resHandle = s.resHandle := by rw [subsectorErase_eq]
@[simp] theorem subsectorErase_infoMfr (c : Byte) (a : WireAddr) (s : State) :
    (subsectorErase c a s).infoMfr = s.infoMfr := by rw [subsectorErase_eq]
@[simp] theorem subsectorErase_infoDev (c : Byte) (a : WireAddr) (s : State) :
    (subsectorErase c a s).infoDev = s.infoDev := by rw [subsectorErase_eq]
@[simp] theorem subsectorErase_infoSize (c : Byte) (a : WireAddr) (s : State) :
    (subsectorErase c a s).infoSize = s.infoSize := by rw [subsectorErase_eq]
@[simp] theorem subsectorErase_infoDesc (c : Byte) (a : WireAddr) (s : State) :
    (subsectorErase c a s).infoDesc = s.infoDesc := by rw [subsectorErase_eq]
@[simp] theorem subsectorErase_rdata (c : Byte) (a : WireAddr) (s : State) :
    (subsectorErase c a s).rdata = s.rdata := by rw [subsectorErase_eq]
@[simp] theorem subsectorErase_wdata (c : Byte) (a : WireAddr) (s : State) :
    (subsectorErase c a s).wdata = s.wdata := by rw [subsectorErase_eq]
@[simp] theorem subsectorErase_fsm (c : Byte) (a : WireAddr) (s : State) :
    (subsectorErase c a s).fsm = s.fsm := by rw [subsectorErase_eq]
@[simp] theorem subsectorErase_op (c : Byte) (a : WireAddr) (s : State) :
    (subsectorErase c a s).op = s.op := by rw [subsectorErase_eq]
@[simp] theorem subsectorErase_sel (c : Byte) (a : WireAddr) (s : State) :
    (subsectorErase c a s).sel = s.sel := by rw [subsectorErase_eq]
@[simp] theorem subsectorErase_addr (c : Byte) (a : WireAddr) (s : State) :
    (subsectorErase c a s).addr = s.addr := by rw [subsectorErase_eq]
@[simp] theorem subsectorErase_len (c : Byte) (a : WireAddr) (s : State) :
    (subsectorErase c a s).len = s.len := by rw [subsectorErase_eq]
@[simp] theorem subsectorErase_csCur (c : Byte) (a : WireAddr) (s : State) :
    (subsectorErase c a s).csCur = s.csCur := by rw [subsectorErase_eq]
@[simp] theorem subsectorErase_cur (c : Byte) (a : WireAddr) (s : State) :
    (subsectorErase c a s).cur = s.cur := by rw [subsectorErase_eq]
@[simp] theorem subsectorErase_rem (c : Byte) (a : WireAddr) (s : State) :
    (subsectorErase c a s).rem = s.rem := by rw [subsectorErase_eq]
@[simp] theorem subsectorErase_off (c : Byte) (a : WireAddr) (s : State) :
    (subsectorErase c a s).off = s.off := by rw [subsectorErase_eq]
@[simp] theorem subsectorErase_k (c : Byte) (a : WireAddr) (s : State) :
    (subsectorErase c a s).k = s.k := by rw [subsectorErase_eq]
@[simp] theorem subsectorErase_endAddr (c : Byte) (a : WireAddr) (s : State) :
    (subsectorErase c a s).endAddr = s.endAddr := by rw [subsectorErase_eq]
@[simp] theorem subsectorErase_stat (c : Byte) (a : WireAddr) (s : State) :
    (subsectorErase c a s).stat = s.stat := by rw [subsectorErase_eq]
@[simp] theorem subsectorErase_idbuf (c : Byte) (a : WireAddr) (s : State) :
    (subsectorErase c a s).idbuf = s.idbuf := by rw [subsectorErase_eq]
@[simp] theorem subsectorErase_polls (c : Byte) (a : WireAddr) (s : State) :
    (subsectorErase c a s).polls = s.polls := by rw [subsectorErase_eq]
@[simp] theorem subsectorErase_requests (c : Byte) (a : WireAddr) (s : State) :
    (subsectorErase c a s).requests = s.requests := by rw [subsectorErase_eq]
@[simp] theorem subsectorErase_freeHost (c : Byte) (a : WireAddr) (s : State) :
    (subsectorErase c a s).freeHost = s.freeHost := by rw [subsectorErase_eq]
@[simp] theorem subsectorErase_resetPlan (c : Byte) (a : WireAddr) (s : State) :
    (subsectorErase c a s).resetPlan = s.resetPlan := by rw [subsectorErase_eq]

theorem subsectorErase_env_wf (c : Byte) (a : WireAddr) {s : State} (h : s.env.wf) : (subsectorErase c a s).env.wf := by
  rw [subsectorErase_eq]; dsimp only; exact Env.frameAfter_wf h _ _ _

theorem subsectorErase_other (c : Byte) (a : WireAddr) {s : State} (h : s.env.wf) {d : Byte} (hd : d ≠ c) :
    (subsectorErase c a s).env.lineAt d = s.env.lineAt d := by
  rw [subsectorErase_eq]; dsimp only; exact Env.frameAfter_other h _ hd _

/-! ### `pageProgram` -/

@[simp] theorem pageProgram_cfg (c : Byte) (a : WireAddr) (data : List Byte) (s : State) :
    (pageProgram c a data s).cfg = s.cfg := by rw [pageProgram_eq]
@[simp] theorem pageProgram_att (c : Byte) (a : WireAddr) (data : List Byte) (s : State) :
    (pageProgram c a data s).att = s.att := by rw [pageProgram_eq]
@[simp] theorem pageProgram_csOe (c : Byte) (a : WireAddr) (data : List Byte) (s : State) :
    (pageProgram c a data s).csOe = s.csOe := by rw [pageProgram_eq]
@[simp] theorem pageProgram_csN (c : Byte) (a : WireAddr) (data : List Byte) (s : State) :
    (pageProgram c a data s).csN = lineSet s.cfg.nCs s.csN c := by rw [pageProgram_eq]
@[simp] theorem pageProgram_busInit (c : Byte) (a : WireAddr) (data : List Byte) (s : State) :
    (pageProgram c a data s).busInit = s.busInit := by rw [pageProgram_eq]
@[simp] theorem pageProgram_busy (c : Byte) (a : WireAddr) (data : List Byte) (s : State) :
    (pageProgram c a data s).busy = s.busy := by rw [pageProgram_eq]
@[simp] theorem pageProgram_resCode (c : Byte) (a : WireAddr) (data : List Byte) (s : State) :
    (pageProgram c a data s).resCode = s.resCode := by rw [pageProgram_eq]
@[simp] theorem pageProgram_resHandle (c : Byte) (a : WireAddr) (data : List Byte) (s : State) :
    (pageProgram c a data s).resHandle = s.resHandle := by rw [pageProgram_eq]
@[simp] theorem pageProgram_infoMfr (c : Byte) (a : WireAddr) (data : List Byte) (s : State) :
    (pageProgram c a data s).infoMfr = s.infoMfr := by rw [pageProgram_eq]
@[simp] theorem pageProgram_infoDev (c : Byte) (a : WireAddr) (data : List Byte) (s : State) :
    (pageProgram c a data s).infoDev = s.infoDev := by rw [pageProgram_eq]
@[simp] theorem pageProgram_infoSize (c : Byte) (a : WireAddr) (data : List Byte) (s : State) :
    (pageProgram c a data s).infoSize = s.infoSize := by rw [pageProgram_eq]
@[simp] theorem pageProgram_infoDesc (c : Byte) (a : WireAddr) (data : List Byte) (s : State) :
    (pageProgram c a data s).infoDesc = s.infoDesc := by rw [pageProgram_eq]
@[simp] theorem pageProgram_rdata (c : Byte) (a : WireAddr) (data : List Byte) (s : State) :
    (pageProgram c a data s).rdata = s.rdata := by rw [pageProgram_eq]
@[simp] theorem pageProgram_wdata (c : Byte) (a : WireAddr) (data : List Byte) (s : State) :
    (pageProgram c a data s).wdata = s.wdata := by rw [pageProgram_eq]
@[simp] theorem pageProgram_fsm (c : Byte) (a : WireAddr) (data : List Byte) (s : State) :
    (pageProgram c a data s).fsm = s.fsm := by rw [pageProgram_eq]
@[simp] theorem pageProgram_op (c : Byte) (a : WireAddr) (data : List Byte) (s : State) :
    (pageProgram c a data s).op = s.op := by rw [pageProgram_eq]
@[simp] theorem pageProgram_sel (c : Byte) (a : WireAddr) (data : List Byte) (s : State) :
    (pageProgram c a data s).sel = s.sel := by rw [pageProgram_eq]
@[simp] theorem pageProgram_addr (c : Byte) (a : WireAddr) (data : List Byte) (s : State) :
    (pageProgram c a data s).addr = s.addr := by rw [pageProgram_eq]
@[simp] theorem pageProgram_len (c : Byte) (a : WireAddr) (data : List Byte) (s : State) :
    (pageProgram c a data s).len = s.len := by rw [pageProgram_eq]
@[simp] theorem pageProgram_csCur (c : Byte) (a : WireAddr) (data : List Byte) (s : State) :
    (pageProgram c a data s).csCur = s.csCur := by rw [pageProgram_eq]
@[simp] theorem pageProgram_cur (c : Byte) (a : WireAddr) (data : List Byte) (s : State) :
    (pageProgram c a data s).cur = s.cur := by rw [pageProgram_eq]
@[simp] theorem pageProgram_rem (c : Byte) (a : WireAddr) (data : List Byte) (s : State) :
    (pageProgram c a data s).rem = s.rem := by rw [pageProgram_eq]
@[simp] theorem pageProgram_off (c : Byte) (a : WireAddr) (data : List Byte) (s : State) :
    (pageProgram c a data s).off = s.off := by rw [pageProgram_eq]
@[simp] theorem pageProgram_k (c : Byte) (a : WireAddr) (data : List Byte) (s : State) :
    (pageProgram c a data s).k = s.k := by rw [pageProgram_eq]
@[simp] theorem pageProgram_endAddr (c : Byte) (a : WireAddr) (data : List Byte) (s : State) :
    (pageProgram c a data s).endAddr = s.endAddr := by rw [pageProgram_eq]
@[simp] theorem pageProgram_stat (c : Byte) (a : WireAddr) (data : List Byte) (s : State) :
    (pageProgram c a data s).stat = s.stat := by rw [pageProgram_eq]
@[simp] theorem pageProgram_idbuf (c : Byte) (a : WireAddr) (data : List Byte) (s : State) :
    (pageProgram c a data s).idbuf = s.idbuf := by rw [pageProgram_eq]
@[simp] theorem pageProgram_polls (c : Byte) (a : WireAddr) (data : List Byte) (s : State) :
    (pageProgram c a data s).polls = s.polls := by rw [pageProgram_eq]
@[simp] theorem pageProgram_requests (c : Byte) (a : WireAddr) (data : List Byte) (s : State) :
    (pageProgram c a data s).requests = s.requests := by rw [pageProgram_eq]
@[simp] theorem pageProgram_freeHost (c : Byte) (a : WireAddr) (data : List Byte) (s : State) :
    (pageProgram c a data s).freeHost = s.freeHost := by rw [pageProgram_eq]
@[simp] theorem pageProgram_resetPlan (c : Byte) (a : WireAddr) (data : List Byte) (s : State) :
    (pageProgram c a data s).resetPlan = s.resetPlan := by rw [pageProgram_eq]

theorem pageProgram_env_wf (c : Byte) (a : WireAddr) (data : List Byte) {s : State} (h : s.env.wf) : (pageProgram c a data s).env.wf := by
  rw [pageProgram_eq]; dsimp only; exact Env.frameAfter_wf h _ _ _

theorem pageProgram_other (c : Byte) (a : WireAddr) (data : List Byte) {s : State} (h : s.env.wf) {d : Byte} (hd : d ≠ c) :
    (pageProgram c a data s).env.lineAt d = s.env.lineAt d := by
  rw [pageProgram_eq]; dsimp only; exact Env.frameAfter_other h _ hd _

/-! ### `readStatus` -/

@[simp] theorem readStatus_cfg (c : Byte) (s : State) :
    (readStatus c s).cfg = s.cfg := by rw [readStatus_eq]
@[simp] theorem readStatus_att (c : Byte) (s : State) :
    (readStatus c s).att = s.att := by rw [readStatus_eq]
@[simp] theorem readStatus_csOe (c : Byte) (s : State) :
    (readStatus c s).csOe = s.csOe := by rw [readStatus_eq]
@[simp] theorem readStatus_csN (c : Byte) (s : State) :
    (readStatus c s).csN = lineSet s.cfg.nCs s.csN c := by rw [readStatus_eq]
@[simp] theorem readStatus_busInit (c : Byte) (s : State) :
    (readStatus c s).busInit = s.busInit := by rw [readStatus_eq]
@[simp] theorem readStatus_busy (c : Byte) (s : State) :
    (readStatus c s).busy = s.busy := by rw [readStatus_eq]
@[simp] theorem readStatus_resCode (c : Byte) (s : State) :
    (readStatus c s).resCode = s.resCode := by rw [readStatus_eq]
@[simp] theorem readStatus_resHandle (c : Byte) (s : State) :
    (readStatus c s).resHandle = s.resHandle := by rw [readStatus_eq]
@[simp] theorem readStatus_infoMfr (c : Byte) (s : State) :
    (readStatus c s).infoMfr = s.infoMfr := by rw [readStatus_eq]
@[simp] theorem readStatus_infoDev (c : Byte) (s : State) :
    (readStatus c s).infoDev = s.infoDev := by rw [readStatus_eq]
@[simp] theorem readStatus_infoSize (c : Byte) (s : State) :
    (readStatus c s).infoSize = s.infoSize := by rw [readStatus_eq]
@[simp] theorem readStatus_infoDesc (c : Byte) (s : State) :
    (readStatus c s).infoDesc = s.infoDesc := by rw [readStatus_eq]
@[simp] theorem readStatus_rdata (c : Byte) (s : State) :
    (readStatus c s).rdata = s.rdata := by rw [readStatus_eq]
@[simp] theorem readStatus_wdata (c : Byte) (s : State) :
    (readStatus c s).wdata = s.wdata := by rw [readStatus_eq]
@[simp] theorem readStatus_fsm (c : Byte) (s : State) :
    (readStatus c s).fsm = s.fsm := by rw [readStatus_eq]
@[simp] theorem readStatus_op (c : Byte) (s : State) :
    (readStatus c s).op = s.op := by rw [readStatus_eq]
@[simp] theorem readStatus_sel (c : Byte) (s : State) :
    (readStatus c s).sel = s.sel := by rw [readStatus_eq]
@[simp] theorem readStatus_addr (c : Byte) (s : State) :
    (readStatus c s).addr = s.addr := by rw [readStatus_eq]
@[simp] theorem readStatus_len (c : Byte) (s : State) :
    (readStatus c s).len = s.len := by rw [readStatus_eq]
@[simp] theorem readStatus_csCur (c : Byte) (s : State) :
    (readStatus c s).csCur = s.csCur := by rw [readStatus_eq]
@[simp] theorem readStatus_cur (c : Byte) (s : State) :
    (readStatus c s).cur = s.cur := by rw [readStatus_eq]
@[simp] theorem readStatus_rem (c : Byte) (s : State) :
    (readStatus c s).rem = s.rem := by rw [readStatus_eq]
@[simp] theorem readStatus_off (c : Byte) (s : State) :
    (readStatus c s).off = s.off := by rw [readStatus_eq]
@[simp] theorem readStatus_k (c : Byte) (s : State) :
    (readStatus c s).k = s.k := by rw [readStatus_eq]
@[simp] theorem readStatus_endAddr (c : Byte) (s : State) :
    (readStatus c s).endAddr = s.endAddr := by rw [readStatus_eq]
@[simp] theorem readStatus_idbuf (c : Byte) (s : State) :
    (readStatus c s).idbuf = s.idbuf := by rw [readStatus_eq]
@[simp] theorem readStatus_polls (c : Byte) (s : State) :
    (readStatus c s).polls = s.polls := by rw [readStatus_eq]
@[simp] theorem readStatus_requests (c : Byte) (s : State) :
    (readStatus c s).requests = s.requests := by rw [readStatus_eq]
@[simp] theorem readStatus_freeHost (c : Byte) (s : State) :
    (readStatus c s).freeHost = s.freeHost := by rw [readStatus_eq]
@[simp] theorem readStatus_resetPlan (c : Byte) (s : State) :
    (readStatus c s).resetPlan = s.resetPlan := by rw [readStatus_eq]

theorem readStatus_env_wf (c : Byte) {s : State} (h : s.env.wf) : (readStatus c s).env.wf := by
  rw [readStatus_eq]; dsimp only; exact Env.frameAfter_wf h _ _ _

theorem readStatus_other (c : Byte) {s : State} (h : s.env.wf) {d : Byte} (hd : d ≠ c) :
    (readStatus c s).env.lineAt d = s.env.lineAt d := by
  rw [readStatus_eq]; dsimp only; exact Env.frameAfter_other h _ hd _

/-! ### `readId` -/

@[simp] theorem readId_cfg (c : Byte) (s : State) :
    (readId c s).cfg = s.cfg := by rw [readId_eq]
@[simp] theorem readId_att (c : Byte) (s : State) :
    (readId c s).att = s.att := by rw [readId_eq]
@[simp] theorem readId_csOe (c : Byte) (s : State) :
    (readId c s).csOe = s.csOe := by rw [readId_eq]
@[simp] theorem readId_csN (c : Byte) (s : State) :
    (readId c s).csN = lineSet s.cfg.nCs s.csN c := by rw [readId_eq]
@[simp] theorem readId_busInit (c : Byte) (s : State) :
    (readId c s).busInit = s.busInit := by rw [readId_eq]
@[simp] theorem readId_busy (c : Byte) (s : State) :
    (readId c s).busy = s.busy := by rw [readId_eq]
@[simp] theorem readId_resCode (c : Byte) (s : State) :
    (readId c s).resCode = s.resCode := by rw [readId_eq]
@[simp] theorem readId_resHandle (c : Byte) (s : State) :
    (readId c s).resHandle = s.resHandle := by rw [readId_eq]
@[simp] theorem readId_infoMfr (c : Byte) (s : State) :
    (readId c s).infoMfr = s.infoMfr := by rw [readId_eq]
@[simp] theorem readId_infoDev (c : Byte) (s : State) :
    (readId c s).infoDev = s.infoDev := by rw [readId_eq]
@[simp] theorem readId_infoSize (c : Byte) (s : State) :
    (readId c s).infoSize = s.infoSize := by rw [readId_eq]
@[simp] theorem readId_infoDesc (c : Byte) (s : State) :
    (readId c s).infoDesc = s.infoDesc := by rw [readId_eq]
@[simp] theorem readId_rdata (c : Byte) (s : State) :
    (readId c s).rdata = s.rdata := by rw [readId_eq]
@[simp] theorem readId_wdata (c : Byte) (s : State) :
    (readId c s).wdata = s.wdata := by rw [readId_eq]
@[simp] theorem readId_fsm (c : Byte) (s : State) :
    (readId c s).fsm = s.fsm := by rw [readId_eq]
@[simp] theorem readId_op (c : Byte) (s : State) :
    (readId c s).op = s.op := by rw [readId_eq]
@[simp] theorem readId_sel (c : Byte) (s : State) :
    (readId c s).sel = s.sel := by rw [readId_eq]
@[simp] theorem readId_addr (c : Byte) (s : State) :
    (readId c s).addr = s.addr := by rw [readId_eq]
@[simp] theorem readId_len (c : Byte) (s : State) :
    (readId c s).len = s.len := by rw [readId_eq]
@[simp] theorem readId_csCur (c : Byte) (s : State) :
    (readId c s).csCur = s.csCur := by rw [readId_eq]
@[simp] theorem readId_cur (c : Byte) (s : State) :
    (readId c s).cur = s.cur := by rw [readId_eq]
@[simp] theorem readId_rem (c : Byte) (s : State) :
    (readId c s).rem = s.rem := by rw [readId_eq]
@[simp] theorem readId_off (c : Byte) (s : State) :
    (readId c s).off = s.off := by rw [readId_eq]
@[simp] theorem readId_k (c : Byte) (s : State) :
    (readId c s).k = s.k := by rw [readId_eq]
@[simp] theorem readId_endAddr (c : Byte) (s : State) :
    (readId c s).endAddr = s.endAddr := by rw [readId_eq]
@[simp] theorem readId_stat (c : Byte) (s : State) :
    (readId c s).stat = s.stat := by rw [readId_eq]
@[simp] theorem readId_polls (c : Byte) (s : State) :
    (readId c s).polls = s.polls := by rw [readId_eq]
@[simp] theorem readId_requests (c : Byte) (s : State) :
    (readId c s).requests = s.requests := by rw [readId_eq]
@[simp] theorem readId_freeHost (c : Byte) (s : State) :
    (readId c s).freeHost = s.freeHost := by rw [readId_eq]
@[simp] theorem readId_resetPlan (c : Byte) (s : State) :
    (readId c s).resetPlan = s.resetPlan := by rw [readId_eq]

theorem readId_env_wf (c : Byte) {s : State} (h : s.env.wf) : (readId c s).env.wf := by
  rw [readId_eq]; dsimp only; exact Env.frameAfter_wf h _ _ _

theorem readId_other (c : Byte) {s : State} (h : s.env.wf) {d : Byte} (hd : d ≠ c) :
    (readId c s).env.lineAt d = s.env.lineAt d := by
  rw [readId_eq]; dsimp only; exact Env.frameAfter_other h _ hd _

/-! ### `readData` -/

@[simp] theorem readData_cfg (c : Byte) (a : WireAddr) (n : Nat) (s : State) :
    (readData c a n s).cfg = s.cfg := by rw [readData_eq]
@[simp] theorem readData_att (c : Byte) (a : WireAddr) (n : Nat) (s : State) :
    (readData c a n s).att = s.att := by rw [readData_eq]
@[simp] theorem readData_csOe (c : Byte) (a : WireAddr) (n : Nat) (s : State) :
    (readData c a n s).csOe = s.csOe := by rw [readData_eq]
@[simp] theorem readData_csN (c : Byte) (a : WireAddr) (n : Nat) (s : State) :
    (readData c a n s).csN = lineSet s.cfg.nCs s.csN c := by rw [readData_eq]
@[simp] theorem readData_busInit (c : Byte) (a : WireAddr) (n : Nat) (s : State) :
    (readData c a n s).busInit = s.busInit := by rw [readData_eq]
@[simp] theorem readData_busy (c : Byte) (a : WireAddr) (n : Nat) (s : State) :
    (readData c a n s).busy = s.busy := by rw [readData_eq]
@[simp] theorem readData_resCode (c : Byte) (a : WireAddr) (n : Nat) (s : State) :
    (readData c a n s).resCode = s.resCode := by rw [readData_eq]
@[simp] theorem readData_resHandle (c : Byte) (a : WireAddr) (n : Nat) (s : State) :
    (readData c a n s).resHandle = s.resHandle := by rw [readData_eq]
@[simp] theorem readData_infoMfr (c : Byte) (a : WireAddr) (n : Nat) (s : State) :
    (readData c a n s).infoMfr = s.infoMfr := by rw [readData_eq]
@[simp] theorem readData_infoDev (c : Byte) (a : WireAddr) (n : Nat) (s : State) :
    (readData c a n s).infoDev = s.infoDev := by rw [readData_eq]
@[simp] theorem readData_infoSize (c : Byte) (a : WireAddr) (n : Nat) (s : State) :
    (readData c a n s).infoSize = s.infoSize := by rw [readData_eq]
@[simp] theorem readData_infoDesc (c : Byte) (a : WireAddr) (n : Nat) (s : State) :
    (readData c a n s).infoDesc = s.infoDesc := by rw [readData_eq]
@[simp] theorem readData_wdata (c : Byte) (a : WireAddr) (n : Nat) (s : State) :
    (readData c a n s).wdata = s.wdata := by rw [readData_eq]
@[simp] theorem readData_fsm (c : Byte) (a : WireAddr) (n : Nat) (s : State) :
    (readData c a n s).fsm = s.fsm := by rw [readData_eq]
@[simp] theorem readData_op (c : Byte) (a : WireAddr) (n : Nat) (s : State) :
    (readData c a n s).op = s.op := by rw [readData_eq]
@[simp] theorem readData_sel (c : Byte) (a : WireAddr) (n : Nat) (s : State) :
    (readData c a n s).sel = s.sel := by rw [readData_eq]
@[simp] theorem readData_addr (c : Byte) (a : WireAddr) (n : Nat) (s : State) :
    (readData c a n s).addr = s.addr := by rw [readData_eq]
@[simp] theorem readData_len (c : Byte) (a : WireAddr) (n : Nat) (s : State) :
    (readData c a n s).len = s.len := by rw [readData_eq]
@[simp] theorem readData_csCur (c : Byte) (a : WireAddr) (n : Nat) (s : State) :
    (readData c a n s).csCur = s.csCur := by rw [readData_eq]
@[simp] theorem readData_cur (c : Byte) (a : WireAddr) (n : Nat) (s : State) :
    (readData c a n s).cur = s.cur := by rw [readData_eq]
@[simp] theorem readData_rem (c : Byte) (a : WireAddr) (n : Nat) (s : State) :
    (readData c a n s).rem = s.rem := by rw [readData_eq]
@[simp] theorem readData_off (c : Byte) (a : WireAddr) (n : Nat) (s : State) :
    (readData c a n s).off = s.off := by rw [readData_eq]
@[simp] theorem readData_k (c : Byte) (a : WireAddr) (n : Nat) (s : State) :
    (readData c a n s).k = s.k := by rw [readData_eq]
@[simp] theorem readData_endAddr (c : Byte) (a : WireAddr) (n : Nat) (s : State) :
    (readData c a n s).endAddr = s.endAddr := by rw [readData_eq]
@[simp] theorem readData_stat (c : Byte) (a : WireAddr) (n : Nat) (s : State) :
    (readData c a n s).stat = s.stat := by rw [readData_eq]
@[simp] theorem readData_idbuf (c : Byte) (a : WireAddr) (n : Nat) (s : State) :
    (readData c a n s).idbuf = s.idbuf := by rw [readData_eq]
@[simp] theorem readData_polls (c : Byte) (a : WireAddr) (n : Nat) (s : State) :
    (readData c a n s).polls = s.polls := by rw [readData_eq]
@[simp] theorem readData_requests (c : Byte) (a : WireAddr) (n : Nat) (s : State) :
    (readData c a n s).requests = s.requests := by rw [readData_eq]
@[simp] theorem readData_freeHost (c : Byte) (a : WireAddr) (n : Nat) (s : State) :
    (readData c a n s).freeHost = s.freeHost := by rw [readData_eq]
@[simp] theorem readData_resetPlan (c : Byte) (a : WireAddr) (n : Nat) (s : State) :
    (readData c a n s).resetPlan = s.resetPlan := by rw [readData_eq]

theorem readData_env_wf (c : Byte) (a : WireAddr) (n : Nat) {s : State} (h : s.env.wf) : (readData c a n s).env.wf := by
  rw [readData_eq]; dsimp only; exact Env.frameAfter_wf h _ _ _

theorem readData_other (c : Byte) (a : WireAddr) (n : Nat) {s : State} (h : s.env.wf) {d : Byte} (hd : d ≠ c) :
    (readData c a n s).env.lineAt d = s.env.lineAt d := by
  rw [readData_eq]; dsimp only; exact Env.frameAfter_other h _ hd _

end Sys2Proof.Machine
end

