-- ==== Sys2Proof/Laws/Wire.lean ====
section
/-! SUPPORT. Laws of the wire commands: each is one frame, the frame reads back from the trace, and what an oracle,
an empty line and a reference device answer to it. -/

namespace Sys2Proof.Machine

theorem framesFrom_exchangesEvents (f : TraceFrame) (xs : List Exchange) (is : List Byte) (es : List BusEvent)
    (h : xs.length = is.length) :
    framesFrom (some f) (exchangesEvents xs is ++ es) = framesFrom (some ⟨f.line, f.out ++ outs xs, f.inp ++ is⟩) es := by
  induction xs generalizing is f with
  | nil => cases is with
    | nil => simp [exchangesEvents, outs]
    | cons i is => simp at h
  | cons x xs ih => cases is with
    | nil => simp at h
    | cons i is =>
      simp only [exchangesEvents, List.append_assoc]
      have : framesFrom (some f) (exchangeEvents x i ++ (exchangesEvents xs is ++ es)) = framesFrom (some ⟨f.line, f.out ++ [x.out], f.inp ++ [i]⟩) (exchangesEvents xs is ++ es) := by
        unfold exchangeEvents
        split <;> simp [framesFrom]
      rw [this, ih _ _ (by simpa using h)]
      simp [outs]

/-- R96: the events of one frame read back as that frame. -/
theorem traceFrames_frameEvents (c : Byte) (xs : List Exchange) (is : List Byte) (h : xs.length = is.length) :
    traceFrames (frameEvents c xs is) = [⟨c, outs xs, is⟩] := by
  simp [traceFrames, frameEvents, framesFrom, framesFrom_exchangesEvents _ _ _ _ h]

/-- R96: every wire command is one frame of its own exchanges on the line of `cs_cur`. -/
theorem exec_wire_eq {s : State} {w : Instr} (hw : w.isHost = false) :
    ∃ t, exec w s = .next t ∧ t.csN = lineSet s.cfg.nCs s.csN s.csCur ∧
      t.env = Env.frameAfter s.cfg.opc s.csCur (outs (frameOf s.cfg.opc w)) s.env ∧
      t.trace = s.trace ++ frameEvents s.csCur (frameOf s.cfg.opc w)
        (Env.frameInput s.cfg.opc s.csCur (outs (frameOf s.cfg.opc w)) s.env) := by
  cases w <;> simp only [Instr.isHost, Bool.true_eq_false] at hw
  all_goals exact ⟨_, rfl, by simp, by simp only [frameOf, writeEnable, writeDisable, bulkErase, issueCommand_eq, readStatus_eq, readId_eq, readData_eq, pageProgram_eq, subsectorErase_eq, outs_formatC, outs_formatS], by simp only [frameOf, writeEnable, writeDisable, bulkErase, issueCommand_eq, readStatus_eq, readId_eq, readData_eq, pageProgram_eq, subsectorErase_eq, outs_formatC, outs_formatS]⟩
/-- R240: a frame on an oracle line takes its bytes from the script, in order, and changes nothing else. -/
theorem Env.transfers_oracle (o : Opcodes) (c : Byte) (bs : List Byte) (e : Env) (script rest : List Byte)
    (h : e.lineAt c = .oracle) (hm : e.miso = script ++ rest) (hl : script.length = bs.length) :
    Env.transfers o c bs e = (script, { e with miso := rest }) := by
  induction bs generalizing e script with
  | nil =>
    have : script = [] := by simpa using hl
    subst this
    simp only [Env.transfers]
    simp at hm; rw [← hm]
  | cons b bs ih =>
    cases script with
    | nil => simp at hl
    | cons i script =>
      have he : e.exchange o c b = (i, { e with miso := script ++ rest }) := by
        simp [Env.exchange, h, Env.oracleByte, hm]
      simp only [Env.transfers, he]
      rw [ih _ script (by simpa [Env.lineAt] using h) rfl (by simpa using hl)]

theorem Env.frame_oracle (o : Opcodes) (c : Byte) (bs : List Byte) (e : Env) (script rest : List Byte)
    (h : e.lineAt c = .oracle) (hm : e.miso = script ++ rest) (hl : script.length = bs.length) :
    Env.frameInput o c bs e = script ∧ Env.frameAfter o c bs e = { e with miso := rest } := by
  have hs : e.select c = e := by simp [Env.select, h]
  have hd : ∀ r, ({ e with miso := r } : Env).deselect o c = { e with miso := r } := by
    intro r
    have : ({ e with miso := r } : Env).lineAt c = .oracle := h
    simp [Env.deselect, this]
  simp [Env.frameInput, Env.frameAfter, hs, Env.transfers_oracle o c bs e script rest h hm hl, hd]

/-- R251: an empty line answers 0xFF to every exchange and nothing changes. -/
theorem Env.transfers_empty (o : Opcodes) (c : Byte) (bs : List Byte) (e : Env) (h : e.lineAt c = .empty) :
    Env.transfers o c bs e = (List.replicate bs.length 0xFF, e) := by
  induction bs with
  | nil => rfl
  | cons b bs ih =>
    have he : e.exchange o c b = (0xFF, e) := by simp [Env.exchange, h]
    simp only [Env.transfers, he, ih, List.length_cons, List.replicate_succ]

theorem Env.frame_empty (o : Opcodes) (c : Byte) (bs : List Byte) (e : Env) (h : e.lineAt c = .empty) :
    Env.frameInput o c bs e = List.replicate bs.length 0xFF ∧ Env.frameAfter o c bs e = e := by
  have hs : e.select c = e := by simp [Env.select, h]
  simp [Env.frameInput, Env.frameAfter, hs, Env.transfers_empty o c bs e h, Env.deselect, h]

/-- What a device answers to a run of exchanges, and the device after it. -/
def RefDevice.transfers (o : Opcodes) : List Byte → RefDevice → List Byte × RefDevice
  | [], d => ([], d)
  | b :: bs, d =>
    let r := d.exchange o b
    let rs := RefDevice.transfers o bs r.2
    (r.1 :: rs.1, rs.2)

theorem Env.transfers_device (o : Opcodes) (c : Byte) (bs : List Byte) (e : Env) (d : RefDevice) (hw : e.wf)
    (h : e.lineAt c = .device d) :
    (Env.transfers o c bs e).1 = (RefDevice.transfers o bs d).1 ∧
    (Env.transfers o c bs e).2.lineAt c = .device (RefDevice.transfers o bs d).2 := by
  induction bs generalizing e d with
  | nil => exact ⟨rfl, h⟩
  | cons b bs ih =>
    have he : e.exchange o c b = ((d.exchange o b).1, e.setLine c (.device (d.exchange o b).2)) := by
      simp [Env.exchange, h]
    have hl : (e.setLine c (.device (d.exchange o b).2)).lineAt c = .device (d.exchange o b).2 := by
      rw [Env.lineAt_setLine hw, if_pos rfl]
    have := ih _ _ (by have := Env.exchange_wf hw o c b; rwa [he] at this) hl
    simp only [Env.transfers, RefDevice.transfers, he, this]
    exact ⟨trivial, trivial⟩

/-- A whole frame as the device on its line sees it (R251). -/
theorem Env.frame_device (o : Opcodes) (c : Byte) (bs : List Byte) (e : Env) (d : RefDevice) (hw : e.wf)
    (h : e.lineAt c = .device d) :
    Env.frameInput o c bs e = (RefDevice.transfers o bs { d with rx := [] }).1 ∧
    (Env.frameAfter o c bs e).lineAt c = (RefDevice.transfers o bs { d with rx := [] }).2.atDeselect o := by
  have hs : e.select c = e.setLine c (.device { d with rx := [] }) := by simp [Env.select, h]
  have hl : (e.select c).lineAt c = .device { d with rx := [] } := by rw [hs, Env.lineAt_setLine hw, if_pos rfl]
  obtain ⟨h1, h2⟩ := Env.transfers_device o c bs _ _ (Env.select_wf hw c) hl
  refine ⟨h1, ?_⟩
  rw [Env.frameAfter, Env.deselect, h2]
  dsimp only
  rw [Env.lineAt_setLine (Env.transfers_wf (Env.select_wf hw c) o c bs), if_pos rfl]

/-- In a frame that is no status read a device only receives (R253, R255, R256). -/
theorem RefDevice.transfers_plain (o : Opcodes) (bs : List Byte) (d : RefDevice) (h : d.rx ≠ [o.rdsr])
    (h0 : d.rx = [] → bs.head? ≠ some o.rdsr) :
    RefDevice.transfers o bs d =
      ((List.range bs.length).map (fun i => ({ d with rx := d.rx ++ bs.take i } : RefDevice).answer o),
        { d with rx := d.rx ++ bs }) := by
  induction bs generalizing d with
  | nil => simp [RefDevice.transfers]
  | cons b bs ih =>
    have he : d.exchange o b = (d.answer o, { d with rx := d.rx ++ [b] }) := by simp [RefDevice.exchange, h]
    simp only [RefDevice.transfers, he]
    rw [ih]
    · simp [List.range_succ_eq_map, List.map_map, Function.comp_def]
    · intro hh
      have hh : d.rx ++ [b] = [o.rdsr] := hh
      cases hr : d.rx with
      | nil =>
        rw [hr] at hh
        simp at hh
        exact h0 hr (by simp [hh])
      | cons x xs => rw [hr] at hh; simp at hh
    · intro hh; simp at hh

end Sys2Proof.Machine
end

