-- ==== Sys2Proof/Laws/Device.lean ====
section
/-! SUPPORT. Laws of the reference device: what each wire command's frame does to it, said once. -/

namespace Sys2Proof.Machine

/-! ### The reference device, command by command (R252 to R259) -/

/-- R95: the eight opcodes are pairwise distinct, pair by pair. -/
theorem opcodes_distinct {o : Opcodes} (h : o.wf) :
    (o.wren ≠ o.wrdi ∧ o.wren ≠ o.rdsr ∧ o.wren ≠ o.rdid ∧ o.wren ≠ o.read ∧ o.wren ≠ o.pp ∧ o.wren ≠ o.sse ∧
      o.wren ≠ o.be) ∧
    (o.wrdi ≠ o.rdsr ∧ o.wrdi ≠ o.rdid ∧ o.wrdi ≠ o.read ∧ o.wrdi ≠ o.pp ∧ o.wrdi ≠ o.sse ∧ o.wrdi ≠ o.be) ∧
    (o.rdsr ≠ o.rdid ∧ o.rdsr ≠ o.read ∧ o.rdsr ≠ o.pp ∧ o.rdsr ≠ o.sse ∧ o.rdsr ≠ o.be) ∧
    (o.rdid ≠ o.read ∧ o.rdid ≠ o.pp ∧ o.rdid ≠ o.sse ∧ o.rdid ≠ o.be) ∧
    (o.read ≠ o.pp ∧ o.read ≠ o.sse ∧ o.read ≠ o.be) ∧ (o.pp ≠ o.sse ∧ o.pp ≠ o.be) ∧ o.sse ≠ o.be := by
  simpa [Opcodes.wf, Opcodes.values, and_assoc] using h

namespace RefDevice

/-- The address of a frame that carries one (R91, R93). -/
theorem rxAddr_eq (d : RefDevice) (opc : Byte) (a : WireAddr) (r : List Byte) (h : d.rx = opc :: (addrBytes a ++ r)) :
    d.rxAddr = a.toNat := by
  simp [rxAddr, h, addrBytes, addrOfBytes_extract]

/-- R252: the two status bits the controller tests. -/
theorem status_bits (d : RefDevice) : d.status.getLsbD 0 = d.wip ∧ d.status.getLsbD 1 = d.wel := by
  unfold status statusByte
  simp only [BitVec.getLsbD_append, BitVec.getLsbD_ofBool]
  simp

theorem tick_rx (d : RefDevice) (r : List Byte) : ({ d with rx := r } : RefDevice).tick = { d.tick with rx := r } := by
  simp only [tick, complete]
  split_ifs <;> rfl

/-- R252: a status read on a device: one tick, the byte composed after it. -/
theorem transfers_rdsr (o : Opcodes) (d : RefDevice) (dummy : Byte) :
    transfers o [o.rdsr, dummy] { d with rx := [] } =
      ([0xFF, d.tick.status], { d.tick with rx := [o.rdsr, dummy] }) := by
  simp [transfers, exchange, answer, tick_rx, status]

theorem atDeselect_rdsr {o : Opcodes} (ho : o.wf) (d : RefDevice) (dummy : Byte) :
    ({ d with rx := [o.rdsr, dummy] } : RefDevice).atDeselect o = .device { d with rx := [] } := by
  obtain ⟨⟨_, h1, _⟩, ⟨h2, _⟩, ⟨_, _, h3, h4, h5⟩, _⟩ := opcodes_distinct ho
  simp [atDeselect, h1.symm, h2.symm, h3, h4, h5]

/-- A device in the frame of a wire command that is no status read only receives. -/
theorem transfers_command {o : Opcodes} (ho : o.wf) (w : Instr) (hw : w.isHost = false) (hr : w ≠ .rdsr)
    (d : RefDevice) :
    transfers o (outs (frameOf o w)) { d with rx := [] } =
      ((List.range (outs (frameOf o w)).length).map fun i =>
          ({ d with rx := (outs (frameOf o w)).take i } : RefDevice).answer o,
        { d with rx := outs (frameOf o w) }) := by
  have hn := opcodes_distinct ho
  rw [transfers_plain]
  · simp
  · simp
  · intro _
    cases w <;> simp [Instr.isHost] at hw hr <;> simp [frameOf] <;> intro hh <;> simp_all

theorem atDeselect_busy (o : Opcodes) (d : RefDevice) (h : d.wip = true) : d.atDeselect o = .device { d with rx := [] } := by
  unfold atDeselect
  split
  · rfl
  · simp [h]

theorem atDeselect_wren (o : Opcodes) (d : RefDevice) (h : d.wip = false) :
    ({ d with rx := [o.wren] } : RefDevice).atDeselect o = .device ({ d with rx := [] } : RefDevice).armed := by
  simp [atDeselect, h]

theorem atDeselect_wrdi {o : Opcodes} (ho : o.wf) (d : RefDevice) (h : d.wip = false) :
    ({ d with rx := [o.wrdi] } : RefDevice).atDeselect o = .device { d with wel := false, rx := [] } := by
  have := (opcodes_distinct ho).1.1.symm
  simp [atDeselect, h, this]

theorem atDeselect_pp {o : Opcodes} (ho : o.wf) (d : RefDevice) (h : d.wip = false) (hl : d.wel = true) (a : WireAddr)
    (data : List Byte) (hs : ∀ c ∈ programCells a.toNat data, c.1 < d.size) :
    ({ d with rx := o.pp :: (addrBytes a ++ data) } : RefDevice).atDeselect o = .device { d with
      pending := some (.program (programCells a.toNat data)), wip := true, busyLeft := d.busyReads, rx := [] } := by
  obtain ⟨⟨_, _, _, _, h1, _⟩, ⟨_, _, _, h2, _⟩, _⟩ := opcodes_distinct ho
  unfold atDeselect
  simp only [rxAddr_eq { d with rx := o.pp :: (addrBytes a ++ data) } o.pp a data rfl,
    show (addrBytes a ++ data).drop 3 = data from rfl]
  simp only [h, hl, h1.symm, h2.symm, if_false, if_true, Bool.false_eq_true, Bool.true_eq_false]
  rw [if_pos (by simpa [holdsCells] using hs)]
  simp [start]

theorem atDeselect_sse {o : Opcodes} (ho : o.wf) (d : RefDevice) (h : d.wip = false) (hl : d.wel = true) (a : WireAddr)
    (hs : a.toNat < d.size) :
    ({ d with rx := o.sse :: addrBytes a } : RefDevice).atDeselect o = .device { d with
      pending := some (.erase (alignDown a.toNat) (alignDown a.toNat + 4095)), wip := true, busyLeft := d.busyReads,
      rx := [] } := by
  obtain ⟨⟨_, _, _, _, _, h1, _⟩, ⟨_, _, _, _, h2, _⟩, _, _, _, ⟨h3, _⟩, _⟩ := opcodes_distinct ho
  unfold atDeselect
  simp only [rxAddr_eq { d with rx := o.sse :: addrBytes a } o.sse a [] (by simp)]
  simp only [h, hl, h1.symm, h2.symm, h3.symm, if_false, if_true, Bool.false_eq_true, Bool.true_eq_false]
  rw [if_pos hs]
  simp [start]

theorem atDeselect_be {o : Opcodes} (ho : o.wf) (d : RefDevice) (h : d.wip = false) (hl : d.wel = true) :
    ({ d with rx := [o.be] } : RefDevice).atDeselect o = .device { d with
      pending := some (.erase 0 (d.size - 1)), wip := true, busyLeft := d.busyReads, rx := [] } := by
  obtain ⟨⟨_, _, _, _, _, _, h1⟩, ⟨_, _, _, _, _, h2⟩, _, _, _, ⟨_, h3⟩, h4⟩ := opcodes_distinct ho
  unfold atDeselect
  simp only [h, hl, h1.symm, h2.symm, h3.symm, h4.symm, if_false, if_true, Bool.false_eq_true, Bool.true_eq_false]
  simp [start]

/-- RDID, RD and, on a device whose latch is clear, every program or erase leave an idle device as it was. -/
theorem atDeselect_ignored {o : Opcodes} (ho : o.wf) (d : RefDevice) (h : d.wip = false) (opc : Byte) (r : List Byte)
    (hc : (opc = o.rdid ∨ opc = o.read) ∨ d.wel = false ∧ (opc = o.pp ∨ opc = o.sse ∨ opc = o.be)) :
    ({ d with rx := opc :: r } : RefDevice).atDeselect o = .device { d with rx := [] } := by
  obtain ⟨⟨_, _, a1, a2, a3, a4, a5⟩, ⟨_, b1, b2, b3, b4, b5⟩, _, ⟨_, c1, c2, c3⟩, ⟨d1, d2, d3⟩, _⟩ := opcodes_distinct ho
  rcases hc with (rfl | rfl) | ⟨hl, rfl | rfl | rfl⟩
  · simp [atDeselect, h, a1.symm, b1.symm, c1, c2, c3]
  · simp [atDeselect, h, a2.symm, b2.symm, d1, d2, d3]
  · simp [atDeselect, h, hl, a3.symm, b3.symm]
  · simp [atDeselect, h, hl, a4.symm, b4.symm]
  · simp [atDeselect, h, hl, a5.symm, b5.symm]

/-- R255: what an idle device answers to RD after the address. -/
theorem answer_read {o : Opcodes} (ho : o.wf) (d : RefDevice) (h : d.wip = false) (a : WireAddr) (r : List Byte) :
    ({ d with rx := o.read :: (addrBytes a ++ r) } : RefDevice).answer o = d.mem.read ((a.toNat + r.length) % d.size) := by
  obtain ⟨_, _, ⟨_, h1, _⟩, ⟨h2, _⟩, _⟩ := opcodes_distinct ho
  unfold answer
  simp only [rxAddr_eq { d with rx := o.read :: (addrBytes a ++ r) } o.read a r rfl]
  simp [h, h1.symm, h2.symm]

/-- R253: what an idle device answers to RDID after the opcode. -/
theorem answer_rdid {o : Opcodes} (ho : o.wf) (d : RefDevice) (h : d.wip = false) (r : List Byte) (hr : r.length < 20) :
    ({ d with rx := o.rdid :: r } : RefDevice).answer o = d.id[r.length] := by
  obtain ⟨_, _, ⟨h1, _⟩, _⟩ := opcodes_distinct ho
  simp [answer, h, h1.symm, hr]
end RefDevice

/-- A wire command on a line with a device: the bytes the device answers and what stands on the line afterwards. -/
theorem exec_wire_device {s : State} {w : Instr} {d : RefDevice} (hw : w.isHost = false) (he : s.env.wf)
    (hl : s.env.lineAt s.csCur = .device d) :
    ∃ t, exec w s = .next t ∧
      Env.frameInput s.cfg.opc s.csCur (outs (frameOf s.cfg.opc w)) s.env =
        (RefDevice.transfers s.cfg.opc (outs (frameOf s.cfg.opc w)) { d with rx := [] }).1 ∧
      t.env.lineAt s.csCur =
        (RefDevice.transfers s.cfg.opc (outs (frameOf s.cfg.opc w)) { d with rx := [] }).2.atDeselect s.cfg.opc := by
  obtain ⟨t, h1, _, h3, _⟩ := exec_wire_eq (s := s) hw
  obtain ⟨h4, h5⟩ := Env.frame_device s.cfg.opc s.csCur (outs (frameOf s.cfg.opc w)) s.env d he hl
  exact ⟨t, h1, h4, h3 ▸ h5⟩

/-- R322: a cut frame as the device on its line sees it, whatever the number of free values used before. -/
theorem cutFrame_device {s : State} {d : RefDevice} (hw : s.env.wf) (hd : s.env.lineAt s.csCur = .device d) (m : Nat)
    (w : Instr) :
    ∃ free, (cutFrame m w s).env.lineAt s.csCur =
      ((RefDevice.transfers s.cfg.opc ((outs (frameOf s.cfg.opc w)).take m) { d with rx := [] }).2.cutShort w free).1 := by
  have hl : (s.env.select s.csCur).lineAt s.csCur = .device { d with rx := [] } := by
    simp [Env.select, hd, Env.lineAt_setLine hw]
  have h2 := (Env.transfers_device s.cfg.opc s.csCur ((outs (frameOf s.cfg.opc w)).take m) _ _
    (Env.select_wf hw s.csCur) hl).2
  refine ⟨(Env.transfers s.cfg.opc s.csCur ((outs (frameOf s.cfg.opc w)).take m) (s.env.select s.csCur)).2.freeIn, ?_⟩
  have ho : outs ((frameOf s.cfg.opc w).take m) = (outs (frameOf s.cfg.opc w)).take m := by simp [outs]
  simp only [cutFrame, openFrame_eq, ho]
  exact Env.cut_self (Env.transfers_wf (Env.select_wf hw _) _ _ _) w h2

/-- R253, R256: what RDID reads from a reference device: its identification, or the first byte of an idle line. -/
theorem readId_idbuf {s : State} {d : RefDevice} (ho : s.cfg.opc.wf) (hw : s.env.wf)
    (hd : s.env.lineAt s.csCur = .device d) :
    (readId s.csCur s).idbuf = d.id ∨ (readId s.csCur s).idbuf[0] = 0xFF := by
  have h1 := (Env.frame_device s.cfg.opc s.csCur (outs (formatI s.cfg.opc.rdid s.cfg.opc.dummyTx)) s.env d hw hd).1
  have h3 := RefDevice.transfers_command ho .rdid rfl (by simp) d
  simp only [frameOf] at h3
  rw [h3] at h1
  simp only [outs_formatI] at h1
  simp only [readId_eq, outs_formatI, h1]
  by_cases hb : d.wip = true
  · right
    have := (opcodes_distinct ho).2.2.1.1
    simp [Vector.getElem_ofFn, RefDevice.answer, hb, Ne.symm this]
  · left
    apply Vector.ext
    intro i hi
    have : i + 1 < 21 := by omega
    simp [this]
    rw [RefDevice.answer_rdid ho d (by simpa using hb) _ (by simp; omega)]
    simp [Nat.min_eq_left hi.le]

end Sys2Proof.Machine
end

