-- ==== Sys2Proof/Laws/PerInstr.lean ====
section
/-! SUPPORT. Laws stated per instruction. -/

namespace Sys2Proof.Laws

/-- R90, R91: a host operation has no frame; a wire command has one, not empty, and its code is the bytes the frame
shifts out. -/
def EncodedFrame.Statement (i : Instr) : Prop :=
  ∀ o : Opcodes, (i.isHost = true → frameOf o i = []) ∧
    (i.isHost = false → frameOf o i ≠ [] ∧ encode o i = .frame (outs (frameOf o i)))

theorem EncodedFrame.probe (sel : Byte) (addr len : Word) : EncodedFrame.Statement (.probe sel addr len) :=
  fun _ => ⟨fun _ => rfl, nofun⟩

theorem EncodedFrame.info (sel : Byte) (addr len : Word) : EncodedFrame.Statement (.info sel addr len) :=
  fun _ => ⟨fun _ => rfl, nofun⟩

theorem EncodedFrame.read (sel : Byte) (addr len : Word) : EncodedFrame.Statement (.read sel addr len) :=
  fun _ => ⟨fun _ => rfl, nofun⟩

theorem EncodedFrame.write (sel : Byte) (addr len : Word) : EncodedFrame.Statement (.write sel addr len) :=
  fun _ => ⟨fun _ => rfl, nofun⟩

theorem EncodedFrame.erase (sel : Byte) (addr len : Word) : EncodedFrame.Statement (.erase sel addr len) :=
  fun _ => ⟨fun _ => rfl, nofun⟩

theorem EncodedFrame.chipErase (sel : Byte) (addr len : Word) : EncodedFrame.Statement (.chipErase sel addr len) :=
  fun _ => ⟨fun _ => rfl, nofun⟩

theorem EncodedFrame.wren : EncodedFrame.Statement .wren := fun _ => ⟨nofun, fun _ => ⟨nofun, rfl⟩⟩

theorem EncodedFrame.wrdi : EncodedFrame.Statement .wrdi := fun _ => ⟨nofun, fun _ => ⟨nofun, rfl⟩⟩

theorem EncodedFrame.rdsr : EncodedFrame.Statement .rdsr := fun _ => ⟨nofun, fun _ => ⟨nofun, rfl⟩⟩

theorem EncodedFrame.rdid : EncodedFrame.Statement .rdid := fun _ => ⟨nofun, fun _ => ⟨nofun, rfl⟩⟩

theorem EncodedFrame.rd (a : WireAddr) (n : Nat) : EncodedFrame.Statement (.rd a n) :=
  fun _ => ⟨nofun, fun _ => ⟨nofun, rfl⟩⟩

theorem EncodedFrame.pp (a : WireAddr) (data : List Byte) : EncodedFrame.Statement (.pp a data) :=
  fun _ => ⟨nofun, fun _ => ⟨nofun, rfl⟩⟩

theorem EncodedFrame.sse (a : WireAddr) : EncodedFrame.Statement (.sse a) :=
  fun _ => ⟨nofun, fun _ => ⟨nofun, rfl⟩⟩

theorem EncodedFrame.be : EncodedFrame.Statement .be := fun _ => ⟨nofun, fun _ => ⟨nofun, rfl⟩⟩

end Sys2Proof.Laws
end

