-- ==== Sys2Proof/Laws/State.lean ====
section
/-! SUPPORT. Laws of the state: one lemma per field per update, so that no proof unfolds a record update. -/

namespace Sys2Proof.Machine

/-! ### `emit` -/

@[simp] theorem emit_cfg (es : List BusEvent) (s : State) : (emit es s).cfg = s.cfg := rfl
@[simp] theorem emit_att (es : List BusEvent) (s : State) : (emit es s).att = s.att := rfl
@[simp] theorem emit_csOe (es : List BusEvent) (s : State) : (emit es s).csOe = s.csOe := rfl
@[simp] theorem emit_csN (es : List BusEvent) (s : State) : (emit es s).csN = s.csN := rfl
@[simp] theorem emit_busInit (es : List BusEvent) (s : State) : (emit es s).busInit = s.busInit := rfl
@[simp] theorem emit_busy (es : List BusEvent) (s : State) : (emit es s).busy = s.busy := rfl
@[simp] theorem emit_resCode (es : List BusEvent) (s : State) : (emit es s).resCode = s.resCode := rfl
@[simp] theorem emit_resHandle (es : List BusEvent) (s : State) : (emit es s).resHandle = s.resHandle := rfl
@[simp] theorem emit_infoMfr (es : List BusEvent) (s : State) : (emit es s).infoMfr = s.infoMfr := rfl
@[simp] theorem emit_infoDev (es : List BusEvent) (s : State) : (emit es s).infoDev = s.infoDev := rfl
@[simp] theorem emit_infoSize (es : List BusEvent) (s : State) : (emit es s).infoSize = s.infoSize := rfl
@[simp] theorem emit_infoDesc (es : List BusEvent) (s : State) : (emit es s).infoDesc = s.infoDesc := rfl
@[simp] theorem emit_rdata (es : List BusEvent) (s : State) : (emit es s).rdata = s.rdata := rfl
@[simp] theorem emit_wdata (es : List BusEvent) (s : State) : (emit es s).wdata = s.wdata := rfl
@[simp] theorem emit_fsm (es : List BusEvent) (s : State) : (emit es s).fsm = s.fsm := rfl
@[simp] theorem emit_op (es : List BusEvent) (s : State) : (emit es s).op = s.op := rfl
@[simp] theorem emit_sel (es : List BusEvent) (s : State) : (emit es s).sel = s.sel := rfl
@[simp] theorem emit_addr (es : List BusEvent) (s : State) : (emit es s).addr = s.addr := rfl
@[simp] theorem emit_len (es : List BusEvent) (s : State) : (emit es s).len = s.len := rfl
@[simp] theorem emit_csCur (es : List BusEvent) (s : State) : (emit es s).csCur = s.csCur := rfl
@[simp] theorem emit_cur (es : List BusEvent) (s : State) : (emit es s).cur = s.cur := rfl
@[simp] theorem emit_rem (es : List BusEvent) (s : State) : (emit es s).rem = s.rem := rfl
@[simp] theorem emit_off (es : List BusEvent) (s : State) : (emit es s).off = s.off := rfl
@[simp] theorem emit_k (es : List BusEvent) (s : State) : (emit es s).k = s.k := rfl
@[simp] theorem emit_endAddr (es : List BusEvent) (s : State) : (emit es s).endAddr = s.endAddr := rfl
@[simp] theorem emit_stat (es : List BusEvent) (s : State) : (emit es s).stat = s.stat := rfl
@[simp] theorem emit_idbuf (es : List BusEvent) (s : State) : (emit es s).idbuf = s.idbuf := rfl
@[simp] theorem emit_polls (es : List BusEvent) (s : State) : (emit es s).polls = s.polls := rfl
@[simp] theorem emit_trace (es : List BusEvent) (s : State) : (emit es s).trace = s.trace ++ es := rfl
@[simp] theorem emit_env (es : List BusEvent) (s : State) : (emit es s).env = s.env := rfl
@[simp] theorem emit_requests (es : List BusEvent) (s : State) : (emit es s).requests = s.requests := rfl
@[simp] theorem emit_freeHost (es : List BusEvent) (s : State) : (emit es s).freeHost = s.freeHost := rfl
@[simp] theorem emit_resetPlan (es : List BusEvent) (s : State) : (emit es s).resetPlan = s.resetPlan := rfl

/-! ### `goto` -/

@[simp] theorem goto_cfg (f : Fsm) (s : State) : (goto f s).cfg = s.cfg := rfl
@[simp] theorem goto_att (f : Fsm) (s : State) : (goto f s).att = s.att := rfl
@[simp] theorem goto_csOe (f : Fsm) (s : State) : (goto f s).csOe = s.csOe := rfl
@[simp] theorem goto_csN (f : Fsm) (s : State) : (goto f s).csN = s.csN := rfl
@[simp] theorem goto_busInit (f : Fsm) (s : State) : (goto f s).busInit = s.busInit := rfl
@[simp] theorem goto_busy (f : Fsm) (s : State) : (goto f s).busy = s.busy := rfl
@[simp] theorem goto_resCode (f : Fsm) (s : State) : (goto f s).resCode = s.resCode := rfl
@[simp] theorem goto_resHandle (f : Fsm) (s : State) : (goto f s).resHandle = s.resHandle := rfl
@[simp] theorem goto_infoMfr (f : Fsm) (s : State) : (goto f s).infoMfr = s.infoMfr := rfl
@[simp] theorem goto_infoDev (f : Fsm) (s : State) : (goto f s).infoDev = s.infoDev := rfl
@[simp] theorem goto_infoSize (f : Fsm) (s : State) : (goto f s).infoSize = s.infoSize := rfl
@[simp] theorem goto_infoDesc (f : Fsm) (s : State) : (goto f s).infoDesc = s.infoDesc := rfl
@[simp] theorem goto_rdata (f : Fsm) (s : State) : (goto f s).rdata = s.rdata := rfl
@[simp] theorem goto_wdata (f : Fsm) (s : State) : (goto f s).wdata = s.wdata := rfl
@[simp] theorem goto_fsm (f : Fsm) (s : State) : (goto f s).fsm = f := rfl
@[simp] theorem goto_op (f : Fsm) (s : State) : (goto f s).op = s.op := rfl
@[simp] theorem goto_sel (f : Fsm) (s : State) : (goto f s).sel = s.sel := rfl
@[simp] theorem goto_addr (f : Fsm) (s : State) : (goto f s).addr = s.addr := rfl
@[simp] theorem goto_len (f : Fsm) (s : State) : (goto f s).len = s.len := rfl
@[simp] theorem goto_csCur (f : Fsm) (s : State) : (goto f s).csCur = s.csCur := rfl
@[simp] theorem goto_cur (f : Fsm) (s : State) : (goto f s).cur = s.cur := rfl
@[simp] theorem goto_rem (f : Fsm) (s : State) : (goto f s).rem = s.rem := rfl
@[simp] theorem goto_off (f : Fsm) (s : State) : (goto f s).off = s.off := rfl
@[simp] theorem goto_k (f : Fsm) (s : State) : (goto f s).k = s.k := rfl
@[simp] theorem goto_endAddr (f : Fsm) (s : State) : (goto f s).endAddr = s.endAddr := rfl
@[simp] theorem goto_stat (f : Fsm) (s : State) : (goto f s).stat = s.stat := rfl
@[simp] theorem goto_idbuf (f : Fsm) (s : State) : (goto f s).idbuf = s.idbuf := rfl
@[simp] theorem goto_polls (f : Fsm) (s : State) : (goto f s).polls = s.polls := rfl
@[simp] theorem goto_trace (f : Fsm) (s : State) : (goto f s).trace = s.trace := rfl
@[simp] theorem goto_env (f : Fsm) (s : State) : (goto f s).env = s.env := rfl
@[simp] theorem goto_requests (f : Fsm) (s : State) : (goto f s).requests = s.requests := rfl
@[simp] theorem goto_freeHost (f : Fsm) (s : State) : (goto f s).freeHost = s.freeHost := rfl
@[simp] theorem goto_resetPlan (f : Fsm) (s : State) : (goto f s).resetPlan = s.resetPlan := rfl

/-! ### `raise` -/

@[simp] theorem raise_cfg (e : ResultCode) (s : State) : (raise e s).cfg = s.cfg := rfl
@[simp] theorem raise_att (e : ResultCode) (s : State) : (raise e s).att = s.att := rfl
@[simp] theorem raise_csOe (e : ResultCode) (s : State) : (raise e s).csOe = s.csOe := rfl
@[simp] theorem raise_csN (e : ResultCode) (s : State) : (raise e s).csN = s.csN := rfl
@[simp] theorem raise_busInit (e : ResultCode) (s : State) : (raise e s).busInit = s.busInit := rfl
@[simp] theorem raise_busy (e : ResultCode) (s : State) : (raise e s).busy = s.busy := rfl
@[simp] theorem raise_resCode (e : ResultCode) (s : State) : (raise e s).resCode = e.code := rfl
@[simp] theorem raise_resHandle (e : ResultCode) (s : State) : (raise e s).resHandle = s.resHandle := rfl
@[simp] theorem raise_infoMfr (e : ResultCode) (s : State) : (raise e s).infoMfr = s.infoMfr := rfl
@[simp] theorem raise_infoDev (e : ResultCode) (s : State) : (raise e s).infoDev = s.infoDev := rfl
@[simp] theorem raise_infoSize (e : ResultCode) (s : State) : (raise e s).infoSize = s.infoSize := rfl
@[simp] theorem raise_infoDesc (e : ResultCode) (s : State) : (raise e s).infoDesc = s.infoDesc := rfl
@[simp] theorem raise_rdata (e : ResultCode) (s : State) : (raise e s).rdata = s.rdata := rfl
@[simp] theorem raise_wdata (e : ResultCode) (s : State) : (raise e s).wdata = s.wdata := rfl
@[simp] theorem raise_fsm (e : ResultCode) (s : State) : (raise e s).fsm = .done := rfl
@[simp] theorem raise_op (e : ResultCode) (s : State) : (raise e s).op = s.op := rfl
@[simp] theorem raise_sel (e : ResultCode) (s : State) : (raise e s).sel = s.sel := rfl
@[simp] theorem raise_addr (e : ResultCode) (s : State) : (raise e s).addr = s.addr := rfl
@[simp] theorem raise_len (e : ResultCode) (s : State) : (raise e s).len = s.len := rfl
@[simp] theorem raise_csCur (e : ResultCode) (s : State) : (raise e s).csCur = s.csCur := rfl
@[simp] theorem raise_cur (e : ResultCode) (s : State) : (raise e s).cur = s.cur := rfl
@[simp] theorem raise_rem (e : ResultCode) (s : State) : (raise e s).rem = s.rem := rfl
@[simp] theorem raise_off (e : ResultCode) (s : State) : (raise e s).off = s.off := rfl
@[simp] theorem raise_k (e : ResultCode) (s : State) : (raise e s).k = s.k := rfl
@[simp] theorem raise_endAddr (e : ResultCode) (s : State) : (raise e s).endAddr = s.endAddr := rfl
@[simp] theorem raise_stat (e : ResultCode) (s : State) : (raise e s).stat = s.stat := rfl
@[simp] theorem raise_idbuf (e : ResultCode) (s : State) : (raise e s).idbuf = s.idbuf := rfl
@[simp] theorem raise_polls (e : ResultCode) (s : State) : (raise e s).polls = s.polls := rfl
@[simp] theorem raise_trace (e : ResultCode) (s : State) : (raise e s).trace = s.trace := rfl
@[simp] theorem raise_env (e : ResultCode) (s : State) : (raise e s).env = s.env := rfl
@[simp] theorem raise_requests (e : ResultCode) (s : State) : (raise e s).requests = s.requests := rfl
@[simp] theorem raise_freeHost (e : ResultCode) (s : State) : (raise e s).freeHost = s.freeHost := rfl
@[simp] theorem raise_resetPlan (e : ResultCode) (s : State) : (raise e s).resetPlan = s.resetPlan := rfl

/-! ### `returnOk` -/

@[simp] theorem returnOk_cfg (s : State) : (returnOk s).cfg = s.cfg := rfl
@[simp] theorem returnOk_att (s : State) : (returnOk s).att = s.att := rfl
@[simp] theorem returnOk_csOe (s : State) : (returnOk s).csOe = s.csOe := rfl
@[simp] theorem returnOk_csN (s : State) : (returnOk s).csN = s.csN := rfl
@[simp] theorem returnOk_busInit (s : State) : (returnOk s).busInit = s.busInit := rfl
@[simp] theorem returnOk_busy (s : State) : (returnOk s).busy = s.busy := rfl
@[simp] theorem returnOk_resCode (s : State) : (returnOk s).resCode = 0 := rfl
@[simp] theorem returnOk_resHandle (s : State) : (returnOk s).resHandle = s.resHandle := rfl
@[simp] theorem returnOk_infoMfr (s : State) : (returnOk s).infoMfr = s.infoMfr := rfl
@[simp] theorem returnOk_infoDev (s : State) : (returnOk s).infoDev = s.infoDev := rfl
@[simp] theorem returnOk_infoSize (s : State) : (returnOk s).infoSize = s.infoSize := rfl
@[simp] theorem returnOk_infoDesc (s : State) : (returnOk s).infoDesc = s.infoDesc := rfl
@[simp] theorem returnOk_rdata (s : State) : (returnOk s).rdata = s.rdata := rfl
@[simp] theorem returnOk_wdata (s : State) : (returnOk s).wdata = s.wdata := rfl
@[simp] theorem returnOk_fsm (s : State) : (returnOk s).fsm = .done := rfl
@[simp] theorem returnOk_op (s : State) : (returnOk s).op = s.op := rfl
@[simp] theorem returnOk_sel (s : State) : (returnOk s).sel = s.sel := rfl
@[simp] theorem returnOk_addr (s : State) : (returnOk s).addr = s.addr := rfl
@[simp] theorem returnOk_len (s : State) : (returnOk s).len = s.len := rfl
@[simp] theorem returnOk_csCur (s : State) : (returnOk s).csCur = s.csCur := rfl
@[simp] theorem returnOk_cur (s : State) : (returnOk s).cur = s.cur := rfl
@[simp] theorem returnOk_rem (s : State) : (returnOk s).rem = s.rem := rfl
@[simp] theorem returnOk_off (s : State) : (returnOk s).off = s.off := rfl
@[simp] theorem returnOk_k (s : State) : (returnOk s).k = s.k := rfl
@[simp] theorem returnOk_endAddr (s : State) : (returnOk s).endAddr = s.endAddr := rfl
@[simp] theorem returnOk_stat (s : State) : (returnOk s).stat = s.stat := rfl
@[simp] theorem returnOk_idbuf (s : State) : (returnOk s).idbuf = s.idbuf := rfl
@[simp] theorem returnOk_polls (s : State) : (returnOk s).polls = s.polls := rfl
@[simp] theorem returnOk_trace (s : State) : (returnOk s).trace = s.trace := rfl
@[simp] theorem returnOk_env (s : State) : (returnOk s).env = s.env := rfl
@[simp] theorem returnOk_requests (s : State) : (returnOk s).requests = s.requests := rfl
@[simp] theorem returnOk_freeHost (s : State) : (returnOk s).freeHost = s.freeHost := rfl
@[simp] theorem returnOk_resetPlan (s : State) : (returnOk s).resetPlan = s.resetPlan := rfl

/-! ### `retire` -/

@[simp] theorem retire_cfg (s : State) : (retire s).cfg = s.cfg := rfl
@[simp] theorem retire_att (s : State) : (retire s).att = s.att := rfl
@[simp] theorem retire_csOe (s : State) : (retire s).csOe = s.csOe := rfl
@[simp] theorem retire_csN (s : State) : (retire s).csN = s.csN := rfl
@[simp] theorem retire_busInit (s : State) : (retire s).busInit = s.busInit := rfl
@[simp] theorem retire_busy (s : State) : (retire s).busy = false := rfl
@[simp] theorem retire_resCode (s : State) : (retire s).resCode = s.resCode := rfl
@[simp] theorem retire_resHandle (s : State) : (retire s).resHandle = s.resHandle := rfl
@[simp] theorem retire_infoMfr (s : State) : (retire s).infoMfr = s.infoMfr := rfl
@[simp] theorem retire_infoDev (s : State) : (retire s).infoDev = s.infoDev := rfl
@[simp] theorem retire_infoSize (s : State) : (retire s).infoSize = s.infoSize := rfl
@[simp] theorem retire_infoDesc (s : State) : (retire s).infoDesc = s.infoDesc := rfl
@[simp] theorem retire_rdata (s : State) : (retire s).rdata = s.rdata := rfl
@[simp] theorem retire_wdata (s : State) : (retire s).wdata = s.wdata := rfl
@[simp] theorem retire_fsm (s : State) : (retire s).fsm = .idle := rfl
@[simp] theorem retire_op (s : State) : (retire s).op = s.op := rfl
@[simp] theorem retire_sel (s : State) : (retire s).sel = s.sel := rfl
@[simp] theorem retire_addr (s : State) : (retire s).addr = s.addr := rfl
@[simp] theorem retire_len (s : State) : (retire s).len = s.len := rfl
@[simp] theorem retire_csCur (s : State) : (retire s).csCur = s.csCur := rfl
@[simp] theorem retire_cur (s : State) : (retire s).cur = s.cur := rfl
@[simp] theorem retire_rem (s : State) : (retire s).rem = s.rem := rfl
@[simp] theorem retire_off (s : State) : (retire s).off = s.off := rfl
@[simp] theorem retire_k (s : State) : (retire s).k = s.k := rfl
@[simp] theorem retire_endAddr (s : State) : (retire s).endAddr = s.endAddr := rfl
@[simp] theorem retire_stat (s : State) : (retire s).stat = s.stat := rfl
@[simp] theorem retire_idbuf (s : State) : (retire s).idbuf = s.idbuf := rfl
@[simp] theorem retire_polls (s : State) : (retire s).polls = s.polls := rfl
@[simp] theorem retire_trace (s : State) : (retire s).trace = s.trace := rfl
@[simp] theorem retire_env (s : State) : (retire s).env = s.env := rfl
@[simp] theorem retire_requests (s : State) : (retire s).requests = s.requests := rfl
@[simp] theorem retire_freeHost (s : State) : (retire s).freeHost = s.freeHost := rfl
@[simp] theorem retire_resetPlan (s : State) : (retire s).resetPlan = s.resetPlan := rfl

/-! ### `accept` -/

@[simp] theorem accept_cfg (r : Request) (f : Fsm) (s : State) : (accept r f s).cfg = s.cfg := rfl
@[simp] theorem accept_att (r : Request) (f : Fsm) (s : State) : (accept r f s).att = s.att := rfl
@[simp] theorem accept_csOe (r : Request) (f : Fsm) (s : State) : (accept r f s).csOe = s.csOe := rfl
@[simp] theorem accept_csN (r : Request) (f : Fsm) (s : State) : (accept r f s).csN = s.csN := rfl
@[simp] theorem accept_busInit (r : Request) (f : Fsm) (s : State) : (accept r f s).busInit = s.busInit := rfl
@[simp] theorem accept_busy (r : Request) (f : Fsm) (s : State) : (accept r f s).busy = true := rfl
@[simp] theorem accept_resCode (r : Request) (f : Fsm) (s : State) : (accept r f s).resCode = s.resCode := rfl
@[simp] theorem accept_resHandle (r : Request) (f : Fsm) (s : State) : (accept r f s).resHandle = s.resHandle := rfl
@[simp] theorem accept_infoMfr (r : Request) (f : Fsm) (s : State) : (accept r f s).infoMfr = s.infoMfr := rfl
@[simp] theorem accept_infoDev (r : Request) (f : Fsm) (s : State) : (accept r f s).infoDev = s.infoDev := rfl
@[simp] theorem accept_infoSize (r : Request) (f : Fsm) (s : State) : (accept r f s).infoSize = s.infoSize := rfl
@[simp] theorem accept_infoDesc (r : Request) (f : Fsm) (s : State) : (accept r f s).infoDesc = s.infoDesc := rfl
@[simp] theorem accept_rdata (r : Request) (f : Fsm) (s : State) : (accept r f s).rdata = [] := rfl
@[simp] theorem accept_wdata (r : Request) (f : Fsm) (s : State) : (accept r f s).wdata = s.wdata := rfl
@[simp] theorem accept_fsm (r : Request) (f : Fsm) (s : State) : (accept r f s).fsm = f := rfl
@[simp] theorem accept_op (r : Request) (f : Fsm) (s : State) : (accept r f s).op = r.op := rfl
@[simp] theorem accept_sel (r : Request) (f : Fsm) (s : State) : (accept r f s).sel = r.sel := rfl
@[simp] theorem accept_addr (r : Request) (f : Fsm) (s : State) : (accept r f s).addr = r.addr := rfl
@[simp] theorem accept_len (r : Request) (f : Fsm) (s : State) : (accept r f s).len = r.len := rfl
@[simp] theorem accept_csCur (r : Request) (f : Fsm) (s : State) : (accept r f s).csCur = s.csCur := rfl
@[simp] theorem accept_cur (r : Request) (f : Fsm) (s : State) : (accept r f s).cur = s.cur := rfl
@[simp] theorem accept_rem (r : Request) (f : Fsm) (s : State) : (accept r f s).rem = s.rem := rfl
@[simp] theorem accept_off (r : Request) (f : Fsm) (s : State) : (accept r f s).off = s.off := rfl
@[simp] theorem accept_k (r : Request) (f : Fsm) (s : State) : (accept r f s).k = s.k := rfl
@[simp] theorem accept_endAddr (r : Request) (f : Fsm) (s : State) : (accept r f s).endAddr = s.endAddr := rfl
@[simp] theorem accept_stat (r : Request) (f : Fsm) (s : State) : (accept r f s).stat = s.stat := rfl
@[simp] theorem accept_idbuf (r : Request) (f : Fsm) (s : State) : (accept r f s).idbuf = s.idbuf := rfl
@[simp] theorem accept_polls (r : Request) (f : Fsm) (s : State) : (accept r f s).polls = s.polls := rfl
@[simp] theorem accept_trace (r : Request) (f : Fsm) (s : State) : (accept r f s).trace = s.trace := rfl
@[simp] theorem accept_env (r : Request) (f : Fsm) (s : State) : (accept r f s).env = s.env := rfl
@[simp] theorem accept_requests (r : Request) (f : Fsm) (s : State) : (accept r f s).requests = s.requests := rfl
@[simp] theorem accept_freeHost (r : Request) (f : Fsm) (s : State) : (accept r f s).freeHost = s.freeHost := rfl
@[simp] theorem accept_resetPlan (r : Request) (f : Fsm) (s : State) : (accept r f s).resetPlan = s.resetPlan := rfl

/-! ### `takeHost` -/

@[simp] theorem takeHost_cfg (k : Nat) (s : State) : (takeHost k s).cfg = s.cfg := rfl
@[simp] theorem takeHost_att (k : Nat) (s : State) : (takeHost k s).att = s.att := rfl
@[simp] theorem takeHost_csOe (k : Nat) (s : State) : (takeHost k s).csOe = s.csOe := rfl
@[simp] theorem takeHost_csN (k : Nat) (s : State) : (takeHost k s).csN = s.csN := rfl
@[simp] theorem takeHost_busInit (k : Nat) (s : State) : (takeHost k s).busInit = s.busInit := rfl
@[simp] theorem takeHost_busy (k : Nat) (s : State) : (takeHost k s).busy = s.busy := rfl
@[simp] theorem takeHost_resCode (k : Nat) (s : State) : (takeHost k s).resCode = s.resCode := rfl
@[simp] theorem takeHost_resHandle (k : Nat) (s : State) : (takeHost k s).resHandle = s.resHandle := rfl
@[simp] theorem takeHost_infoMfr (k : Nat) (s : State) : (takeHost k s).infoMfr = s.infoMfr := rfl
@[simp] theorem takeHost_infoDev (k : Nat) (s : State) : (takeHost k s).infoDev = s.infoDev := rfl
@[simp] theorem takeHost_infoSize (k : Nat) (s : State) : (takeHost k s).infoSize = s.infoSize := rfl
@[simp] theorem takeHost_infoDesc (k : Nat) (s : State) : (takeHost k s).infoDesc = s.infoDesc := rfl
@[simp] theorem takeHost_rdata (k : Nat) (s : State) : (takeHost k s).rdata = s.rdata := rfl
@[simp] theorem takeHost_wdata (k : Nat) (s : State) : (takeHost k s).wdata = s.wdata.drop k := rfl
@[simp] theorem takeHost_fsm (k : Nat) (s : State) : (takeHost k s).fsm = s.fsm := rfl
@[simp] theorem takeHost_op (k : Nat) (s : State) : (takeHost k s).op = s.op := rfl
@[simp] theorem takeHost_sel (k : Nat) (s : State) : (takeHost k s).sel = s.sel := rfl
@[simp] theorem takeHost_addr (k : Nat) (s : State) : (takeHost k s).addr = s.addr := rfl
@[simp] theorem takeHost_len (k : Nat) (s : State) : (takeHost k s).len = s.len := rfl
@[simp] theorem takeHost_csCur (k : Nat) (s : State) : (takeHost k s).csCur = s.csCur := rfl
@[simp] theorem takeHost_cur (k : Nat) (s : State) : (takeHost k s).cur = s.cur := rfl
@[simp] theorem takeHost_rem (k : Nat) (s : State) : (takeHost k s).rem = s.rem := rfl
@[simp] theorem takeHost_off (k : Nat) (s : State) : (takeHost k s).off = s.off := rfl
@[simp] theorem takeHost_k (k : Nat) (s : State) : (takeHost k s).k = s.k := rfl
@[simp] theorem takeHost_endAddr (k : Nat) (s : State) : (takeHost k s).endAddr = s.endAddr := rfl
@[simp] theorem takeHost_stat (k : Nat) (s : State) : (takeHost k s).stat = s.stat := rfl
@[simp] theorem takeHost_idbuf (k : Nat) (s : State) : (takeHost k s).idbuf = s.idbuf := rfl
@[simp] theorem takeHost_polls (k : Nat) (s : State) : (takeHost k s).polls = s.polls := rfl
@[simp] theorem takeHost_trace (k : Nat) (s : State) : (takeHost k s).trace = s.trace := rfl
@[simp] theorem takeHost_env (k : Nat) (s : State) : (takeHost k s).env = s.env := rfl
@[simp] theorem takeHost_requests (k : Nat) (s : State) : (takeHost k s).requests = s.requests := rfl
@[simp] theorem takeHost_freeHost (k : Nat) (s : State) : (takeHost k s).freeHost = s.freeHost + (k - s.wdata.length) := rfl
@[simp] theorem takeHost_resetPlan (k : Nat) (s : State) : (takeHost k s).resetPlan = s.resetPlan := rfl

/-! ### `writeInfo` -/

@[simp] theorem writeInfo_cfg (d : ChipDescriptor) (s : State) : (writeInfo d s).cfg = s.cfg := rfl
@[simp] theorem writeInfo_att (d : ChipDescriptor) (s : State) : (writeInfo d s).att = s.att := rfl
@[simp] theorem writeInfo_csOe (d : ChipDescriptor) (s : State) : (writeInfo d s).csOe = s.csOe := rfl
@[simp] theorem writeInfo_csN (d : ChipDescriptor) (s : State) : (writeInfo d s).csN = s.csN := rfl
@[simp] theorem writeInfo_busInit (d : ChipDescriptor) (s : State) : (writeInfo d s).busInit = s.busInit := rfl
@[simp] theorem writeInfo_busy (d : ChipDescriptor) (s : State) : (writeInfo d s).busy = s.busy := rfl
@[simp] theorem writeInfo_resCode (d : ChipDescriptor) (s : State) : (writeInfo d s).resCode = s.resCode := rfl
@[simp] theorem writeInfo_resHandle (d : ChipDescriptor) (s : State) : (writeInfo d s).resHandle = s.resHandle := rfl
@[simp] theorem writeInfo_infoMfr (d : ChipDescriptor) (s : State) : (writeInfo d s).infoMfr = d.mfr := rfl
@[simp] theorem writeInfo_infoDev (d : ChipDescriptor) (s : State) : (writeInfo d s).infoDev = d.dev := rfl
@[simp] theorem writeInfo_infoSize (d : ChipDescriptor) (s : State) : (writeInfo d s).infoSize = d.size := rfl
@[simp] theorem writeInfo_infoDesc (d : ChipDescriptor) (s : State) : (writeInfo d s).infoDesc = d.desc := rfl
@[simp] theorem writeInfo_rdata (d : ChipDescriptor) (s : State) : (writeInfo d s).rdata = s.rdata := rfl
@[simp] theorem writeInfo_wdata (d : ChipDescriptor) (s : State) : (writeInfo d s).wdata = s.wdata := rfl
@[simp] theorem writeInfo_fsm (d : ChipDescriptor) (s : State) : (writeInfo d s).fsm = s.fsm := rfl
@[simp] theorem writeInfo_op (d : ChipDescriptor) (s : State) : (writeInfo d s).op = s.op := rfl
@[simp] theorem writeInfo_sel (d : ChipDescriptor) (s : State) : (writeInfo d s).sel = s.sel := rfl
@[simp] theorem writeInfo_addr (d : ChipDescriptor) (s : State) : (writeInfo d s).addr = s.addr := rfl
@[simp] theorem writeInfo_len (d : ChipDescriptor) (s : State) : (writeInfo d s).len = s.len := rfl
@[simp] theorem writeInfo_csCur (d : ChipDescriptor) (s : State) : (writeInfo d s).csCur = s.csCur := rfl
@[simp] theorem writeInfo_cur (d : ChipDescriptor) (s : State) : (writeInfo d s).cur = s.cur := rfl
@[simp] theorem writeInfo_rem (d : ChipDescriptor) (s : State) : (writeInfo d s).rem = s.rem := rfl
@[simp] theorem writeInfo_off (d : ChipDescriptor) (s : State) : (writeInfo d s).off = s.off := rfl
@[simp] theorem writeInfo_k (d : ChipDescriptor) (s : State) : (writeInfo d s).k = s.k := rfl
@[simp] theorem writeInfo_endAddr (d : ChipDescriptor) (s : State) : (writeInfo d s).endAddr = s.endAddr := rfl
@[simp] theorem writeInfo_stat (d : ChipDescriptor) (s : State) : (writeInfo d s).stat = s.stat := rfl
@[simp] theorem writeInfo_idbuf (d : ChipDescriptor) (s : State) : (writeInfo d s).idbuf = s.idbuf := rfl
@[simp] theorem writeInfo_polls (d : ChipDescriptor) (s : State) : (writeInfo d s).polls = s.polls := rfl
@[simp] theorem writeInfo_trace (d : ChipDescriptor) (s : State) : (writeInfo d s).trace = s.trace := rfl
@[simp] theorem writeInfo_env (d : ChipDescriptor) (s : State) : (writeInfo d s).env = s.env := rfl
@[simp] theorem writeInfo_requests (d : ChipDescriptor) (s : State) : (writeInfo d s).requests = s.requests := rfl
@[simp] theorem writeInfo_freeHost (d : ChipDescriptor) (s : State) : (writeInfo d s).freeHost = s.freeHost := rfl
@[simp] theorem writeInfo_resetPlan (d : ChipDescriptor) (s : State) : (writeInfo d s).resetPlan = s.resetPlan := rfl

/-! ### `claimRange` -/

@[simp] theorem claimRange_cfg (s : State) : (claimRange s).cfg = s.cfg := rfl
@[simp] theorem claimRange_att (s : State) : (claimRange s).att = s.att := rfl
@[simp] theorem claimRange_csOe (s : State) : (claimRange s).csOe = s.csOe := rfl
@[simp] theorem claimRange_csN (s : State) : (claimRange s).csN = s.csN := rfl
@[simp] theorem claimRange_busInit (s : State) : (claimRange s).busInit = s.busInit := rfl
@[simp] theorem claimRange_busy (s : State) : (claimRange s).busy = s.busy := rfl
@[simp] theorem claimRange_resCode (s : State) : (claimRange s).resCode = s.resCode := rfl
@[simp] theorem claimRange_resHandle (s : State) : (claimRange s).resHandle = s.resHandle := rfl
@[simp] theorem claimRange_infoMfr (s : State) : (claimRange s).infoMfr = s.infoMfr := rfl
@[simp] theorem claimRange_infoDev (s : State) : (claimRange s).infoDev = s.infoDev := rfl
@[simp] theorem claimRange_infoSize (s : State) : (claimRange s).infoSize = s.infoSize := rfl
@[simp] theorem claimRange_infoDesc (s : State) : (claimRange s).infoDesc = s.infoDesc := rfl
@[simp] theorem claimRange_rdata (s : State) : (claimRange s).rdata = s.rdata := rfl
@[simp] theorem claimRange_wdata (s : State) : (claimRange s).wdata = s.wdata := rfl
@[simp] theorem claimRange_fsm (s : State) : (claimRange s).fsm = s.fsm := rfl
@[simp] theorem claimRange_op (s : State) : (claimRange s).op = s.op := rfl
@[simp] theorem claimRange_sel (s : State) : (claimRange s).sel = s.sel := rfl
@[simp] theorem claimRange_addr (s : State) : (claimRange s).addr = s.addr := rfl
@[simp] theorem claimRange_len (s : State) : (claimRange s).len = s.len := rfl
@[simp] theorem claimRange_csCur (s : State) : (claimRange s).csCur = s.csCur := rfl
@[simp] theorem claimRange_cur (s : State) : (claimRange s).cur = s.cur := rfl
@[simp] theorem claimRange_rem (s : State) : (claimRange s).rem = s.rem := rfl
@[simp] theorem claimRange_off (s : State) : (claimRange s).off = s.off := rfl
@[simp] theorem claimRange_k (s : State) : (claimRange s).k = s.k := rfl
@[simp] theorem claimRange_endAddr (s : State) : (claimRange s).endAddr = s.endAddr := rfl
@[simp] theorem claimRange_stat (s : State) : (claimRange s).stat = s.stat := rfl
@[simp] theorem claimRange_idbuf (s : State) : (claimRange s).idbuf = s.idbuf := rfl
@[simp] theorem claimRange_polls (s : State) : (claimRange s).polls = s.polls := rfl
@[simp] theorem claimRange_trace (s : State) : (claimRange s).trace = s.trace := rfl
@[simp] theorem claimRange_env (s : State) : (claimRange s).env = s.env.claim s.csCur s.addr s.len := rfl
@[simp] theorem claimRange_requests (s : State) : (claimRange s).requests = s.requests := rfl
@[simp] theorem claimRange_freeHost (s : State) : (claimRange s).freeHost = s.freeHost := rfl
@[simp] theorem claimRange_resetPlan (s : State) : (claimRange s).resetPlan = s.resetPlan := rfl

/-! ### `chooseLine` -/

@[simp] theorem chooseLine_cfg (c : Byte) (s : State) : (chooseLine c s).cfg = s.cfg := rfl
@[simp] theorem chooseLine_att (c : Byte) (s : State) : (chooseLine c s).att = s.att := rfl
@[simp] theorem chooseLine_csOe (c : Byte) (s : State) : (chooseLine c s).csOe = s.csOe := rfl
@[simp] theorem chooseLine_csN (c : Byte) (s : State) : (chooseLine c s).csN = s.csN := rfl
@[simp] theorem chooseLine_busInit (c : Byte) (s : State) : (chooseLine c s).busInit = s.busInit := rfl
@[simp] theorem chooseLine_busy (c : Byte) (s : State) : (chooseLine c s).busy = s.busy := rfl
@[simp] theorem chooseLine_resCode (c : Byte) (s : State) : (chooseLine c s).resCode = s.resCode := rfl
@[simp] theorem chooseLine_resHandle (c : Byte) (s : State) : (chooseLine c s).resHandle = s.resHandle := rfl
@[simp] theorem chooseLine_infoMfr (c : Byte) (s : State) : (chooseLine c s).infoMfr = s.infoMfr := rfl
@[simp] theorem chooseLine_infoDev (c : Byte) (s : State) : (chooseLine c s).infoDev = s.infoDev := rfl
@[simp] theorem chooseLine_infoSize (c : Byte) (s : State) : (chooseLine c s).infoSize = s.infoSize := rfl
@[simp] theorem chooseLine_infoDesc (c : Byte) (s : State) : (chooseLine c s).infoDesc = s.infoDesc := rfl
@[simp] theorem chooseLine_rdata (c : Byte) (s : State) : (chooseLine c s).rdata = s.rdata := rfl
@[simp] theorem chooseLine_wdata (c : Byte) (s : State) : (chooseLine c s).wdata = s.wdata := rfl
@[simp] theorem chooseLine_fsm (c : Byte) (s : State) : (chooseLine c s).fsm = s.fsm := rfl
@[simp] theorem chooseLine_op (c : Byte) (s : State) : (chooseLine c s).op = s.op := rfl
@[simp] theorem chooseLine_sel (c : Byte) (s : State) : (chooseLine c s).sel = s.sel := rfl
@[simp] theorem chooseLine_addr (c : Byte) (s : State) : (chooseLine c s).addr = s.addr := rfl
@[simp] theorem chooseLine_len (c : Byte) (s : State) : (chooseLine c s).len = s.len := rfl
@[simp] theorem chooseLine_csCur (c : Byte) (s : State) : (chooseLine c s).csCur = c := rfl
@[simp] theorem chooseLine_cur (c : Byte) (s : State) : (chooseLine c s).cur = s.cur := rfl
@[simp] theorem chooseLine_rem (c : Byte) (s : State) : (chooseLine c s).rem = s.rem := rfl
@[simp] theorem chooseLine_off (c : Byte) (s : State) : (chooseLine c s).off = s.off := rfl
@[simp] theorem chooseLine_k (c : Byte) (s : State) : (chooseLine c s).k = s.k := rfl
@[simp] theorem chooseLine_endAddr (c : Byte) (s : State) : (chooseLine c s).endAddr = s.endAddr := rfl
@[simp] theorem chooseLine_stat (c : Byte) (s : State) : (chooseLine c s).stat = s.stat := rfl
@[simp] theorem chooseLine_idbuf (c : Byte) (s : State) : (chooseLine c s).idbuf = s.idbuf := rfl
@[simp] theorem chooseLine_polls (c : Byte) (s : State) : (chooseLine c s).polls = s.polls := rfl
@[simp] theorem chooseLine_trace (c : Byte) (s : State) : (chooseLine c s).trace = s.trace := rfl
@[simp] theorem chooseLine_env (c : Byte) (s : State) : (chooseLine c s).env = s.env := rfl
@[simp] theorem chooseLine_requests (c : Byte) (s : State) : (chooseLine c s).requests = s.requests := rfl
@[simp] theorem chooseLine_freeHost (c : Byte) (s : State) : (chooseLine c s).freeHost = s.freeHost := rfl
@[simp] theorem chooseLine_resetPlan (c : Byte) (s : State) : (chooseLine c s).resetPlan = s.resetPlan := rfl

/-! ### `setPolls` -/

@[simp] theorem setPolls_cfg (n : Nat) (s : State) : (setPolls n s).cfg = s.cfg := rfl
@[simp] theorem setPolls_att (n : Nat) (s : State) : (setPolls n s).att = s.att := rfl
@[simp] theorem setPolls_csOe (n : Nat) (s : State) : (setPolls n s).csOe = s.csOe := rfl
@[simp] theorem setPolls_csN (n : Nat) (s : State) : (setPolls n s).csN = s.csN := rfl
@[simp] theorem setPolls_busInit (n : Nat) (s : State) : (setPolls n s).busInit = s.busInit := rfl
@[simp] theorem setPolls_busy (n : Nat) (s : State) : (setPolls n s).busy = s.busy := rfl
@[simp] theorem setPolls_resCode (n : Nat) (s : State) : (setPolls n s).resCode = s.resCode := rfl
@[simp] theorem setPolls_resHandle (n : Nat) (s : State) : (setPolls n s).resHandle = s.resHandle := rfl
@[simp] theorem setPolls_infoMfr (n : Nat) (s : State) : (setPolls n s).infoMfr = s.infoMfr := rfl
@[simp] theorem setPolls_infoDev (n : Nat) (s : State) : (setPolls n s).infoDev = s.infoDev := rfl
@[simp] theorem setPolls_infoSize (n : Nat) (s : State) : (setPolls n s).infoSize = s.infoSize := rfl
@[simp] theorem setPolls_infoDesc (n : Nat) (s : State) : (setPolls n s).infoDesc = s.infoDesc := rfl
@[simp] theorem setPolls_rdata (n : Nat) (s : State) : (setPolls n s).rdata = s.rdata := rfl
@[simp] theorem setPolls_wdata (n : Nat) (s : State) : (setPolls n s).wdata = s.wdata := rfl
@[simp] theorem setPolls_fsm (n : Nat) (s : State) : (setPolls n s).fsm = s.fsm := rfl
@[simp] theorem setPolls_op (n : Nat) (s : State) : (setPolls n s).op = s.op := rfl
@[simp] theorem setPolls_sel (n : Nat) (s : State) : (setPolls n s).sel = s.sel := rfl
@[simp] theorem setPolls_addr (n : Nat) (s : State) : (setPolls n s).addr = s.addr := rfl
@[simp] theorem setPolls_len (n : Nat) (s : State) : (setPolls n s).len = s.len := rfl
@[simp] theorem setPolls_csCur (n : Nat) (s : State) : (setPolls n s).csCur = s.csCur := rfl
@[simp] theorem setPolls_cur (n : Nat) (s : State) : (setPolls n s).cur = s.cur := rfl
@[simp] theorem setPolls_rem (n : Nat) (s : State) : (setPolls n s).rem = s.rem := rfl
@[simp] theorem setPolls_off (n : Nat) (s : State) : (setPolls n s).off = s.off := rfl
@[simp] theorem setPolls_k (n : Nat) (s : State) : (setPolls n s).k = s.k := rfl
@[simp] theorem setPolls_endAddr (n : Nat) (s : State) : (setPolls n s).endAddr = s.endAddr := rfl
@[simp] theorem setPolls_stat (n : Nat) (s : State) : (setPolls n s).stat = s.stat := rfl
@[simp] theorem setPolls_idbuf (n : Nat) (s : State) : (setPolls n s).idbuf = s.idbuf := rfl
@[simp] theorem setPolls_polls (n : Nat) (s : State) : (setPolls n s).polls = n := rfl
@[simp] theorem setPolls_trace (n : Nat) (s : State) : (setPolls n s).trace = s.trace := rfl
@[simp] theorem setPolls_env (n : Nat) (s : State) : (setPolls n s).env = s.env := rfl
@[simp] theorem setPolls_requests (n : Nat) (s : State) : (setPolls n s).requests = s.requests := rfl
@[simp] theorem setPolls_freeHost (n : Nat) (s : State) : (setPolls n s).freeHost = s.freeHost := rfl
@[simp] theorem setPolls_resetPlan (n : Nat) (s : State) : (setPolls n s).resetPlan = s.resetPlan := rfl

/-! ### `appendEntry` -/

@[simp] theorem appendEntry_cfg (c : Byte) (r : Nat) (s : State) : (appendEntry c r s).cfg = s.cfg := rfl
@[simp] theorem appendEntry_att (c : Byte) (r : Nat) (s : State) : (appendEntry c r s).att = s.att ++ [⟨c, r⟩] := rfl
@[simp] theorem appendEntry_csOe (c : Byte) (r : Nat) (s : State) : (appendEntry c r s).csOe = s.csOe := rfl
@[simp] theorem appendEntry_csN (c : Byte) (r : Nat) (s : State) : (appendEntry c r s).csN = s.csN := rfl
@[simp] theorem appendEntry_busInit (c : Byte) (r : Nat) (s : State) : (appendEntry c r s).busInit = s.busInit := rfl
@[simp] theorem appendEntry_busy (c : Byte) (r : Nat) (s : State) : (appendEntry c r s).busy = s.busy := rfl
@[simp] theorem appendEntry_resCode (c : Byte) (r : Nat) (s : State) : (appendEntry c r s).resCode = s.resCode := rfl
@[simp] theorem appendEntry_resHandle (c : Byte) (r : Nat) (s : State) : (appendEntry c r s).resHandle = BitVec.ofNat 8 s.attCount := rfl
@[simp] theorem appendEntry_infoMfr (c : Byte) (r : Nat) (s : State) : (appendEntry c r s).infoMfr = s.infoMfr := rfl
@[simp] theorem appendEntry_infoDev (c : Byte) (r : Nat) (s : State) : (appendEntry c r s).infoDev = s.infoDev := rfl
@[simp] theorem appendEntry_infoSize (c : Byte) (r : Nat) (s : State) : (appendEntry c r s).infoSize = s.infoSize := rfl
@[simp] theorem appendEntry_infoDesc (c : Byte) (r : Nat) (s : State) : (appendEntry c r s).infoDesc = s.infoDesc := rfl
@[simp] theorem appendEntry_rdata (c : Byte) (r : Nat) (s : State) : (appendEntry c r s).rdata = s.rdata := rfl
@[simp] theorem appendEntry_wdata (c : Byte) (r : Nat) (s : State) : (appendEntry c r s).wdata = s.wdata := rfl
@[simp] theorem appendEntry_fsm (c : Byte) (r : Nat) (s : State) : (appendEntry c r s).fsm = s.fsm := rfl
@[simp] theorem appendEntry_op (c : Byte) (r : Nat) (s : State) : (appendEntry c r s).op = s.op := rfl
@[simp] theorem appendEntry_sel (c : Byte) (r : Nat) (s : State) : (appendEntry c r s).sel = s.sel := rfl
@[simp] theorem appendEntry_addr (c : Byte) (r : Nat) (s : State) : (appendEntry c r s).addr = s.addr := rfl
@[simp] theorem appendEntry_len (c : Byte) (r : Nat) (s : State) : (appendEntry c r s).len = s.len := rfl
@[simp] theorem appendEntry_csCur (c : Byte) (r : Nat) (s : State) : (appendEntry c r s).csCur = s.csCur := rfl
@[simp] theorem appendEntry_cur (c : Byte) (r : Nat) (s : State) : (appendEntry c r s).cur = s.cur := rfl
@[simp] theorem appendEntry_rem (c : Byte) (r : Nat) (s : State) : (appendEntry c r s).rem = s.rem := rfl
@[simp] theorem appendEntry_off (c : Byte) (r : Nat) (s : State) : (appendEntry c r s).off = s.off := rfl
@[simp] theorem appendEntry_k (c : Byte) (r : Nat) (s : State) : (appendEntry c r s).k = s.k := rfl
@[simp] theorem appendEntry_endAddr (c : Byte) (r : Nat) (s : State) : (appendEntry c r s).endAddr = s.endAddr := rfl
@[simp] theorem appendEntry_stat (c : Byte) (r : Nat) (s : State) : (appendEntry c r s).stat = s.stat := rfl
@[simp] theorem appendEntry_idbuf (c : Byte) (r : Nat) (s : State) : (appendEntry c r s).idbuf = s.idbuf := rfl
@[simp] theorem appendEntry_polls (c : Byte) (r : Nat) (s : State) : (appendEntry c r s).polls = s.polls := rfl
@[simp] theorem appendEntry_trace (c : Byte) (r : Nat) (s : State) : (appendEntry c r s).trace = s.trace := rfl
@[simp] theorem appendEntry_env (c : Byte) (r : Nat) (s : State) : (appendEntry c r s).env = s.env := rfl
@[simp] theorem appendEntry_requests (c : Byte) (r : Nat) (s : State) : (appendEntry c r s).requests = s.requests := rfl
@[simp] theorem appendEntry_freeHost (c : Byte) (r : Nat) (s : State) : (appendEntry c r s).freeHost = s.freeHost := rfl
@[simp] theorem appendEntry_resetPlan (c : Byte) (r : Nat) (s : State) : (appendEntry c r s).resetPlan = s.resetPlan := rfl

/-! ### `firstChunk` -/

@[simp] theorem firstChunk_cfg (s : State) : (firstChunk s).cfg = s.cfg := rfl
@[simp] theorem firstChunk_att (s : State) : (firstChunk s).att = s.att := rfl
@[simp] theorem firstChunk_csOe (s : State) : (firstChunk s).csOe = s.csOe := rfl
@[simp] theorem firstChunk_csN (s : State) : (firstChunk s).csN = s.csN := rfl
@[simp] theorem firstChunk_busInit (s : State) : (firstChunk s).busInit = s.busInit := rfl
@[simp] theorem firstChunk_busy (s : State) : (firstChunk s).busy = s.busy := rfl
@[simp] theorem firstChunk_resCode (s : State) : (firstChunk s).resCode = s.resCode := rfl
@[simp] theorem firstChunk_resHandle (s : State) : (firstChunk s).resHandle = s.resHandle := rfl
@[simp] theorem firstChunk_infoMfr (s : State) : (firstChunk s).infoMfr = s.infoMfr := rfl
@[simp] theorem firstChunk_infoDev (s : State) : (firstChunk s).infoDev = s.infoDev := rfl
@[simp] theorem firstChunk_infoSize (s : State) : (firstChunk s).infoSize = s.infoSize := rfl
@[simp] theorem firstChunk_infoDesc (s : State) : (firstChunk s).infoDesc = s.infoDesc := rfl
@[simp] theorem firstChunk_rdata (s : State) : (firstChunk s).rdata = s.rdata := rfl
@[simp] theorem firstChunk_wdata (s : State) : (firstChunk s).wdata = s.wdata := rfl
@[simp] theorem firstChunk_fsm (s : State) : (firstChunk s).fsm = s.fsm := rfl
@[simp] theorem firstChunk_op (s : State) : (firstChunk s).op = s.op := rfl
@[simp] theorem firstChunk_sel (s : State) : (firstChunk s).sel = s.sel := rfl
@[simp] theorem firstChunk_addr (s : State) : (firstChunk s).addr = s.addr := rfl
@[simp] theorem firstChunk_len (s : State) : (firstChunk s).len = s.len := rfl
@[simp] theorem firstChunk_csCur (s : State) : (firstChunk s).csCur = s.csCur := rfl
@[simp] theorem firstChunk_cur (s : State) : (firstChunk s).cur = s.addr.toNat := rfl
@[simp] theorem firstChunk_rem (s : State) : (firstChunk s).rem = s.len := rfl
@[simp] theorem firstChunk_off (s : State) : (firstChunk s).off = 0 := rfl
@[simp] theorem firstChunk_k (s : State) : (firstChunk s).k = s.k := rfl
@[simp] theorem firstChunk_endAddr (s : State) : (firstChunk s).endAddr = s.endAddr := rfl
@[simp] theorem firstChunk_stat (s : State) : (firstChunk s).stat = s.stat := rfl
@[simp] theorem firstChunk_idbuf (s : State) : (firstChunk s).idbuf = s.idbuf := rfl
@[simp] theorem firstChunk_polls (s : State) : (firstChunk s).polls = s.polls := rfl
@[simp] theorem firstChunk_trace (s : State) : (firstChunk s).trace = s.trace := rfl
@[simp] theorem firstChunk_env (s : State) : (firstChunk s).env = s.env := rfl
@[simp] theorem firstChunk_requests (s : State) : (firstChunk s).requests = s.requests := rfl
@[simp] theorem firstChunk_freeHost (s : State) : (firstChunk s).freeHost = s.freeHost := rfl
@[simp] theorem firstChunk_resetPlan (s : State) : (firstChunk s).resetPlan = s.resetPlan := rfl

/-! ### `measureChunk` -/

@[simp] theorem measureChunk_cfg (s : State) : (measureChunk s).cfg = s.cfg := rfl
@[simp] theorem measureChunk_att (s : State) : (measureChunk s).att = s.att := rfl
@[simp] theorem measureChunk_csOe (s : State) : (measureChunk s).csOe = s.csOe := rfl
@[simp] theorem measureChunk_csN (s : State) : (measureChunk s).csN = s.csN := rfl
@[simp] theorem measureChunk_busInit (s : State) : (measureChunk s).busInit = s.busInit := rfl
@[simp] theorem measureChunk_busy (s : State) : (measureChunk s).busy = s.busy := rfl
@[simp] theorem measureChunk_resCode (s : State) : (measureChunk s).resCode = s.resCode := rfl
@[simp] theorem measureChunk_resHandle (s : State) : (measureChunk s).resHandle = s.resHandle := rfl
@[simp] theorem measureChunk_infoMfr (s : State) : (measureChunk s).infoMfr = s.infoMfr := rfl
@[simp] theorem measureChunk_infoDev (s : State) : (measureChunk s).infoDev = s.infoDev := rfl
@[simp] theorem measureChunk_infoSize (s : State) : (measureChunk s).infoSize = s.infoSize := rfl
@[simp] theorem measureChunk_infoDesc (s : State) : (measureChunk s).infoDesc = s.infoDesc := rfl
@[simp] theorem measureChunk_rdata (s : State) : (measureChunk s).rdata = s.rdata := rfl
@[simp] theorem measureChunk_wdata (s : State) : (measureChunk s).wdata = s.wdata := rfl
@[simp] theorem measureChunk_fsm (s : State) : (measureChunk s).fsm = s.fsm := rfl
@[simp] theorem measureChunk_op (s : State) : (measureChunk s).op = s.op := rfl
@[simp] theorem measureChunk_sel (s : State) : (measureChunk s).sel = s.sel := rfl
@[simp] theorem measureChunk_addr (s : State) : (measureChunk s).addr = s.addr := rfl
@[simp] theorem measureChunk_len (s : State) : (measureChunk s).len = s.len := rfl
@[simp] theorem measureChunk_csCur (s : State) : (measureChunk s).csCur = s.csCur := rfl
@[simp] theorem measureChunk_cur (s : State) : (measureChunk s).cur = s.cur := rfl
@[simp] theorem measureChunk_rem (s : State) : (measureChunk s).rem = s.rem := rfl
@[simp] theorem measureChunk_off (s : State) : (measureChunk s).off = s.off := rfl
@[simp] theorem measureChunk_k (s : State) : (measureChunk s).k = chunkLen s.rem := rfl
@[simp] theorem measureChunk_endAddr (s : State) : (measureChunk s).endAddr = s.endAddr := rfl
@[simp] theorem measureChunk_stat (s : State) : (measureChunk s).stat = s.stat := rfl
@[simp] theorem measureChunk_idbuf (s : State) : (measureChunk s).idbuf = s.idbuf := rfl
@[simp] theorem measureChunk_polls (s : State) : (measureChunk s).polls = s.polls := rfl
@[simp] theorem measureChunk_trace (s : State) : (measureChunk s).trace = s.trace := rfl
@[simp] theorem measureChunk_env (s : State) : (measureChunk s).env = s.env := rfl
@[simp] theorem measureChunk_requests (s : State) : (measureChunk s).requests = s.requests := rfl
@[simp] theorem measureChunk_freeHost (s : State) : (measureChunk s).freeHost = s.freeHost := rfl
@[simp] theorem measureChunk_resetPlan (s : State) : (measureChunk s).resetPlan = s.resetPlan := rfl

/-! ### `nextChunk` -/

@[simp] theorem nextChunk_cfg (s : State) : (nextChunk s).cfg = s.cfg := rfl
@[simp] theorem nextChunk_att (s : State) : (nextChunk s).att = s.att := rfl
@[simp] theorem nextChunk_csOe (s : State) : (nextChunk s).csOe = s.csOe := rfl
@[simp] theorem nextChunk_csN (s : State) : (nextChunk s).csN = s.csN := rfl
@[simp] theorem nextChunk_busInit (s : State) : (nextChunk s).busInit = s.busInit := rfl
@[simp] theorem nextChunk_busy (s : State) : (nextChunk s).busy = s.busy := rfl
@[simp] theorem nextChunk_resCode (s : State) : (nextChunk s).resCode = s.resCode := rfl
@[simp] theorem nextChunk_resHandle (s : State) : (nextChunk s).resHandle = s.resHandle := rfl
@[simp] theorem nextChunk_infoMfr (s : State) : (nextChunk s).infoMfr = s.infoMfr := rfl
@[simp] theorem nextChunk_infoDev (s : State) : (nextChunk s).infoDev = s.infoDev := rfl
@[simp] theorem nextChunk_infoSize (s : State) : (nextChunk s).infoSize = s.infoSize := rfl
@[simp] theorem nextChunk_infoDesc (s : State) : (nextChunk s).infoDesc = s.infoDesc := rfl
@[simp] theorem nextChunk_rdata (s : State) : (nextChunk s).rdata = s.rdata := rfl
@[simp] theorem nextChunk_wdata (s : State) : (nextChunk s).wdata = s.wdata := rfl
@[simp] theorem nextChunk_fsm (s : State) : (nextChunk s).fsm = s.fsm := rfl
@[simp] theorem nextChunk_op (s : State) : (nextChunk s).op = s.op := rfl
@[simp] theorem nextChunk_sel (s : State) : (nextChunk s).sel = s.sel := rfl
@[simp] theorem nextChunk_addr (s : State) : (nextChunk s).addr = s.addr := rfl
@[simp] theorem nextChunk_len (s : State) : (nextChunk s).len = s.len := rfl
@[simp] theorem nextChunk_csCur (s : State) : (nextChunk s).csCur = s.csCur := rfl
@[simp] theorem nextChunk_cur (s : State) : (nextChunk s).cur = s.cur + Config.pageSize := rfl
@[simp] theorem nextChunk_rem (s : State) : (nextChunk s).rem = s.rem - s.k.setWidth 32 := rfl
@[simp] theorem nextChunk_off (s : State) : (nextChunk s).off = s.off + s.k.setWidth 32 := rfl
@[simp] theorem nextChunk_k (s : State) : (nextChunk s).k = s.k := rfl
@[simp] theorem nextChunk_endAddr (s : State) : (nextChunk s).endAddr = s.endAddr := rfl
@[simp] theorem nextChunk_stat (s : State) : (nextChunk s).stat = s.stat := rfl
@[simp] theorem nextChunk_idbuf (s : State) : (nextChunk s).idbuf = s.idbuf := rfl
@[simp] theorem nextChunk_polls (s : State) : (nextChunk s).polls = s.polls := rfl
@[simp] theorem nextChunk_trace (s : State) : (nextChunk s).trace = s.trace := rfl
@[simp] theorem nextChunk_env (s : State) : (nextChunk s).env = s.env := rfl
@[simp] theorem nextChunk_requests (s : State) : (nextChunk s).requests = s.requests := rfl
@[simp] theorem nextChunk_freeHost (s : State) : (nextChunk s).freeHost = s.freeHost := rfl
@[simp] theorem nextChunk_resetPlan (s : State) : (nextChunk s).resetPlan = s.resetPlan := rfl

/-! ### `firstSubsector` -/

@[simp] theorem firstSubsector_cfg (s : State) : (firstSubsector s).cfg = s.cfg := rfl
@[simp] theorem firstSubsector_att (s : State) : (firstSubsector s).att = s.att := rfl
@[simp] theorem firstSubsector_csOe (s : State) : (firstSubsector s).csOe = s.csOe := rfl
@[simp] theorem firstSubsector_csN (s : State) : (firstSubsector s).csN = s.csN := rfl
@[simp] theorem firstSubsector_busInit (s : State) : (firstSubsector s).busInit = s.busInit := rfl
@[simp] theorem firstSubsector_busy (s : State) : (firstSubsector s).busy = s.busy := rfl
@[simp] theorem firstSubsector_resCode (s : State) : (firstSubsector s).resCode = s.resCode := rfl
@[simp] theorem firstSubsector_resHandle (s : State) : (firstSubsector s).resHandle = s.resHandle := rfl
@[simp] theorem firstSubsector_infoMfr (s : State) : (firstSubsector s).infoMfr = s.infoMfr := rfl
@[simp] theorem firstSubsector_infoDev (s : State) : (firstSubsector s).infoDev = s.infoDev := rfl
@[simp] theorem firstSubsector_infoSize (s : State) : (firstSubsector s).infoSize = s.infoSize := rfl
@[simp] theorem firstSubsector_infoDesc (s : State) : (firstSubsector s).infoDesc = s.infoDesc := rfl
@[simp] theorem firstSubsector_rdata (s : State) : (firstSubsector s).rdata = s.rdata := rfl
@[simp] theorem firstSubsector_wdata (s : State) : (firstSubsector s).wdata = s.wdata := rfl
@[simp] theorem firstSubsector_fsm (s : State) : (firstSubsector s).fsm = s.fsm := rfl
@[simp] theorem firstSubsector_op (s : State) : (firstSubsector s).op = s.op := rfl
@[simp] theorem firstSubsector_sel (s : State) : (firstSubsector s).sel = s.sel := rfl
@[simp] theorem firstSubsector_addr (s : State) : (firstSubsector s).addr = s.addr := rfl
@[simp] theorem firstSubsector_len (s : State) : (firstSubsector s).len = s.len := rfl
@[simp] theorem firstSubsector_csCur (s : State) : (firstSubsector s).csCur = s.csCur := rfl
@[simp] theorem firstSubsector_cur (s : State) : (firstSubsector s).cur = alignDown s.addr.toNat := rfl
@[simp] theorem firstSubsector_rem (s : State) : (firstSubsector s).rem = s.rem := rfl
@[simp] theorem firstSubsector_off (s : State) : (firstSubsector s).off = s.off := rfl
@[simp] theorem firstSubsector_k (s : State) : (firstSubsector s).k = s.k := rfl
@[simp] theorem firstSubsector_endAddr (s : State) : (firstSubsector s).endAddr = rangeEnd s.addr.toNat s.len.toNat := rfl
@[simp] theorem firstSubsector_stat (s : State) : (firstSubsector s).stat = s.stat := rfl
@[simp] theorem firstSubsector_idbuf (s : State) : (firstSubsector s).idbuf = s.idbuf := rfl
@[simp] theorem firstSubsector_polls (s : State) : (firstSubsector s).polls = s.polls := rfl
@[simp] theorem firstSubsector_trace (s : State) : (firstSubsector s).trace = s.trace := rfl
@[simp] theorem firstSubsector_env (s : State) : (firstSubsector s).env = s.env := rfl
@[simp] theorem firstSubsector_requests (s : State) : (firstSubsector s).requests = s.requests := rfl
@[simp] theorem firstSubsector_freeHost (s : State) : (firstSubsector s).freeHost = s.freeHost := rfl
@[simp] theorem firstSubsector_resetPlan (s : State) : (firstSubsector s).resetPlan = s.resetPlan := rfl

/-! ### `nextSubsector` -/

@[simp] theorem nextSubsector_cfg (s : State) : (nextSubsector s).cfg = s.cfg := rfl
@[simp] theorem nextSubsector_att (s : State) : (nextSubsector s).att = s.att := rfl
@[simp] theorem nextSubsector_csOe (s : State) : (nextSubsector s).csOe = s.csOe := rfl
@[simp] theorem nextSubsector_csN (s : State) : (nextSubsector s).csN = s.csN := rfl
@[simp] theorem nextSubsector_busInit (s : State) : (nextSubsector s).busInit = s.busInit := rfl
@[simp] theorem nextSubsector_busy (s : State) : (nextSubsector s).busy = s.busy := rfl
@[simp] theorem nextSubsector_resCode (s : State) : (nextSubsector s).resCode = s.resCode := rfl
@[simp] theorem nextSubsector_resHandle (s : State) : (nextSubsector s).resHandle = s.resHandle := rfl
@[simp] theorem nextSubsector_infoMfr (s : State) : (nextSubsector s).infoMfr = s.infoMfr := rfl
@[simp] theorem nextSubsector_infoDev (s : State) : (nextSubsector s).infoDev = s.infoDev := rfl
@[simp] theorem nextSubsector_infoSize (s : State) : (nextSubsector s).infoSize = s.infoSize := rfl
@[simp] theorem nextSubsector_infoDesc (s : State) : (nextSubsector s).infoDesc = s.infoDesc := rfl
@[simp] theorem nextSubsector_rdata (s : State) : (nextSubsector s).rdata = s.rdata := rfl
@[simp] theorem nextSubsector_wdata (s : State) : (nextSubsector s).wdata = s.wdata := rfl
@[simp] theorem nextSubsector_fsm (s : State) : (nextSubsector s).fsm = s.fsm := rfl
@[simp] theorem nextSubsector_op (s : State) : (nextSubsector s).op = s.op := rfl
@[simp] theorem nextSubsector_sel (s : State) : (nextSubsector s).sel = s.sel := rfl
@[simp] theorem nextSubsector_addr (s : State) : (nextSubsector s).addr = s.addr := rfl
@[simp] theorem nextSubsector_len (s : State) : (nextSubsector s).len = s.len := rfl
@[simp] theorem nextSubsector_csCur (s : State) : (nextSubsector s).csCur = s.csCur := rfl
@[simp] theorem nextSubsector_cur (s : State) : (nextSubsector s).cur = s.cur + Config.subsectorSize := rfl
@[simp] theorem nextSubsector_rem (s : State) : (nextSubsector s).rem = s.rem := rfl
@[simp] theorem nextSubsector_off (s : State) : (nextSubsector s).off = s.off := rfl
@[simp] theorem nextSubsector_k (s : State) : (nextSubsector s).k = s.k := rfl
@[simp] theorem nextSubsector_endAddr (s : State) : (nextSubsector s).endAddr = s.endAddr := rfl
@[simp] theorem nextSubsector_stat (s : State) : (nextSubsector s).stat = s.stat := rfl
@[simp] theorem nextSubsector_idbuf (s : State) : (nextSubsector s).idbuf = s.idbuf := rfl
@[simp] theorem nextSubsector_polls (s : State) : (nextSubsector s).polls = s.polls := rfl
@[simp] theorem nextSubsector_trace (s : State) : (nextSubsector s).trace = s.trace := rfl
@[simp] theorem nextSubsector_env (s : State) : (nextSubsector s).env = s.env := rfl
@[simp] theorem nextSubsector_requests (s : State) : (nextSubsector s).requests = s.requests := rfl
@[simp] theorem nextSubsector_freeHost (s : State) : (nextSubsector s).freeHost = s.freeHost := rfl
@[simp] theorem nextSubsector_resetPlan (s : State) : (nextSubsector s).resetPlan = s.resetPlan := rfl

/-! ### `delay` -/

@[simp] theorem delay_cfg (t : Wait) (s : State) : (delay t s).cfg = s.cfg := rfl
@[simp] theorem delay_att (t : Wait) (s : State) : (delay t s).att = s.att := rfl
@[simp] theorem delay_csOe (t : Wait) (s : State) : (delay t s).csOe = s.csOe := rfl
@[simp] theorem delay_csN (t : Wait) (s : State) : (delay t s).csN = s.csN := rfl
@[simp] theorem delay_busInit (t : Wait) (s : State) : (delay t s).busInit = s.busInit := rfl
@[simp] theorem delay_busy (t : Wait) (s : State) : (delay t s).busy = s.busy := rfl
@[simp] theorem delay_resCode (t : Wait) (s : State) : (delay t s).resCode = s.resCode := rfl
@[simp] theorem delay_resHandle (t : Wait) (s : State) : (delay t s).resHandle = s.resHandle := rfl
@[simp] theorem delay_infoMfr (t : Wait) (s : State) : (delay t s).infoMfr = s.infoMfr := rfl
@[simp] theorem delay_infoDev (t : Wait) (s : State) : (delay t s).infoDev = s.infoDev := rfl
@[simp] theorem delay_infoSize (t : Wait) (s : State) : (delay t s).infoSize = s.infoSize := rfl
@[simp] theorem delay_infoDesc (t : Wait) (s : State) : (delay t s).infoDesc = s.infoDesc := rfl
@[simp] theorem delay_rdata (t : Wait) (s : State) : (delay t s).rdata = s.rdata := rfl
@[simp] theorem delay_wdata (t : Wait) (s : State) : (delay t s).wdata = s.wdata := rfl
@[simp] theorem delay_fsm (t : Wait) (s : State) : (delay t s).fsm = s.fsm := rfl
@[simp] theorem delay_op (t : Wait) (s : State) : (delay t s).op = s.op := rfl
@[simp] theorem delay_sel (t : Wait) (s : State) : (delay t s).sel = s.sel := rfl
@[simp] theorem delay_addr (t : Wait) (s : State) : (delay t s).addr = s.addr := rfl
@[simp] theorem delay_len (t : Wait) (s : State) : (delay t s).len = s.len := rfl
@[simp] theorem delay_csCur (t : Wait) (s : State) : (delay t s).csCur = s.csCur := rfl
@[simp] theorem delay_cur (t : Wait) (s : State) : (delay t s).cur = s.cur := rfl
@[simp] theorem delay_rem (t : Wait) (s : State) : (delay t s).rem = s.rem := rfl
@[simp] theorem delay_off (t : Wait) (s : State) : (delay t s).off = s.off := rfl
@[simp] theorem delay_k (t : Wait) (s : State) : (delay t s).k = s.k := rfl
@[simp] theorem delay_endAddr (t : Wait) (s : State) : (delay t s).endAddr = s.endAddr := rfl
@[simp] theorem delay_stat (t : Wait) (s : State) : (delay t s).stat = s.stat := rfl
@[simp] theorem delay_idbuf (t : Wait) (s : State) : (delay t s).idbuf = s.idbuf := rfl
@[simp] theorem delay_polls (t : Wait) (s : State) : (delay t s).polls = s.polls := rfl
@[simp] theorem delay_trace (t : Wait) (s : State) : (delay t s).trace = s.trace ++ [.delay t] := rfl
@[simp] theorem delay_env (t : Wait) (s : State) : (delay t s).env = s.env := rfl
@[simp] theorem delay_requests (t : Wait) (s : State) : (delay t s).requests = s.requests := rfl
@[simp] theorem delay_freeHost (t : Wait) (s : State) : (delay t s).freeHost = s.freeHost := rfl
@[simp] theorem delay_resetPlan (t : Wait) (s : State) : (delay t s).resetPlan = s.resetPlan := rfl

/-! ### `pinInit` -/

@[simp] theorem pinInit_cfg (c : Byte) (s : State) : (pinInit c s).cfg = s.cfg := rfl
@[simp] theorem pinInit_att (c : Byte) (s : State) : (pinInit c s).att = s.att := rfl
@[simp] theorem pinInit_csOe (c : Byte) (s : State) : (pinInit c s).csOe = lineSet s.cfg.nCs s.csOe c := rfl
@[simp] theorem pinInit_csN (c : Byte) (s : State) : (pinInit c s).csN = lineSet s.cfg.nCs s.csN c := rfl
@[simp] theorem pinInit_busInit (c : Byte) (s : State) : (pinInit c s).busInit = s.busInit := rfl
@[simp] theorem pinInit_busy (c : Byte) (s : State) : (pinInit c s).busy = s.busy := rfl
@[simp] theorem pinInit_resCode (c : Byte) (s : State) : (pinInit c s).resCode = s.resCode := rfl
@[simp] theorem pinInit_resHandle (c : Byte) (s : State) : (pinInit c s).resHandle = s.resHandle := rfl
@[simp] theorem pinInit_infoMfr (c : Byte) (s : State) : (pinInit c s).infoMfr = s.infoMfr := rfl
@[simp] theorem pinInit_infoDev (c : Byte) (s : State) : (pinInit c s).infoDev = s.infoDev := rfl
@[simp] theorem pinInit_infoSize (c : Byte) (s : State) : (pinInit c s).infoSize = s.infoSize := rfl
@[simp] theorem pinInit_infoDesc (c : Byte) (s : State) : (pinInit c s).infoDesc = s.infoDesc := rfl
@[simp] theorem pinInit_rdata (c : Byte) (s : State) : (pinInit c s).rdata = s.rdata := rfl
@[simp] theorem pinInit_wdata (c : Byte) (s : State) : (pinInit c s).wdata = s.wdata := rfl
@[simp] theorem pinInit_fsm (c : Byte) (s : State) : (pinInit c s).fsm = s.fsm := rfl
@[simp] theorem pinInit_op (c : Byte) (s : State) : (pinInit c s).op = s.op := rfl
@[simp] theorem pinInit_sel (c : Byte) (s : State) : (pinInit c s).sel = s.sel := rfl
@[simp] theorem pinInit_addr (c : Byte) (s : State) : (pinInit c s).addr = s.addr := rfl
@[simp] theorem pinInit_len (c : Byte) (s : State) : (pinInit c s).len = s.len := rfl
@[simp] theorem pinInit_csCur (c : Byte) (s : State) : (pinInit c s).csCur = s.csCur := rfl
@[simp] theorem pinInit_cur (c : Byte) (s : State) : (pinInit c s).cur = s.cur := rfl
@[simp] theorem pinInit_rem (c : Byte) (s : State) : (pinInit c s).rem = s.rem := rfl
@[simp] theorem pinInit_off (c : Byte) (s : State) : (pinInit c s).off = s.off := rfl
@[simp] theorem pinInit_k (c : Byte) (s : State) : (pinInit c s).k = s.k := rfl
@[simp] theorem pinInit_endAddr (c : Byte) (s : State) : (pinInit c s).endAddr = s.endAddr := rfl
@[simp] theorem pinInit_stat (c : Byte) (s : State) : (pinInit c s).stat = s.stat := rfl
@[simp] theorem pinInit_idbuf (c : Byte) (s : State) : (pinInit c s).idbuf = s.idbuf := rfl
@[simp] theorem pinInit_polls (c : Byte) (s : State) : (pinInit c s).polls = s.polls := rfl
@[simp] theorem pinInit_trace (c : Byte) (s : State) : (pinInit c s).trace = s.trace ++ [.pinInit c] := rfl
@[simp] theorem pinInit_env (c : Byte) (s : State) : (pinInit c s).env = s.env := rfl
@[simp] theorem pinInit_requests (c : Byte) (s : State) : (pinInit c s).requests = s.requests := rfl
@[simp] theorem pinInit_freeHost (c : Byte) (s : State) : (pinInit c s).freeHost = s.freeHost := rfl
@[simp] theorem pinInit_resetPlan (c : Byte) (s : State) : (pinInit c s).resetPlan = s.resetPlan := rfl

/-! ### `busInitialise` -/

@[simp] theorem busInitialise_cfg (s : State) : (busInitialise s).cfg = s.cfg := rfl
@[simp] theorem busInitialise_att (s : State) : (busInitialise s).att = s.att := rfl
@[simp] theorem busInitialise_csOe (s : State) : (busInitialise s).csOe = s.csOe := rfl
@[simp] theorem busInitialise_csN (s : State) : (busInitialise s).csN = s.csN := rfl
@[simp] theorem busInitialise_busInit (s : State) : (busInitialise s).busInit = true := rfl
@[simp] theorem busInitialise_busy (s : State) : (busInitialise s).busy = s.busy := rfl
@[simp] theorem busInitialise_resCode (s : State) : (busInitialise s).resCode = s.resCode := rfl
@[simp] theorem busInitialise_resHandle (s : State) : (busInitialise s).resHandle = s.resHandle := rfl
@[simp] theorem busInitialise_infoMfr (s : State) : (busInitialise s).infoMfr = s.infoMfr := rfl
@[simp] theorem busInitialise_infoDev (s : State) : (busInitialise s).infoDev = s.infoDev := rfl
@[simp] theorem busInitialise_infoSize (s : State) : (busInitialise s).infoSize = s.infoSize := rfl
@[simp] theorem busInitialise_infoDesc (s : State) : (busInitialise s).infoDesc = s.infoDesc := rfl
@[simp] theorem busInitialise_rdata (s : State) : (busInitialise s).rdata = s.rdata := rfl
@[simp] theorem busInitialise_wdata (s : State) : (busInitialise s).wdata = s.wdata := rfl
@[simp] theorem busInitialise_fsm (s : State) : (busInitialise s).fsm = s.fsm := rfl
@[simp] theorem busInitialise_op (s : State) : (busInitialise s).op = s.op := rfl
@[simp] theorem busInitialise_sel (s : State) : (busInitialise s).sel = s.sel := rfl
@[simp] theorem busInitialise_addr (s : State) : (busInitialise s).addr = s.addr := rfl
@[simp] theorem busInitialise_len (s : State) : (busInitialise s).len = s.len := rfl
@[simp] theorem busInitialise_csCur (s : State) : (busInitialise s).csCur = s.csCur := rfl
@[simp] theorem busInitialise_cur (s : State) : (busInitialise s).cur = s.cur := rfl
@[simp] theorem busInitialise_rem (s : State) : (busInitialise s).rem = s.rem := rfl
@[simp] theorem busInitialise_off (s : State) : (busInitialise s).off = s.off := rfl
@[simp] theorem busInitialise_k (s : State) : (busInitialise s).k = s.k := rfl
@[simp] theorem busInitialise_endAddr (s : State) : (busInitialise s).endAddr = s.endAddr := rfl
@[simp] theorem busInitialise_stat (s : State) : (busInitialise s).stat = s.stat := rfl
@[simp] theorem busInitialise_idbuf (s : State) : (busInitialise s).idbuf = s.idbuf := rfl
@[simp] theorem busInitialise_polls (s : State) : (busInitialise s).polls = s.polls := rfl
@[simp] theorem busInitialise_trace (s : State) : (busInitialise s).trace = s.trace ++ [.busInit] := rfl
@[simp] theorem busInitialise_env (s : State) : (busInitialise s).env = s.env := rfl
@[simp] theorem busInitialise_requests (s : State) : (busInitialise s).requests = s.requests := rfl
@[simp] theorem busInitialise_freeHost (s : State) : (busInitialise s).freeHost = s.freeHost := rfl
@[simp] theorem busInitialise_resetPlan (s : State) : (busInitialise s).resetPlan = s.resetPlan := rfl

end Sys2Proof.Machine
end

