-- ==== Sys2Proof/Laws/Step.lean ====
section
/-! SUPPORT. Laws of the step: what a step can do, said once (inversion lemmas). -/

namespace Sys2Proof.Machine

/-- One transition of a busy sequencer: the state machine of the operation in `op` (R30). -/
def advance (s : State) : Outcome :=
  if s.op = opProbe then probeFsm s
  else if s.op = opInfo then infoFsm s
  else if s.op = opRead then readFsm s
  else if s.op = opWrite then writeFsm s
  else if s.op = opErase then eraseFsm s
  else if s.op = opChipErase then chipEraseFsm s
  else .fault .lostSequencer

theorem step_of_none {s : State} {rs : List (Option Nat)} (h : s.resetPlan = none :: rs) :
    step s = cycle { s with resetPlan := rs } := by
  simp [step, h]

theorem step_of_nil {s : State} (h : s.resetPlan = []) : step s = cycle s := by
  simp [step, h]

theorem step_of_reset {s : State} {n : Nat} {rs : List (Option Nat)} (h : s.resetPlan = some n :: rs) :
    step s = .next (resetDuring n { s with resetPlan := rs }) := by
  simp [step, h]

/-- A cycle of an idle controller: wait, accept, or refuse. -/
theorem cycle_idle {s : State} (h : s.fsm = .idle) :
    (s.requests = [] ∧ cycle s = .next s) ∨
    (∃ r rs i, s.requests = r :: rs ∧ decodeRequest r.req = .ok i ∧
      cycle s = .next (accept r.req (firstState i) { s with requests := rs, wdata := r.data })) ∨
    (∃ r rs, s.requests = r :: rs ∧ (r.req.op = 6 ∨ r.req.op = 7) ∧
      cycle s = .refused .reservedOperation) := by
  cases hr : s.requests with
  | nil => exact .inl ⟨rfl, by simp [cycle, fetch, h, hr]⟩
  | cons r rs =>
    refine .inr ?_
    rcases decodeRequest_cases r.req with ⟨ho, e⟩ | ⟨ho, e⟩ | ⟨ho, e⟩ | ⟨ho, e⟩ | ⟨ho, e⟩ | ⟨ho, e⟩ | ⟨ho, e⟩
    iterate 6
      · refine .inl ⟨r, rs, _, rfl, e, ?_⟩
        simp only [cycle, fetch, h, hr, if_true, e, exec, execProbe, execInfo, execRead, execWrite, execErase,
          execChipErase, hostOp, firstState, ← ho]
    · exact .inr ⟨r, rs, rfl, ho, by simp [cycle, fetch, h, hr, e]⟩

theorem fetch_busy {s : State} (h : s.fsm ≠ .idle) {i : Instr} (e : decodeRequest (latched s) = .ok i) :
    fetch s = .run i s := by
  simp [fetch, h, e]

/-- A cycle of a busy controller is one transition of the operation in `op`. -/
theorem cycle_busy {s : State} (h : s.fsm ≠ .idle) : cycle s = advance s := by
  rcases decodeRequest_cases (latched s) with
    ⟨ho, e⟩ | ⟨ho, e⟩ | ⟨ho, e⟩ | ⟨ho, e⟩ | ⟨ho, e⟩ | ⟨ho, e⟩ | ⟨ho, e⟩
  iterate 6
    · have hf := fetch_busy h e
      simp only [latched] at ho
      simp [cycle, hf, exec, execProbe, execInfo, execRead, execWrite, execErase, execChipErase, hostOp, h, latched,
        advance, ho, opProbe, opInfo, opRead, opWrite, opErase, opChipErase]
  · simp only [cycle, fetch, if_neg h, e]
    rcases ho with ho | ho <;>
      simp [latched] at ho <;> simp [advance, ho, opProbe, opInfo, opRead, opWrite, opErase, opChipErase]

theorem probeFsm_cases {s t : State} (h : probeFsm s = .next t) :
    (s.fsm = .pInit ∧ t = probeInit s) ∨
    (s.fsm = .pId ∧ t = goto .pResolve (readId s.csCur s)) ∨
    (s.fsm = .pResolve ∧ t = resolve s) ∨
    (s.fsm = .done ∧ t = retire s) := by
  unfold probeFsm at h
  split at h <;> simp_all

/-- Everything PROBE's last state can do (R161, R287). -/
theorem resolve_cases (s : State) :
    (s.idbuf[0] = Config.idleByte ∧ resolve s = raise .noDevice s) ∨
    (s.idbuf[0] ≠ Config.idleByte ∧ lookup s s.idbuf[0] (deviceId s.idbuf[1] s.idbuf[2]) = none ∧
      resolve s = raise .unsupportedDevice s) ∨
    (∃ r, s.idbuf[0] ≠ Config.idleByte ∧ lookup s s.idbuf[0] (deviceId s.idbuf[1] s.idbuf[2]) = some r ∧
      ((s.attCount = s.cfg.maxChips ∧ resolve s = raise .tooManyChips s) ∨
        (s.attCount ≠ s.cfg.maxChips ∧
          resolve s = returnOk (appendEntry s.csCur r s)))) := by
  unfold resolve
  split_ifs with h
  · exact .inl ⟨h, rfl⟩
  · refine .inr ?_
    split
    · rename_i hl
      exact .inl ⟨h, hl, rfl⟩
    · rename_i r hl
      refine .inr ⟨r, h, hl, ?_⟩
      unfold attach
      split_ifs with hm
      · exact .inl ⟨hm, rfl⟩
      · exact .inr ⟨hm, rfl⟩

/-- Everything INFO's state can do (R165, R166). -/
theorem infoLookup_cases (s : State) :
    (s.att[s.sel.toNat]? = none ∧
      infoLookup s = .next (match s.cfg.infoPolicy with
        | .hold => returnOk s
        | .error => raise .invalidHandle s)) ∨
    (∃ e d, s.att[s.sel.toNat]? = some e ∧ s.cfg.registry[e.type]? = some d ∧
      infoLookup s = .next (returnOk (writeInfo d s))) ∨
    (∃ e, s.att[s.sel.toNat]? = some e ∧ s.cfg.registry[e.type]? = none ∧
      infoLookup s = .fault .registryIndex) := by
  unfold infoLookup describe
  split
  · rename_i h
    exact .inl ⟨h, by unfold infoUnbound; split <;> simp_all⟩
  · rename_i e h
    split
    · rename_i d hd
      exact .inr (.inl ⟨e, d, h, hd, rfl⟩)
    · rename_i hd
      exact .inr (.inr ⟨e, h, hd, rfl⟩)

theorem infoFsm_cases {s t : State} (h : infoFsm s = .next t) :
    (s.fsm = .iLookup ∧ infoLookup s = .next t) ∨ (s.fsm = .done ∧ t = retire s) := by
  unfold infoFsm at h
  split at h <;> simp_all

theorem readFsm_cases {s t : State} (h : readFsm s = .next t) :
    (s.fsm = .rCheck ∧ t = validate readSetup s) ∨
    (s.fsm = .rFrame ∧ t = readFrame s) ∨
    (s.fsm = .done ∧ t = retire s) := by
  unfold readFsm at h
  split at h <;> simp_all

theorem writeFsm_cases {s t : State} (h : writeFsm s = .next t) :
    (s.fsm = .wCheck ∧ t = validate writeSetup s) ∨
    (s.fsm = .wNext ∧ t = writeNext s) ∨
    (s.fsm = .wWren ∧ t = goto .wVerify (writeEnable s.csCur s)) ∨
    (s.fsm = .wVerify ∧ t = verifyArmed .wPp (readStatus s.csCur s)) ∨
    (s.fsm = .wPp ∧ t = writeProgram s) ∨
    (s.fsm = .wWrdi ∧ t = writeDisarm s) ∨
    (s.fsm = .wPoll ∧ t = pollTest (goto .wAdv) .wWait (readStatus s.csCur s)) ∨
    (s.fsm = .wWait ∧ t = goto .wPoll (delay .pollWrite s)) ∨
    (s.fsm = .wAdv ∧ t = writeAdvance s) ∨
    (s.fsm = .done ∧ t = retire s) := by
  unfold writeFsm at h
  split at h <;> simp_all

theorem eraseFsm_cases {s t : State} (h : eraseFsm s = .next t) :
    (s.fsm = .eCheck ∧ t = validate eraseSetup s) ∨
    (s.fsm = .eNext ∧ t = eraseNext s) ∨
    (s.fsm = .eWren ∧ t = goto .eVerify (writeEnable s.csCur s)) ∨
    (s.fsm = .eVerify ∧ t = verifyArmed .eSse (readStatus s.csCur s)) ∨
    (s.fsm = .eSse ∧ t = goto .eSettle (subsectorErase s.csCur (wireAddr s.cur) s)) ∨
    (s.fsm = .eSettle ∧ t = eraseSettle s) ∨
    (s.fsm = .ePoll ∧ t = pollTest (goto .eAdv) .eWait (readStatus s.csCur s)) ∨
    (s.fsm = .eWait ∧ t = goto .ePoll (delay .pollErase s)) ∨
    (s.fsm = .eAdv ∧ t = eraseAdvance s) ∨
    (s.fsm = .eWrdi ∧ t = returnOk (writeDisable s.csCur s)) ∨
    (s.fsm = .done ∧ t = retire s) := by
  unfold eraseFsm at h
  split at h <;> simp_all

theorem chipEraseFsm_cases {s t : State} (h : chipEraseFsm s = .next t) :
    (s.fsm = .cCheck ∧ t = validate (goto .cWren) s) ∨
    (s.fsm = .cWren ∧ t = goto .cVerify (writeEnable s.csCur s)) ∨
    (s.fsm = .cVerify ∧ t = verifyArmed .cBe (readStatus s.csCur s)) ∨
    (s.fsm = .cBe ∧ t = chipEraseStart s) ∨
    (s.fsm = .cPoll ∧ t = pollTest returnOk .cWait (readStatus s.csCur s)) ∨
    (s.fsm = .cWait ∧ t = goto .cPoll (delay .pollChipErase s)) ∨
    (s.fsm = .done ∧ t = retire s) := by
  unfold chipEraseFsm at h
  split at h <;> simp_all

/-- VALIDATE, both ways (R285). -/
theorem validate_cases (go : State → State) (s : State) :
    (∃ e, s.att[s.sel.toNat]? = some e ∧ validate go s = go (chooseLine e.cs s)) ∨
    (s.att[s.sel.toNat]? = none ∧ validate go s = raise .invalidHandle s) := by
  unfold validate
  split
  · rename_i e h
    exact .inl ⟨e, h, rfl⟩
  · rename_i h
    exact .inr ⟨h, rfl⟩

/-- ARM's test, both ways (R146). -/
theorem verifyArmed_cases (f : Fsm) (s : State) :
    (statusWel s.stat = true ∧ verifyArmed f s = goto f s) ∨
    (statusWel s.stat = false ∧ verifyArmed f s = raise .writeEnableFailed s) := by
  unfold verifyArmed
  by_cases h : statusWel s.stat = true
  · exact .inl ⟨h, by simp [h]⟩
  · exact .inr ⟨by simpa using h, by simp [h]⟩

theorem limitReached_iff (limit : Option Nat) (p : Nat) :
    limitReached limit p = true ↔ ∃ l, limit = some l ∧ l ≤ p := by
  cases limit <;> simp [limitReached]

/-- POLL_WIP's test, the three ways (R147). -/
theorem pollTest_cases (fin : State → State) (wait : Fsm) (s : State) :
    (statusWip s.stat = false ∧ pollTest fin wait s = fin s) ∨
    (statusWip s.stat = true ∧ (∃ l, s.cfg.pollLimit = some l ∧ l ≤ s.polls + 1) ∧
      pollTest fin wait s = raise .timeout (setPolls (s.polls + 1) s)) ∨
    (statusWip s.stat = true ∧ (∀ l, s.cfg.pollLimit = some l → s.polls + 1 < l) ∧
      pollTest fin wait s = goto wait (setPolls (s.polls + 1) s)) := by
  unfold pollTest
  by_cases h : statusWip s.stat = true
  · refine .inr ?_
    by_cases hl : limitReached s.cfg.pollLimit (s.polls + 1) = true
    · exact .inl ⟨h, (limitReached_iff _ _).mp hl, by simp [h, hl]⟩
    · refine .inr ⟨h, fun l hc => ?_, by simp [h, hl]⟩
      rw [limitReached_iff] at hl
      push Not at hl
      exact hl l hc
  · exact .inl ⟨by simpa using h, by simp [h]⟩

/-- The transitions of a busy sequencer, one constructor for each way a state of R30 can go on. -/
inductive Move (s : State) : State → Prop
  | done : s.fsm = .done → Move s (retire s)
  | pInit : s.op = opProbe → s.fsm = .pInit → Move s (probeInit s)
  | pId : s.op = opProbe → s.fsm = .pId → Move s (goto .pResolve (readId s.csCur s))
  | noDevice : s.op = opProbe → s.fsm = .pResolve → s.idbuf[0] = Config.idleByte → Move s (raise .noDevice s)
  | unsupported : s.op = opProbe → s.fsm = .pResolve → s.idbuf[0] ≠ Config.idleByte →
      lookup s s.idbuf[0] (deviceId s.idbuf[1] s.idbuf[2]) = none → Move s (raise .unsupportedDevice s)
  | tooMany (r : Nat) : s.op = opProbe → s.fsm = .pResolve → s.idbuf[0] ≠ Config.idleByte →
      lookup s s.idbuf[0] (deviceId s.idbuf[1] s.idbuf[2]) = some r → s.attCount = s.cfg.maxChips →
      Move s (raise .tooManyChips s)
  | attached (r : Nat) : s.op = opProbe → s.fsm = .pResolve → s.idbuf[0] ≠ Config.idleByte →
      lookup s s.idbuf[0] (deviceId s.idbuf[1] s.idbuf[2]) = some r → s.attCount ≠ s.cfg.maxChips →
      Move s (returnOk (appendEntry s.csCur r s))
  | infoHold : s.op = opInfo → s.fsm = .iLookup → s.att[s.sel.toNat]? = none → s.cfg.infoPolicy = .hold →
      Move s (returnOk s)
  | infoError : s.op = opInfo → s.fsm = .iLookup → s.att[s.sel.toNat]? = none → s.cfg.infoPolicy = .error →
      Move s (raise .invalidHandle s)
  | infoBound (e : Attached) (d : ChipDescriptor) : s.op = opInfo → s.fsm = .iLookup →
      s.att[s.sel.toNat]? = some e → s.cfg.registry[e.type]? = some d → Move s (returnOk (writeInfo d s))
  | invalid (f : Fsm) : s.op = opRead ∧ f = .rCheck ∨ s.op = opWrite ∧ f = .wCheck ∨ s.op = opErase ∧ f = .eCheck ∨
      s.op = opChipErase ∧ f = .cCheck → s.fsm = f → s.att[s.sel.toNat]? = none → Move s (raise .invalidHandle s)
  | rCheck (e : Attached) : s.op = opRead → s.fsm = .rCheck → s.att[s.sel.toNat]? = some e →
      Move s (readSetup (chooseLine e.cs s))
  | rFrame : s.op = opRead → s.fsm = .rFrame → Move s (readFrame s)
  | wCheck (e : Attached) : s.op = opWrite → s.fsm = .wCheck → s.att[s.sel.toNat]? = some e →
      Move s (writeSetup (chooseLine e.cs s))
  | wFinished : s.op = opWrite → s.fsm = .wNext → s.rem = 0 → Move s (returnOk s)
  | wNext : s.op = opWrite → s.fsm = .wNext → s.rem ≠ 0 → Move s (goto .wWren (measureChunk s))
  | wWren : s.op = opWrite → s.fsm = .wWren → Move s (goto .wVerify (writeEnable s.csCur s))
  | wArmed : s.op = opWrite → s.fsm = .wVerify → statusWel (readStatus s.csCur s).stat = true →
      Move s (goto .wPp (readStatus s.csCur s))
  | wPp : s.op = opWrite → s.fsm = .wPp → Move s (writeProgram s)
  | wWrdi : s.op = opWrite → s.fsm = .wWrdi → Move s (writeDisarm s)
  | wReady : s.op = opWrite → s.fsm = .wPoll → statusWip (readStatus s.csCur s).stat = false →
      Move s (goto .wAdv (readStatus s.csCur s))
  | wBusy : s.op = opWrite → s.fsm = .wPoll → statusWip (readStatus s.csCur s).stat = true →
      (∀ l, s.cfg.pollLimit = some l → s.polls + 1 < l) →
      Move s (goto .wWait (setPolls (s.polls + 1) (readStatus s.csCur s)))
  | wWait : s.op = opWrite → s.fsm = .wWait → Move s (goto .wPoll (delay .pollWrite s))
  | wAdv : s.op = opWrite → s.fsm = .wAdv → Move s (writeAdvance s)
  | eCheck (e : Attached) : s.op = opErase → s.fsm = .eCheck → s.att[s.sel.toNat]? = some e →
      Move s (eraseSetup (chooseLine e.cs s))
  | eMore : s.op = opErase → s.fsm = .eNext → s.cur < s.endAddr → Move s (goto .eWren s)
  | eFinished : s.op = opErase → s.fsm = .eNext → ¬ s.cur < s.endAddr → Move s (goto .eWrdi s)
  | eWren : s.op = opErase → s.fsm = .eWren → Move s (goto .eVerify (writeEnable s.csCur s))
  | eArmed : s.op = opErase → s.fsm = .eVerify → statusWel (readStatus s.csCur s).stat = true →
      Move s (goto .eSse (readStatus s.csCur s))
  | eSse : s.op = opErase → s.fsm = .eSse → Move s (goto .eSettle (subsectorErase s.csCur (wireAddr s.cur) s))
  | eSettle : s.op = opErase → s.fsm = .eSettle → Move s (eraseSettle s)
  | eReady : s.op = opErase → s.fsm = .ePoll → statusWip (readStatus s.csCur s).stat = false →
      Move s (goto .eAdv (readStatus s.csCur s))
  | eBusy : s.op = opErase → s.fsm = .ePoll → statusWip (readStatus s.csCur s).stat = true →
      (∀ l, s.cfg.pollLimit = some l → s.polls + 1 < l) →
      Move s (goto .eWait (setPolls (s.polls + 1) (readStatus s.csCur s)))
  | eWait : s.op = opErase → s.fsm = .eWait → Move s (goto .ePoll (delay .pollErase s))
  | eAdv : s.op = opErase → s.fsm = .eAdv → Move s (eraseAdvance s)
  | eWrdi : s.op = opErase → s.fsm = .eWrdi → Move s (returnOk (writeDisable s.csCur s))
  | cCheck (e : Attached) : s.op = opChipErase → s.fsm = .cCheck → s.att[s.sel.toNat]? = some e →
      Move s (goto .cWren (chooseLine e.cs s))
  | cWren : s.op = opChipErase → s.fsm = .cWren → Move s (goto .cVerify (writeEnable s.csCur s))
  | cArmed : s.op = opChipErase → s.fsm = .cVerify → statusWel (readStatus s.csCur s).stat = true →
      Move s (goto .cBe (readStatus s.csCur s))
  | cBe : s.op = opChipErase → s.fsm = .cBe → Move s (chipEraseStart s)
  | cReady : s.op = opChipErase → s.fsm = .cPoll → statusWip (readStatus s.csCur s).stat = false →
      Move s (returnOk (readStatus s.csCur s))
  | cBusy : s.op = opChipErase → s.fsm = .cPoll → statusWip (readStatus s.csCur s).stat = true →
      (∀ l, s.cfg.pollLimit = some l → s.polls + 1 < l) →
      Move s (goto .cWait (setPolls (s.polls + 1) (readStatus s.csCur s)))
  | cWait : s.op = opChipErase → s.fsm = .cWait → Move s (goto .cPoll (delay .pollChipErase s))
  | notArmed (f : Fsm) : s.op = opWrite ∧ f = .wVerify ∨ s.op = opErase ∧ f = .eVerify ∨
      s.op = opChipErase ∧ f = .cVerify → s.fsm = f → statusWel (readStatus s.csCur s).stat = false →
      Move s (raise .writeEnableFailed (readStatus s.csCur s))
  | timedOut (f : Fsm) (l : Nat) : s.op = opWrite ∧ f = .wPoll ∨ s.op = opErase ∧ f = .ePoll ∨
      s.op = opChipErase ∧ f = .cPoll → s.fsm = f → statusWip (readStatus s.csCur s).stat = true →
      s.cfg.pollLimit = some l → l ≤ s.polls + 1 →
      Move s (raise .timeout (setPolls (s.polls + 1) (readStatus s.csCur s)))

theorem validate_move {s : State} {f : Fsm} {go : State → State}
    (ho : s.op = opRead ∧ f = .rCheck ∨ s.op = opWrite ∧ f = .wCheck ∨ s.op = opErase ∧ f = .eCheck ∨
      s.op = opChipErase ∧ f = .cCheck) (hf : s.fsm = f)
    (h : ∀ e, s.att[s.sel.toNat]? = some e → Move s (go (chooseLine e.cs s))) :
    Move s (validate go s) := by
  rcases validate_cases go s with ⟨e, he, h'⟩ | ⟨he, h'⟩ <;> rw [h']
  · exact h e he
  · exact .invalid f ho hf he

theorem verify_move {s : State} {f g : Fsm}
    (ho : s.op = opWrite ∧ f = .wVerify ∨ s.op = opErase ∧ f = .eVerify ∨ s.op = opChipErase ∧ f = .cVerify)
    (hf : s.fsm = f)
    (h : statusWel (readStatus s.csCur s).stat = true → Move s (goto g (readStatus s.csCur s))) :
    Move s (verifyArmed g (readStatus s.csCur s)) := by
  rcases verifyArmed_cases g (readStatus s.csCur s) with ⟨hs, h'⟩ | ⟨hs, h'⟩ <;> rw [h']
  · exact h hs
  · exact .notArmed f ho hf hs

theorem poll_move {s : State} {f g : Fsm} {fin : State → State}
    (ho : s.op = opWrite ∧ f = .wPoll ∨ s.op = opErase ∧ f = .ePoll ∨ s.op = opChipErase ∧ f = .cPoll)
    (hf : s.fsm = f)
    (h1 : statusWip (readStatus s.csCur s).stat = false → Move s (fin (readStatus s.csCur s)))
    (h2 : statusWip (readStatus s.csCur s).stat = true → (∀ l, s.cfg.pollLimit = some l → s.polls + 1 < l) →
      Move s (goto g (setPolls (s.polls + 1) (readStatus s.csCur s)))) :
    Move s (pollTest fin g (readStatus s.csCur s)) := by
  rcases pollTest_cases fin g (readStatus s.csCur s) with ⟨hs, h'⟩ | ⟨hs, ⟨l, hl, hle⟩, h'⟩ | ⟨hs, hl, h'⟩ <;> rw [h']
  · exact h1 hs
  · simpa using Move.timedOut f l ho hf hs (by simpa using hl) (by simpa using hle)
  · simpa using h2 hs (by simpa using hl)

/-- A transition of a busy sequencer is one of the moves. -/
theorem advance_move {s t : State} (h : advance s = .next t) : Move s t := by
  unfold advance at h
  split_ifs at h with h0 h1 h2 h3 h4 h5
  · rcases probeFsm_cases h with ⟨hf, rfl⟩ | ⟨hf, rfl⟩ | ⟨hf, rfl⟩ | ⟨hf, rfl⟩
    · exact .pInit h0 hf
    · exact .pId h0 hf
    · rcases resolve_cases s with ⟨hi, h'⟩ | ⟨hi, hl, h'⟩ | ⟨r, hi, hl, ⟨hc, h'⟩ | ⟨hc, h'⟩⟩ <;> rw [h']
      exacts [.noDevice h0 hf hi, .unsupported h0 hf hi hl, .tooMany r h0 hf hi hl hc, .attached r h0 hf hi hl hc]
    · exact .done hf
  · rcases infoFsm_cases h with ⟨hf, ht⟩ | ⟨hf, rfl⟩
    · rcases infoLookup_cases s with ⟨ha, h'⟩ | ⟨e, d, he, hd, h'⟩ | ⟨e, he, hd, h'⟩ <;> rw [h'] at ht
      · cases hp : s.cfg.infoPolicy <;> simp only [hp, Host.Outcome.next.injEq] at ht <;> subst ht
        exacts [.infoHold h1 hf ha hp, .infoError h1 hf ha hp]
      · simp only [Host.Outcome.next.injEq] at ht
        subst ht
        exact .infoBound e d h1 hf he hd
      · cases ht
    · exact .done hf
  · rcases readFsm_cases h with ⟨hf, rfl⟩ | ⟨hf, rfl⟩ | ⟨hf, rfl⟩
    · exact validate_move (.inl ⟨h2, rfl⟩) hf fun e he => .rCheck e h2 hf he
    · exact .rFrame h2 hf
    · exact .done hf
  · rcases writeFsm_cases h with ⟨hf, rfl⟩ | ⟨hf, rfl⟩ | ⟨hf, rfl⟩ | ⟨hf, rfl⟩ | ⟨hf, rfl⟩ | ⟨hf, rfl⟩ | ⟨hf, rfl⟩ |
      ⟨hf, rfl⟩ | ⟨hf, rfl⟩ | ⟨hf, rfl⟩
    · exact validate_move (.inr (.inl ⟨h3, rfl⟩)) hf fun e he => .wCheck e h3 hf he
    · unfold writeNext
      split_ifs with hr
      exacts [.wFinished h3 hf hr, .wNext h3 hf hr]
    · exact .wWren h3 hf
    · exact verify_move (.inl ⟨h3, rfl⟩) hf (.wArmed h3 hf)
    · exact .wPp h3 hf
    · exact .wWrdi h3 hf
    · exact poll_move (.inl ⟨h3, rfl⟩) hf (.wReady h3 hf) (.wBusy h3 hf)
    · exact .wWait h3 hf
    · exact .wAdv h3 hf
    · exact .done hf
  · rcases eraseFsm_cases h with ⟨hf, rfl⟩ | ⟨hf, rfl⟩ | ⟨hf, rfl⟩ | ⟨hf, rfl⟩ | ⟨hf, rfl⟩ | ⟨hf, rfl⟩ | ⟨hf, rfl⟩ |
      ⟨hf, rfl⟩ | ⟨hf, rfl⟩ | ⟨hf, rfl⟩ | ⟨hf, rfl⟩
    · exact validate_move (.inr (.inr (.inl ⟨h4, rfl⟩))) hf fun e he => .eCheck e h4 hf he
    · unfold eraseNext
      split_ifs with hr
      exacts [.eMore h4 hf hr, .eFinished h4 hf hr]
    · exact .eWren h4 hf
    · exact verify_move (.inr (.inl ⟨h4, rfl⟩)) hf (.eArmed h4 hf)
    · exact .eSse h4 hf
    · exact .eSettle h4 hf
    · exact poll_move (.inr (.inl ⟨h4, rfl⟩)) hf (.eReady h4 hf) (.eBusy h4 hf)
    · exact .eWait h4 hf
    · exact .eAdv h4 hf
    · exact .eWrdi h4 hf
    · exact .done hf
  · rcases chipEraseFsm_cases h with ⟨hf, rfl⟩ | ⟨hf, rfl⟩ | ⟨hf, rfl⟩ | ⟨hf, rfl⟩ | ⟨hf, rfl⟩ | ⟨hf, rfl⟩ | ⟨hf, rfl⟩
    · exact validate_move (.inr (.inr (.inr ⟨h5, rfl⟩))) hf fun e he => .cCheck e h5 hf he
    · exact .cWren h5 hf
    · exact verify_move (.inr (.inr ⟨h5, rfl⟩)) hf (.cArmed h5 hf)
    · exact .cBe h5 hf
    · exact poll_move (.inr (.inr ⟨h5, rfl⟩)) hf (.cReady h5 hf) (.cBusy h5 hf)
    · exact .cWait h5 hf
    · exact .done hf

/-! ### What a transition does on the bus, and what it keeps -/

theorem sel_not_mem_exchangesEvents {c : Byte} {xs : List Exchange} {is : List Byte} :
    BusEvent.sel c ∉ exchangesEvents xs is := by
  induction xs generalizing is with
  | nil => simp [exchangesEvents]
  | cons x xs ih =>
    cases is with
    | nil => simp [exchangesEvents]
    | cons i is =>
      simp only [exchangesEvents, List.mem_append, not_or]
      refine ⟨?_, ih⟩
      unfold exchangeEvents
      split <;> simp

/-- A frame selects its own line only. -/
theorem sel_mem_frameEvents {c d : Byte} {xs : List Exchange} {is : List Byte} :
    BusEvent.sel d ∈ frameEvents c xs is ↔ d = c := by
  simp [frameEvents, sel_not_mem_exchangesEvents]

/-- What a transition does on the bus: nothing; a claim of a range by an operation that begins; PROBE's pin and bus
initialisation; a wait; or one frame on the operation's own line. -/
theorem Move.bus {s t : State} (h : Move s t) :
    (t.trace = s.trace ∧ (t.env = s.env ∨ t.env = s.env.claim t.csCur s.addr s.len)) ∨
    (t.trace = s.trace ++ [.pinInit s.sel, .busInit] ∧ t.env = s.env) ∨
    (∃ w, t.trace = s.trace ++ [.delay w] ∧ t.env = s.env) ∨
    (s.fsm.lineChosen = true ∧ ∃ xs,
      t.trace = s.trace ++ frameEvents s.csCur xs (Env.frameInput s.cfg.opc s.csCur (outs xs) s.env) ∧
      t.env = Env.frameAfter s.cfg.opc s.csCur (outs xs) s.env) := by
  cases h
  case pInit => exact .inr (.inl ⟨by simp [probeInit, busInitialise, pinInit, emit, goto], rfl⟩)
  case wWait => exact .inr (.inr (.inl ⟨.pollWrite, rfl, rfl⟩))
  case eWait => exact .inr (.inr (.inl ⟨.pollErase, rfl, rfl⟩))
  case cWait => exact .inr (.inr (.inl ⟨.pollChipErase, rfl, rfl⟩))
  case eSettle => exact .inr (.inr (.inl ⟨.settleErase, rfl, rfl⟩))
  case notArmed ho hf _ | timedOut ho hf _ _ _ =>
    refine .inr (.inr (.inr ⟨?_, formatS s.cfg.opc.rdsr s.cfg.opc.dummyTx, ?_⟩))
    · rcases ho with ⟨_, rfl⟩ | ⟨_, rfl⟩ | ⟨_, rfl⟩ <;> simp [hf, Fsm.lineChosen]
    · exact ⟨by rw [raise_trace, outs_formatS]; simp only [setPolls_trace, readStatus_eq],
        by rw [raise_env, outs_formatS]; simp only [setPolls_env, readStatus_eq]⟩
  case pId hf =>
    refine .inr (.inr (.inr ⟨by simp [hf, Fsm.lineChosen], formatI s.cfg.opc.rdid s.cfg.opc.dummyTx, ?_⟩))
    exact ⟨by rw [goto_trace, readId_eq], by rw [goto_env, readId_eq]⟩
  case rFrame hf =>
    refine .inr (.inr (.inr ⟨by simp [hf, Fsm.lineChosen],
      formatAR s.cfg.opc.read (wireAddr s.addr.toNat) s.len.toNat s.cfg.opc.dummyTx, ?_⟩))
    exact ⟨by rw [readFrame, returnOk_trace, readData_eq], by rw [readFrame, returnOk_env, readData_eq]⟩
  case wWren hf | eWren hf | cWren hf =>
    refine .inr (.inr (.inr ⟨by simp [hf, Fsm.lineChosen], formatC s.cfg.opc.wren, ?_⟩))
    exact ⟨by rw [goto_trace, writeEnable, issueCommand_eq, outs_formatC], by rw [goto_env, writeEnable, issueCommand_eq, outs_formatC]⟩
  case wArmed hf _ | eArmed hf _ | cArmed hf _ | wReady hf _ | eReady hf _ | wBusy hf _ _ |
      eBusy hf _ _ | cBusy hf _ _ =>
    refine .inr (.inr (.inr ⟨by simp [hf, Fsm.lineChosen], formatS s.cfg.opc.rdsr s.cfg.opc.dummyTx, ?_⟩))
    exact ⟨by rw [goto_trace, outs_formatS]; simp only [setPolls_trace, readStatus_eq],
      by rw [goto_env, outs_formatS]; simp only [setPolls_env, readStatus_eq]⟩
  case cReady hf _ =>
    refine .inr (.inr (.inr ⟨by simp [hf, Fsm.lineChosen], formatS s.cfg.opc.rdsr s.cfg.opc.dummyTx, ?_⟩))
    exact ⟨by rw [returnOk_trace, readStatus_eq, outs_formatS], by rw [returnOk_env, readStatus_eq, outs_formatS]⟩
  case wPp hf =>
    refine .inr (.inr (.inr ⟨by simp [hf, Fsm.lineChosen],
      formatAW s.cfg.opc.pp (wireAddr s.cur) (chunkData s), ?_⟩))
    exact ⟨by rw [writeProgram, goto_trace, pageProgram_eq]; rfl, by rw [writeProgram, goto_env, pageProgram_eq]; rfl⟩
  case wWrdi hf =>
    refine .inr (.inr (.inr ⟨by simp [hf, Fsm.lineChosen], formatC s.cfg.opc.wrdi, ?_⟩))
    exact ⟨by rw [writeDisarm, goto_trace, setPolls_trace, writeDisable, issueCommand_eq, outs_formatC],
      by rw [writeDisarm, goto_env, setPolls_env, writeDisable, issueCommand_eq, outs_formatC]⟩
  case eWrdi hf =>
    refine .inr (.inr (.inr ⟨by simp [hf, Fsm.lineChosen], formatC s.cfg.opc.wrdi, ?_⟩))
    exact ⟨by rw [returnOk_trace, writeDisable, issueCommand_eq, outs_formatC],
      by rw [returnOk_env, writeDisable, issueCommand_eq, outs_formatC]⟩
  case eSse hf =>
    refine .inr (.inr (.inr ⟨by simp [hf, Fsm.lineChosen], formatA s.cfg.opc.sse (wireAddr s.cur), ?_⟩))
    exact ⟨by rw [goto_trace, subsectorErase_eq], by rw [goto_env, subsectorErase_eq]⟩
  case cBe hf =>
    refine .inr (.inr (.inr ⟨by simp [hf, Fsm.lineChosen], formatC s.cfg.opc.be, ?_⟩))
    exact ⟨by rw [chipEraseStart, goto_trace, setPolls_trace, bulkErase, issueCommand_eq, outs_formatC],
      by rw [chipEraseStart, goto_env, setPolls_env, bulkErase, issueCommand_eq, outs_formatC]⟩
  case rCheck | wCheck | eCheck => exact .inl ⟨rfl, .inr rfl⟩
  all_goals exact .inl ⟨rfl, .inl rfl⟩

theorem Move.env_wf {s t : State} (h : Move s t) (hw : s.env.wf) : t.env.wf := by
  rcases h.bus with ⟨_, h | h⟩ | ⟨_, h⟩ | ⟨_, _, h⟩ | ⟨_, _, _, h⟩ <;> rw [h]
  exacts [hw, Env.claim_wf hw _ _ _, hw, hw, Env.frameAfter_wf hw _ _ _]

/-- A transition keeps the parameters, the request in progress and what the host has queued. -/
theorem Move.keeps {s t : State} (h : Move s t) :
    t.cfg = s.cfg ∧ t.op = s.op ∧ t.sel = s.sel ∧ t.addr = s.addr ∧ t.len = s.len ∧ t.requests = s.requests ∧
      t.resetPlan = s.resetPlan := by
  cases h <;> simp [probeInit, readFrame, writeProgram, writeDisarm, writeAdvance, eraseSettle, eraseAdvance,
    chipEraseStart, readSetup, writeSetup, eraseSetup]

/-- Where a transition leads: back to `IDLE`, to `DONE`, or to a state of the same operation. -/
theorem Move.target {s t : State} (h : Move s t) :
    t.fsm = .idle ∨ t.fsm = .done ∨ t.fsm.owner = some s.op := by
  cases h <;> simp_all [Fsm.owner, probeInit, readFrame, writeProgram, writeDisarm, writeAdvance, eraseSettle,
    eraseAdvance, chipEraseStart, readSetup, writeSetup, eraseSetup]

/-- R191: the length of a chunk as a number. -/
theorem chunkLen_toNat (r : Word) : (chunkLen r).toNat = min r.toNat 256 := by
  rw [chunkLen, BitVec.toNat_ofNat, Nat.mod_eq_of_lt]
  simp only [Config.pageSize]
  omega

/-- A move brings no device and leaves the size and the identification of every device (R250). -/
theorem Move.keepsDevices {s t : State} (h : Move s t) (hw : s.env.wf) : Env.KeepsDevices s.env t.env := by
  rcases h.bus with ⟨_, h | h⟩ | ⟨_, h⟩ | ⟨_, _, h⟩ | ⟨_, _, _, h⟩ <;> rw [h]
  exacts [.refl _, Env.claim_keepsDevices hw _ _ _, .refl _, .refl _, Env.frameAfter_keepsDevices hw _ _ _]

/-- A move only appends to the trace. -/
theorem Move.trace {s t : State} (h : Move s t) : ∃ es, t.trace = s.trace ++ es := by
  rcases h.bus with ⟨h, _⟩ | ⟨h, _⟩ | ⟨_, h, _⟩ | ⟨_, _, h, _⟩
  exacts [⟨[], by simp [h]⟩, ⟨_, h⟩, ⟨_, h⟩, ⟨_, h⟩]

/-- Only PROBE's first state and the handle checks choose a line. -/
theorem Move.csCur {s t : State} (h : Move s t) (hs : s.fsm ∉ [.pInit, .rCheck, .wCheck, .eCheck, .cCheck]) :
    t.csCur = s.csCur := by
  cases h <;> simp_all [readFrame, writeProgram, writeDisarm, writeAdvance, eraseSettle, eraseAdvance,
    chipEraseStart]

/-- A move changes the environment of no line but that of `cs_cur` afterwards. -/
theorem Move.env_other {s t : State} (h : Move s t) (hw : s.env.wf) {c : Byte} (hc : c ≠ t.csCur) :
    t.env.lineAt c = s.env.lineAt c := by
  rcases h.bus with ⟨_, h' | h'⟩ | ⟨_, h'⟩ | ⟨_, _, h'⟩ | ⟨hl, _, _, h'⟩ <;> rw [h']
  · exact Env.claim_other hw _ _ hc
  · rw [h.csCur (by intro hm; simp only [List.mem_cons, List.not_mem_nil, or_false] at hm; rcases hm with hm | hm | hm | hm | hm <;> simp [hm, Fsm.lineChosen] at hl)] at hc
    exact Env.frameAfter_other hw _ hc _

/-- A move touches no line but that of `cs_cur` afterwards. -/
theorem Move.lines {s t : State} (h : Move s t) :
    ∀ c, c ≠ t.csCur → lineBit t.csN c = lineBit s.csN c ∧ lineBit t.csOe c = lineBit s.csOe c := by
  cases h <;> simp [lineBit_lineSet, probeInit, readFrame, writeProgram, writeDisarm, writeAdvance, eraseSettle, eraseAdvance,
    chipEraseStart, readSetup, writeSetup, eraseSetup] <;> intro c hc <;> simp [hc]

/-- A move changes neither bit of an id that names no line (R7). -/
theorem Move.noLine {s t : State} (h : Move s t) :
    ∀ c, s.cfg.nCs ≤ c.toNat → lineBit t.csN c = lineBit s.csN c ∧ lineBit t.csOe c = lineBit s.csOe c := by
  intro c hc
  have hn : ¬ c.toNat < s.cfg.nCs := Nat.not_lt.mpr hc
  cases h <;> simp [lineBit_lineSet, hn, probeInit, readFrame, writeProgram, writeDisarm, writeAdvance, eraseSettle,
    eraseAdvance, chipEraseStart, readSetup, writeSetup, eraseSetup]

/-- A result code is written only on the way into `DONE`. -/
theorem Move.resCode {s t : State} (h : Move s t) (ht : t.fsm ≠ .done) : t.resCode = s.resCode := by
  revert ht
  cases h <;> simp [probeInit, readFrame, writeProgram, writeDisarm, writeAdvance, eraseSettle, eraseAdvance,
    chipEraseStart, readSetup, writeSetup, eraseSetup]

/-- Only the move out of `DONE` lowers `busy`. -/
theorem Move.busy {s t : State} (h : Move s t) (hs : s.fsm ≠ .done) : t.busy = s.busy := by
  cases h <;> simp_all [probeInit, readFrame, writeProgram, writeDisarm, writeAdvance, eraseSettle, eraseAdvance,
    chipEraseStart, readSetup, writeSetup, eraseSetup]

/-- `cur` belongs to WRITE and ERASE. -/
theorem Move.cur {s t : State} (h : Move s t) (ho : s.op ≠ opWrite ∧ s.op ≠ opErase) : t.cur = s.cur := by
  cases h <;> simp_all [probeInit, readSetup, readFrame, chipEraseStart]

/-- Everything a host operation's `exec` can do (R31, R30): accept in `IDLE`; one transition while it is the operation
in progress; nothing while another is. -/
theorem exec_host_cases {s t : State} {i : Instr} (hi : i.isHost = true) (h : exec i s = .next t) :
    ∃ r, decodeRequest r = .ok i ∧
      ((s.fsm = .idle ∧ t = accept r (firstState i) s) ∨ (s.fsm ≠ .idle ∧ latched s = r ∧ Move s t) ∨
        (s.fsm ≠ .idle ∧ latched s ≠ r ∧ t = s)) := by
  have key : ∀ {r f} {adv : State → Outcome}, (latched s = r → adv s = advance s) →
      hostOp r f adv s = .next t → (s.fsm = .idle ∧ t = accept r f s) ∨
        (s.fsm ≠ .idle ∧ latched s = r ∧ Move s t) ∨ (s.fsm ≠ .idle ∧ latched s ≠ r ∧ t = s) := by
    intro r f adv ha h
    unfold hostOp at h
    split_ifs at h with h1 h2
    · exact .inl ⟨h1, (Host.Outcome.next.inj h).symm⟩
    · exact .inr (.inl ⟨h1, h2, advance_move (ha h2 ▸ h)⟩)
    · exact .inr (.inr ⟨h1, h2, (Host.Outcome.next.inj h).symm⟩)
  cases i <;> simp only [Instr.isHost, Bool.false_eq_true] at hi
  all_goals
    refine ⟨_, ?_, key ?_ h⟩
    · rfl
    · intro hl
      simp only [latched, Request.mk.injEq] at hl
      simp [advance, hl, opProbe, opInfo, opRead, opWrite, opErase, opChipErase]

/-- A step without reset: wait, accept, or one move of a busy sequencer. -/
theorem step_next_cases {s t : State} (hp : s.resetPlan = []) (h : step s = .next t) :
    (s.fsm = .idle ∧ s.requests = [] ∧ t = s) ∨
    (∃ r rs i, s.fsm = .idle ∧ s.requests = r :: rs ∧ decodeRequest r.req = .ok i ∧
      t = accept r.req (firstState i) { s with requests := rs, wdata := r.data }) ∨
    (s.fsm ≠ .idle ∧ Move s t) := by
  rw [step_of_nil hp] at h
  by_cases hi : s.fsm = .idle
  · rcases cycle_idle hi with ⟨hr, h'⟩ | ⟨r, rs, i, hr, hd, h'⟩ | ⟨r, rs, hr, ho, h'⟩ <;> rw [h'] at h
    · exact .inl ⟨hi, hr, (Host.Outcome.next.inj h).symm⟩
    · exact .inr (.inl ⟨r, rs, i, hi, hr, hd, (Host.Outcome.next.inj h).symm⟩)
    · cases h
  · rw [cycle_busy hi] at h
    exact .inr (.inr ⟨hi, advance_move h⟩)

/-! ### Runs, and primitives under a change of the sequencer state -/

/-- The machine gets from `s` to `t` in some number of steps. -/
def Reaches (s t : State) : Prop := ∃ k, Host.Core.run core k s = .next t

theorem Reaches.refl (s : State) : Reaches s s := ⟨0, rfl⟩
theorem Reaches.head {s t u : State} (h : step s = .next t) (h' : Reaches t u) : Reaches s u := by
  obtain ⟨k, hk⟩ := h'
  refine ⟨k + 1, ?_⟩
  have : core.step s = .next t := h
  simp only [Host.Core.run, this]; exact hk

@[simp] theorem readStatus_goto (f : Fsm) (c : Byte) (s : State) : readStatus c (goto f s) = goto f (readStatus c s) := by
  simp only [readStatus_eq, goto]
@[simp] theorem issueCommand_goto (f : Fsm) (c opc : Byte) (s : State) : issueCommand c opc (goto f s) = goto f (issueCommand c opc s) := by
  simp only [issueCommand_eq, goto]
@[simp] theorem writeEnable_goto (f : Fsm) (c : Byte) (s : State) : writeEnable c (goto f s) = goto f (writeEnable c s) :=
  issueCommand_goto f c _ s
@[simp] theorem writeDisable_goto (f : Fsm) (c : Byte) (s : State) : writeDisable c (goto f s) = goto f (writeDisable c s) :=
  issueCommand_goto f c _ s
@[simp] theorem bulkErase_goto (f : Fsm) (c : Byte) (s : State) : bulkErase c (goto f s) = goto f (bulkErase c s) :=
  issueCommand_goto f c _ s
@[simp] theorem pageProgram_goto (f : Fsm) (c : Byte) (a : WireAddr) (d : List Byte) (s : State) : pageProgram c a d (goto f s) = goto f (pageProgram c a d s) := by
  simp only [pageProgram_eq, goto]
@[simp] theorem subsectorErase_goto (f : Fsm) (c : Byte) (a : WireAddr) (s : State) : subsectorErase c a (goto f s) = goto f (subsectorErase c a s) := by
  simp only [subsectorErase_eq, goto]
@[simp] theorem readData_goto (f : Fsm) (c : Byte) (a : WireAddr) (n : Nat) (s : State) : readData c a n (goto f s) = goto f (readData c a n s) := by
  simp only [readData_eq, goto]
@[simp] theorem readId_goto (f : Fsm) (c : Byte) (s : State) : readId c (goto f s) = goto f (readId c s) := by
  simp only [readId_eq, goto]
@[simp] theorem goto_goto (f g : Fsm) (s : State) : goto f (goto g s) = goto f s := rfl

/-- A step of a busy sequencer without reset. -/
theorem step_goto {s : State} {f : Fsm} (hp : s.resetPlan = []) (hf : f ≠ .idle) :
    step (goto f s) = advance (goto f s) := by
  rw [step_of_nil (s := goto f s) hp, cycle_busy (by simpa using hf)]

end Sys2Proof.Machine
end

