-- ==== Sys2Proof/Tests/Slice0.lean ====
section
/-! SUPPORT. Tests: the expected values are the spec's, from the encodings of 30_encoding.md and the vectors of
95_test_vectors.md; witnesses for the hypotheses of the statements. -/

namespace Sys2Proof.Tests

open Sys2Proof Sys2Proof.Machine

/-! ### Well-formedness: an ill-formed term for each check (R91) -/

theorem test_rd_length_not_32_bits_is_ill_formed : (Instr.rd 0 (2 ^ 32)).wf = false := by decide

theorem test_rd_longest_is_well_formed : (Instr.rd 0 (2 ^ 32 - 1)).wf = true := by decide

theorem test_pp_without_data_is_ill_formed : (Instr.pp 0 []).wf = false := by decide

theorem test_pp_past_a_page_is_ill_formed : (Instr.pp 0 (List.replicate 257 0)).wf = false := by
  rw [Instr.wf, List.length_replicate]; rfl

theorem test_pp_of_a_page_is_well_formed : (Instr.pp 0 (List.replicate 256 0)).wf = true := by
  rw [Instr.wf, List.length_replicate]; rfl

/-! ### Decoding: words written out from R80, R82 and R91, R93, R95 -/

theorem test_decode_probe : decodeRequest ⟨0b000, 0x05, 0, 0⟩ = .ok (.probe 0x05 0 0) := by decide

theorem test_decode_info : decodeRequest ⟨0b001, 0x01, 0, 0⟩ = .ok (.info 0x01 0 0) := by decide

theorem test_decode_read : decodeRequest ⟨0b010, 0, 0x10, 4⟩ = .ok (.read 0 0x10 4) := by decide

theorem test_decode_write : decodeRequest ⟨0b011, 0, 0x100, 3⟩ = .ok (.write 0 0x100 3) := by decide

theorem test_decode_erase : decodeRequest ⟨0b100, 0, 4100, 10⟩ = .ok (.erase 0 4100 10) := by decide

theorem test_decode_chip_erase : decodeRequest ⟨0b101, 0, 0, 0⟩ = .ok (.chipErase 0 0 0) := by decide

theorem test_decode_reserved :
    decodeRequest ⟨0b110, 0, 0, 0⟩ = .error .reservedOperation ∧
    decodeRequest ⟨0b111, 0, 0, 0⟩ = .error .reservedOperation := by decide

/-- The record as one number: `op` in bits 2..0, then `sel`, `addr`, `len` (assumption 6). -/
theorem test_decode_request_number :
    decode Opcodes.default (.request (BitVec.ofNat 75 (3 + 7 * 2 ^ 3 + 0x100 * 2 ^ 11 + 5 * 2 ^ 43))) =
      .ok (.write 7 0x100 5) := by decide

theorem test_decode_wren : decodeFrame Opcodes.default [0x06] = .ok .wren := by decide

theorem test_decode_wrdi : decodeFrame Opcodes.default [0x04] = .ok .wrdi := by decide

theorem test_decode_rdsr : decodeFrame Opcodes.default [0x05, 0x00] = .ok .rdsr := by decide

theorem test_decode_rdid :
    decodeFrame Opcodes.default
      [0x9F, 0, 0, 0, 0, 0, 0, 0, 0, 0, 0, 0, 0, 0, 0, 0, 0, 0, 0, 0, 0] = .ok .rdid := by decide

theorem test_decode_rd :
    decodeFrame Opcodes.default [0x03, 0x12, 0x34, 0x56, 0x00, 0x00] = .ok (.rd 0x123456 2) := by decide

theorem test_decode_rd_of_nothing :
    decodeFrame Opcodes.default [0x03, 0x00, 0x00, 0x10] = .ok (.rd 0x10 0) := by decide

theorem test_decode_pp :
    decodeFrame Opcodes.default [0x02, 0x00, 0x01, 0x00, 0x11, 0x22, 0x33] =
      .ok (.pp 0x000100 [0x11, 0x22, 0x33]) := by decide

theorem test_decode_sse :
    decodeFrame Opcodes.default [0x20, 0x00, 0x10, 0x00] = .ok (.sse 0x001000) := by decide

theorem test_decode_be : decodeFrame Opcodes.default [0xC7] = .ok .be := by decide

theorem test_decode_rejects_by_name :
    decodeFrame Opcodes.default [] = .error .emptyFrame ∧
    decodeFrame Opcodes.default [0xD8, 0, 0, 0] = .error .unknownOpcode ∧
    decodeFrame Opcodes.default [0x20, 0x00, 0x10] = .error .wrongLength ∧
    decodeFrame Opcodes.default [0x06, 0x00] = .error .wrongLength ∧
    decodeFrame Opcodes.default [0x02, 0x00, 0x01, 0x00] = .error .wrongLength ∧
    decodeFrame Opcodes.default [0x05, 0x01] = .error .wrongFiller := by decide

/-- The opcode table's words, least significant byte first. -/
theorem test_decode_table_words :
    decodeTableWord 8 0x02 = some (.read 0 0 0) ∧ decodeTableWord 8 0x05 = some (.chipErase 0 0 0) ∧
    decodeTableWord 8 0x06 = some .wren ∧ decodeTableWord 16 0x0005 = some .rdsr ∧
    decodeTableWord 32 0x00100020 = some (.sse 0x001000) ∧ decodeTableWord 8 0xC7 = some .be := by decide

/-- Vectors of section 2.2: address bytes (R55, R93) and device-id (R56). -/
theorem test_address_bytes :
    addrBytes (wireAddr 0x00123456) = [0x12, 0x34, 0x56] ∧ addrBytes (wireAddr 0x01000000) = [0x00, 0x00, 0x00] ∧
    addrBytes (wireAddr 0xABCDEF12) = [0xCD, 0xEF, 0x12] ∧ deviceId 0x20 0xBA = 0x20BA ∧
    deviceId 0x02 0x03 = 0x0203 := by decide

/-! ### Fixtures (section 0 of 95_test_vectors.md) -/

/-- The fixture parameters. -/
def cfg : Config where
  opc := Opcodes.default
  nCs := 256
  maxChips := 2
  registry := [⟨0x20, 0xBA16, 4194304, "FIXTURE N25Q032-class 4 MiB"⟩]
  pollLimit := none
  infoPolicy := .hold
  tPollWrite := 1
  tSettleErase := 70
  tPollErase := 5
  tPollChipErase := 5

/-- `DEV(20 BA 16)` with a given array, in the initial state of R265. -/
def dev (mem : Memory) : RefDevice :=
  RefDevice.initial 4194304 #v[0x20, 0xBA, 0x16, 0x10, 0, 0, 0, 0, 0, 0, 0, 0, 0, 0, 0, 0, 0, 0, 0, 0] Config.busyReads mem

/-- Fresh reset with a line on 5. -/
def fresh (l : Line) : State :=
  { State.resetWith cfg with env := { lines := [(5, l)], miso := [], freeIn := 0 } }

/-- A chip attached as handle 0 on line 5, an operation with code `op` in sequencer state `f`. -/
def busyAt (op : BitVec 3) (f : Fsm) (l : Line) : State :=
  { fresh l with
    att := [⟨5, 0⟩], csOe := 1#256 <<< 5, busInit := true, busy := true, op := op, fsm := f, csCur := 5,
    addr := 0x100, len := 3 }

/-- The same on an oracle line that answers a script. -/
def scripted (op : BitVec 3) (f : Fsm) (bytes : List Byte) : State :=
  { busyAt op f .empty with env := { lines := [], miso := bytes, freeIn := 0 } }

/-- A check on the next state, if there is one. -/
def nextHas (o : Outcome) (p : State → Bool) : Bool :=
  match o with
  | .next t => p t
  | .fault _ => false
  | .refused _ => false

/-! ### One step of each instruction -/

/-- R7 with `N_CS = 4`: PROBE validates nothing, so it goes on, but id 5 names no line. -/
theorem test_probe_of_no_line :
    nextHas (exec (.probe 5 0 0) { fresh .empty with fsm := .pInit, op := 0, sel := 5, cfg := { cfg with nCs := 4 } })
      (fun t => decide (t.trace = [.pinInit 5, .busInit]) && decide (t.csOe = 0) && decide (t.fsm = .pId)) = true := by
  decide

/-- S1: `PININIT(5) BUSINIT`. -/
theorem test_probe_initialises :
    nextHas (exec (.probe 5 0 0) { fresh (.device (dev [])) with fsm := .pInit, op := 0, sel := 5 })
      (fun t => decide (t.trace = [.pinInit 5, .busInit]) && lineBit t.csOe 5 && !lineBit t.csOe 6 && t.busInit) =
      true := by decide

/-- Vector of 2.5: a second probe of the same line takes a new handle. -/
theorem test_probe_appends_without_dedupe :
    nextHas (exec (.probe 5 0x100 3)
        { busyAt 0 .pResolve .empty with
          sel := 5, idbuf := #v[0x20, 0xBA, 0x16, 0, 0, 0, 0, 0, 0, 0, 0, 0, 0, 0, 0, 0, 0, 0, 0, 0] })
      (fun t => decide (t.att = [⟨5, 0⟩, ⟨5, 0⟩]) && decide (t.resHandle = 1) && decide (t.resCode = 0)) =
      true := by decide

/-- S1: INFO of the fixture's entry. -/
theorem test_info_bound :
    nextHas (exec (.info 0 0x100 3) (busyAt 1 .iLookup .empty))
      (fun t => decide (t.infoMfr = 0x20) && decide (t.infoDev = 0xBA16) && decide (t.infoSize = 4194304)) =
      true := by decide

/-- Vector of 2.5: INFO of an unbound handle under `error`. -/
theorem test_info_unbound_error :
    nextHas (exec (.info 1 0x100 3)
        { busyAt 1 .iLookup .empty with sel := 1, cfg := { cfg with infoPolicy := .error } })
      (fun t => decide (t.resCode = 4) && decide (t.infoMfr = 0)) = true := by decide

/-- Vector of 2.6: `READ 0, 0x01000010, 1`: the address is truncated. -/
theorem test_read_truncates_the_address :
    nextHas (exec (.read 0 0x01000010 1)
        { busyAt 2 .rFrame (.device (dev [(0x10, 0x10), (0x11, 0x11)])) with addr := 0x01000010, len := 1 })
      (fun t => decide (t.rdata = [0x10]) && decide (t.resCode = 0)) = true := by decide

/-- Vector of 2.6: `READ 255, 0, 0`: the handle is checked before the length. -/
theorem test_read_invalid_handle :
    nextHas (exec (.read 255 0 0) { busyAt 2 .rCheck .empty with sel := 255, addr := 0, len := 0 })
      (fun t => decide (t.resCode = 4) && decide (t.trace = [])) = true := by decide

/-- R195: the page program of three bytes at 0x000100. -/
theorem test_write_programs_the_chunk :
    nextHas (exec (.write 0 0x100 3)
        { scripted 3 .wPp [0, 0, 0, 0, 0, 0, 0] with cur := 0x100, k := 3, wdata := [0x11, 0x22, 0x33] })
      (fun t => decide (t.trace = [.sel 5, .xfer 0x02 0, .xfer 0x00 0, .xfer 0x01 0, .xfer 0x00 0,
        .hostIn 0x11, .xfer 0x11 0, .hostIn 0x22, .xfer 0x22 0, .hostIn 0x33, .xfer 0x33 0, .desel 5])) =
      true := by decide

/-- S7: the arm status 00 ends WRITE with WriteEnableFailed. -/
theorem test_write_not_armed :
    nextHas (exec (.write 0 0x100 3) (scripted 3 .wVerify [0x00, 0x00]))
      (fun t => decide (t.resCode = 5) && decide (t.fsm = .done)) = true := by decide

/-- S5: ERASE at 4100 of 10 bytes starts at 4096 and ends at 4110. -/
theorem test_erase_aligns :
    nextHas (exec (.erase 0 4100 10) { busyAt 4 .eCheck .empty with addr := 4100, len := 10 })
      (fun t => decide (t.cur = 4096) && decide (t.endAddr = 4110) && decide (t.csCur = 5)) = true := by decide

/-- Vector of 2.8: the end of `(0xFFFFF000, 0x2000)` does not wrap. -/
theorem test_erase_end_does_not_wrap :
    nextHas (exec (.erase 0 0xFFFFF000 0x2000) { busyAt 4 .eCheck .empty with addr := 0xFFFFF000, len := 0x2000 })
      (fun t => decide (t.cur = 0xFFFFF000) && decide (t.endAddr = 0x100001000)) = true := by decide

/-- Vector of 2.9: a poll status 00 completes CHIP_ERASE. -/
theorem test_chip_erase_completes :
    nextHas (exec (.chipErase 0 0x100 3) (scripted 5 .cPoll [0x00, 0x00]))
      (fun t => decide (t.resCode = 0) && decide (t.fsm = .done)) = true := by decide

/-- Last vector of 2.8: outside R67's domain the device has no meaning; the controller goes on. -/
theorem test_erase_out_of_range_has_no_device_side :
    nextHas (exec (.erase 0 0xFFFFF000 0x2000)
        { busyAt 4 .eCheck (.device (dev [])) with addr := 0xFFFFF000, len := 0x2000 })
      (fun t => decide (t.env.lineAt 5 = .oracle) && decide (t.fsm = .eNext)) = true := by decide

/-- Vector of 2.3: status FF goes on polling. -/
theorem test_chip_erase_goes_on_polling :
    nextHas (exec (.chipErase 0 0x100 3) (scripted 5 .cPoll [0x00, 0xFF]))
      (fun t => decide (t.polls = 1) && decide (t.fsm = .cWait)) = true := by decide

/-- 2.4: `READ_STATUS` keeps the second byte. -/
theorem test_rdsr :
    nextHas (exec .rdsr (scripted 3 .wVerify [0x77, 0xA5]))
      (fun t => decide (t.stat = 0xA5) &&
        decide (t.trace = [.sel 5, .xfer 0x05 0x77, .xfer 0x00 0xA5, .desel 5])) = true := by decide

theorem test_wren :
    nextHas (exec .wren (busyAt 3 .wWren (.device (dev []))))
      (fun t => (deviceAt t 5).any (fun d => d.wel && !d.wip)) = true := by decide

/-- S4, frame 4: WRDI to a busy device is ignored. -/
theorem test_wrdi_on_a_busy_device :
    nextHas (exec .wrdi (busyAt 3 .wWrdi (.device { dev [] with wel := true, wip := true, busyLeft := 1 })))
      (fun t => (deviceAt t 5).any (fun d => d.wel && d.wip)) = true := by decide

theorem test_rdid :
    nextHas (exec .rdid (busyAt 0 .pId (.device (dev []))))
      (fun t => decide (t.idbuf[0] = 0x20) && decide (t.idbuf[2] = 0x16) && decide (t.idbuf[3] = 0x10)) =
      true := by decide

theorem test_rd :
    nextHas (exec (.rd 0x10 2) (busyAt 2 .rFrame (.device (dev [(0x10, 0x10), (0x11, 0x11)]))))
      (fun t => decide (t.rdata = [0x10, 0x11])) = true := by decide

/-- R262: past the end of the page the address wraps to its start. -/
theorem test_pp_wraps_in_the_page :
    nextHas (exec (.pp 0xFE [1, 2, 3]) (busyAt 3 .wPp (.device { dev [] with wel := true })))
      (fun t => (deviceAt t 5).any
        (fun d => decide (d.pending = some (.program [(0xFE, 1), (0xFF, 2), (0x00, 3)])) && d.wip)) =
      true := by decide

/-- R258. -/
theorem test_sse :
    nextHas (exec (.sse 4100) (busyAt 4 .eSse (.device { dev [] with wel := true })))
      (fun t => (deviceAt t 5).any (fun d => decide (d.pending = some (.erase 4096 8191)))) = true := by decide

/-- R258: an array of 5000 bytes holds its second sub-sector only in part. -/
theorem test_sse_of_a_partial_subsector :
    nextHas (exec (.sse 4096) (busyAt 4 .eSse (.device { dev [] with wel := true, size := 5000 })))
      (fun t => (deviceAt t 5).any
        (fun d => decide (d.pending = some (.erase 4096 8191)) && d.wip && decide (d.busyLeft = 1))) = true := by decide

/-- R243: without the latch a chip erase is ignored. -/
theorem test_be_without_the_latch :
    nextHas (exec .be (busyAt 5 .cBe (.device (dev []))))
      (fun t => (deviceAt t 5).any (fun d => decide (d.pending = none) && !d.wip)) = true := by decide

/-! ### Reset and fetch -/

/-- 2.11: after a reset no handle is bound, the pin is no output, the device is as before. -/
theorem test_reset_in_wait :
    nextHas (step { busyAt 3 .wWait (.device (dev [(0, 0xDE)])) with resetPlan := [some 0] })
      (fun t => decide (t.att = []) && !lineBit t.csOe 5 && decide (t.fsm = .idle) &&
        decide (deviceAt t 5 = some (dev [(0, 0xDE)]))) = true := by decide

/-- R322: a frame cut short has no `DESEL`. -/
theorem test_reset_cuts_a_frame :
    nextHas (step { scripted 3 .wVerify [0x00, 0x02] with resetPlan := [some 2] })
      (fun t => decide (t.trace = [.sel 5, .xfer 0x05 0x00]) && lineBit t.csN 5) = true := by decide

/-- R322: a device keeps its array and its latch through a read frame or an ignored command cut short. -/
theorem test_reset_in_a_read_keeps_the_device :
    nextHas (step { busyAt 2 .rFrame (.device { dev [(0, 0xDE)] with wel := true }) with resetPlan := [some 5] })
      (fun t => decide (deviceAt t 5 = some { dev [(0, 0xDE)] with wel := true })) = true ∧
    nextHas (step { busyAt 4 .eSse (.device (dev [(0, 0xDE)])) with resetPlan := [some 3] })
      (fun t => decide (deviceAt t 5 = some (dev [(0, 0xDE)]))) = true := by decide

theorem test_fetch_request_runs_first_after_reset :
    nextHas (step ((fresh .empty).withFetchWord 8 0x02))
      (fun t => decide (t.fsm = .rCheck) && t.busy && decide (t.op = 2)) = true := by decide

theorem test_fetch_wire_command_runs_first_after_reset :
    nextHas (step ((scripted 3 .idle [0, 0, 0, 0]).withFetchWord 32 0x00100020))
      (fun t => decide (t.trace.map (fun e => decide (e = .xfer 0x10 0)) = [false, false, false, true, false, false])) =
      true := by decide

/-! ### Arrays -/

/-- R260, R261: 0F AND F5 is 05; an erase leaves nothing listed in its range. -/
theorem test_program_and_erase :
    Memory.program [(1, 0x0F)] [(1, 0xF5), (3, 0x7F)] = [(1, 0x05), (3, 0x7F)] ∧
    Memory.erase [(4095, 1), (4096, 2), (8191, 3), (8192, 4)] 4096 8191 = [(4095, 1), (8192, 4)] ∧
    Memory.write [(1, 0x0F)] 1 0xFF = [] := by decide

/-! ### Witnesses: for every statement with hypotheses, a concrete state and operands that meet them -/

/-- The host presents requests to an idle controller with one chip attached. -/
def idleWith (l : Line) (rs : List HostRequest) : State :=
  { busyAt 0 .idle l with busy := false, requests := rs }

theorem cfg_wf : cfg.wf := by decide

theorem fresh_env_wf (l : Line) (h : Env.lineOk l = true) : (fresh l).env.wf := by
  refine ⟨List.pairwise_singleton _ _, fun p hp => ?_⟩
  obtain rfl := List.mem_singleton.mp hp
  exact h

theorem dev_wf : (dev []).wf := 
  RefDevice.initial_wf ⟨.nil, fun _ h => by cases h⟩ (fun _ h => by cases h) (by decide) (by decide) _ _

theorem fresh_lineAt (l : Line) (c : Byte) : (fresh l).env.lineAt c = if c = 5 then l else .oracle := by
  show (if 5 = c.toNat then l else .oracle) = _
  have : 5 = c.toNat ↔ c = 5 := by rw [← BitVec.toNat_inj]; exact eq_comm
  simp only [this]

theorem busyAt_matches {op : BitVec 3} {f : Fsm} {l : Line} {i : Instr}
    (hd : decodeRequest ⟨op, 0, 0x100, 3⟩ = .ok i) (ho : f.owner = some op ∨ f.owner = none) :
    OperationMatchesFsm (busyAt op f l) := by
  refine fun _ => ⟨⟨i, hd⟩, fun o h => ?_⟩
  have h : f.owner = some o := h
  rcases ho with ho | ho <;> rw [ho] at h
  · exact Option.some.inj h
  · cases h

/-- A device of the fixture's size on line 5 has the size of every entry of the fixture's registry. -/
theorem fresh_size {l : Line} {c : Byte} {d : RefDevice} {r : Nat} {e : ChipDescriptor}
    (hs : ∀ d, l = .device d → d.size = 4194304) (h : (fresh l).env.lineAt c = .device d)
    (he : cfg.registry[r]? = some e) : d.size = e.size.toNat := by
  rw [fresh_lineAt] at h
  split_ifs at h
  obtain rfl := List.mem_singleton.mp (List.mem_of_getElem? he)
  exact hs d h

/-- A busy state that meets the invariant outside the loop registers, for any state `f` of operation `op`. -/
theorem busyAt_inv {op : BitVec 3} {f : Fsm} {l : Line} {i : Instr} {c e : Nat} {k : BitVec 9}
    (hd : decodeRequest ⟨op, 0, 0x100, 3⟩ = .ok i) (ho : f.owner = some op ∨ f.owner = none) (hf : f ≠ .idle)
    (hl : Env.lineOk l = true) (hr : f ≠ .pResolve) (hs : ∀ d, l = .device d → d.size = 4194304)
    (hw : WriteChunkMap { busyAt op f l with cur := c, k := k, rem := 3, endAddr := e })
    (he : EraseIterationMap { busyAt op f l with cur := c, k := k, rem := 3, endAddr := e }) :
    MachineInv { busyAt op f l with cur := c, k := k, rem := 3, endAddr := e } where
  config := cfg_wf
  busy := by simp [BusyMatchesFsm, busyAt, hf]
  operation := busyAt_matches (l := l) hd ho
  lines := lineBit_allOnes
  exist := fun x h => absurd x.isLt (Nat.not_lt.mpr h)
  bounded := by simp [TableBounded, busyAt, fresh, State.resetWith, cfg]
  types := by simp [TableTypesValid, busyAt, fresh, State.resetWith, cfg]
  ready := by
    have h5 : lineBit (1#256 <<< 5) 5 = true := by decide
    refine ⟨fun x hx => ?_, fun _ => ⟨fun _ => h5, rfl⟩⟩
    obtain rfl := List.mem_singleton.mp hx
    exact ⟨fun _ => h5, rfl⟩
  code := by simp [ResultCodeLegal, busyAt, fresh, State.resetWith, ResultCode.code]
  polls := by simp [PollsBelowLimit, busyAt, fresh, State.resetWith, cfg]
  chunks := hw
  subsectors := he
  memory := fresh_env_wf l hl
  deviceSizes := fun x d r e hx _ he => fresh_size hs hx he
  chipSizes := fun x _ d e hx he => fresh_size hs hx he
  identified := fun h => absurd h hr
  range := fun _ _ d hd => by
    have h := hs d ((if_pos rfl : (if (5 : Nat) = 5 then l else .oracle) = l).symm.trans hd)
    simp [RefDevice.covers, h, busyAt, fresh]

theorem witness_invariant_at_page_program :
    MachineInv { busyAt 3 .wPp .empty with cur := 0x100, k := 3, rem := 3, endAddr := 0 } := by
  refine busyAt_inv (i := .write 0 0x100 3) rfl (.inl rfl) (by simp) rfl (by simp) nofun ⟨nofun, fun _ => ⟨0, ?_, ?_, ?_⟩⟩ ?_
  · exact ⟨rfl, rfl, rfl⟩
  · decide
  · rfl
  · exact ⟨by simp [busyAt], by simp [busyAt]⟩

theorem witness_invariant_at_sub_sector_erase :
    MachineInv { busyAt 4 .eSse .empty with cur := 0, k := 0, rem := 3, endAddr := 0x103 } := by
  refine busyAt_inv (i := .erase 0 0x100 3) rfl (.inl rfl) (by simp) rfl (by simp) nofun ?_ ⟨fun _ => ⟨rfl, 0, rfl⟩, fun _ => ?_⟩
  · exact ⟨by simp [busyAt], by simp [busyAt]⟩
  · show (0 : Nat) < 0x103
    decide

/-- `StepKeepsTheInvariant`, `SelectsOnlyInitialisedLines`. -/
theorem witness_StepKeepsTheInvariant :
    ∃ s t : State, MachineInv s ∧ s.resetPlan = [] ∧ step s = .next t ∧ BusEvent.sel 5 ∈ t.trace :=
  ⟨_, _, witness_invariant_at_page_program, rfl, rfl, by decide⟩

/-- `EmittedAddressesFollowTheMaps`, both clauses. -/
theorem witness_EmittedAddressesFollowTheMaps :
    (∃ (s : State) (a : WireAddr) (d : List Byte), MachineInv s ∧ wireAt s = some (.pp a d)) ∧ (∃ (s : State) (a : WireAddr), MachineInv s ∧ wireAt s = some (.sse a)) :=
  ⟨⟨_, _, _, witness_invariant_at_page_program, rfl⟩, ⟨_, _, witness_invariant_at_sub_sector_erase, rfl⟩⟩

theorem witness_DecodeOfEncodeIsIdentity :
    Opcodes.default.wf ∧ (Instr.pp 0xFFFFFF [0xFF]).wf = true := by decide

theorem witness_EncodeOfDecodeIsIdentity :
    decode Opcodes.default (.frame [0x20, 0xFF, 0xFF, 0xFF]) = .ok (.sse 0xFFFFFF) := by decide

theorem witness_ReservedOperationCodesAreRefused :
    ∃ (s : State) (r : HostRequest) (rs : List HostRequest), s.resetPlan = [] ∧ s.fsm = .idle ∧ s.requests = r :: rs ∧ (r.req.op = 6 ∨ r.req.op = 7) :=
  ⟨idleWith .empty [⟨⟨7, 0, 0, 0⟩, []⟩], _, _, rfl, rfl, rfl, .inr rfl⟩

/-- `TraceParsesBackToTheCommand`, `BracketDeassertsItsLineOnly`, `WireCommandsChangeOnlyTheBus`. -/
theorem witness_TraceParsesBackToTheCommand :
    ∃ (s t : State) (w : Instr) (es : List BusEvent), s.cfg.opc.wf ∧ w.wf = true ∧ w.isHost = false ∧ exec w s = .next t ∧ t.trace = s.trace ++ es ∧
      s.env.wf :=
  ⟨busyAt 3 .wPp .empty, _, .pp 0x100 [1], _, by decide, by decide, rfl, rfl, rfl, fresh_env_wf _ rfl⟩

/-- `StepRunsTheFetchedInstruction`: each clause. -/
theorem witness_StepRunsTheFetchedInstruction :
    (∃ (s : State) (r : HostRequest) (rs : List HostRequest) (i : Instr), s.resetPlan = [] ∧ s.fsm = .idle ∧ s.requests = r :: rs ∧ decodeRequest r.req = .ok i) ∧
    (∃ (s : State) (i : Instr), s.resetPlan = [] ∧ s.fsm ≠ .idle ∧ decodeRequest (latched s) = .ok i) ∧
    (∃ s : State, s.resetPlan = [] ∧ s.fsm = .idle ∧ s.requests = []) ∧
    (∃ (s : State) (rs : List (Option Nat)), s.resetPlan = none :: rs) :=
  ⟨⟨idleWith .empty [⟨⟨5, 0, 0, 0⟩, []⟩], _, _, .chipErase 0 0 0, rfl, rfl, rfl, rfl⟩,
    ⟨busyAt 0 .pInit .empty, .probe 0 0x100 3, rfl, by decide, rfl⟩, ⟨State.reset, rfl, rfl, rfl⟩,
    ⟨{ State.reset with resetPlan := [none, some 0] }, _, rfl⟩⟩

/-- Every state that emits a wire command meets the hypotheses of `BusyStepEmitsTheWireCommand`. -/
theorem witness_BusyStepEmitsTheWireCommand :
    ∀ p ∈ [((0 : BitVec 3), Fsm.pId), (2, .rFrame), (3, .wWren), (3, .wVerify), (3, .wPp), (3, .wWrdi), (3, .wPoll),
        (4, .eWren), (4, .eVerify), (4, .eSse), (4, .ePoll), (4, .eWrdi), (5, .cWren), (5, .cVerify), (5, .cBe),
        (5, .cPoll)],
      (busyAt p.1 p.2 .empty).resetPlan = [] ∧ (wireAt (busyAt p.1 p.2 .empty)).isSome = true ∧
      (decodeRequest (latched (busyAt p.1 p.2 .empty))).toOption.isSome = true ∧ p.2.owner = some p.1 := by decide

theorem witness_RequestAcceptedOnlyWhenIdle :
    (∃ (s : State) (r : Request) (i : Instr), decodeRequest r = .ok i ∧ s.fsm = .idle) ∧
    (∃ (s : State) (r : Request) (i : Instr), decodeRequest r = .ok i ∧ s.fsm ≠ .idle ∧ latched s ≠ r) :=
  ⟨⟨State.reset, ⟨0, 5, 0, 0⟩, .probe 5 0 0, rfl, rfl⟩,
    ⟨busyAt 3 .wPoll .empty, ⟨0, 5, 0, 0⟩, .probe 5 0 0, rfl, by decide, by decide⟩⟩

/-- `BusyStepTakesNoRequest`, `TransitionsFollowTheTable`. -/
theorem witness_BusyStepTakesNoRequest :
    ∃ s t : State, s.resetPlan = [] ∧ s.fsm ≠ .idle ∧ step s = .next t ∧ s.requests ≠ [] :=
  ⟨{ busyAt 3 .wWait .empty with requests := [⟨⟨0, 5, 0, 0⟩, []⟩] }, _, rfl, by decide, rfl, by decide⟩

theorem witness_DoneIsTheOnlyWayBackToIdle :
    (∃ (s : State) (i : Instr), s.resetPlan = [] ∧ s.fsm = .done ∧ decodeRequest (latched s) = .ok i) ∧
    (∃ s t : State, s.resetPlan = [] ∧ s.fsm ≠ .idle ∧ step s = .next t ∧ t.fsm = .idle) :=
  ⟨⟨busyAt 1 .done .empty, .info 0 0x100 3, rfl, rfl, rfl⟩, ⟨busyAt 1 .done .empty, _, rfl, by decide, rfl, rfl⟩⟩

/-- The clauses of `TransitionsFollowTheTable` on the edges into `DONE`. -/
theorem witness_TransitionsFollowTheTable :
    nextHas (step { scripted 3 .wPoll [0, 1] with cfg := { cfg with pollLimit := some 1 } })
      (fun t => decide (t.fsm = .done)) = true ∧
    nextHas (step { scripted 4 .ePoll [0, 1] with cfg := { cfg with pollLimit := some 1 } })
      (fun t => decide (t.fsm = .done)) = true ∧
    nextHas (step (scripted 5 .cPoll [0, 0])) (fun t => decide (t.fsm = .done)) = true := by decide

/-- Both alternatives of `AttachedTableIsAppendOnly` happen. -/
theorem witness_AttachedTableIsAppendOnly :
    nextHas (step { busyAt 0 .pResolve .empty with
        idbuf := #v[0x20, 0xBA, 0x16, 0, 0, 0, 0, 0, 0, 0, 0, 0, 0, 0, 0, 0, 0, 0, 0, 0] })
      (fun t => decide (t.attCount = 2)) = true ∧
    nextHas (step (busyAt 0 .pResolve .empty)) (fun t => decide (t.attCount = 1)) = true := by decide

theorem witness_ResetLeavesTheStatedValues : ∃ s, s = State.reset := ⟨_, rfl⟩

/-- `LookupIsTheFirstExactMatch`: a hit, a miss, the sentinel (vectors of 2.1). -/
theorem witness_LookupIsTheFirstExactMatch :
    lookup (fresh .empty) 0x20 0xBA16 = some 0 ∧ lookup (fresh .empty) 0x20 0xBA17 = none ∧ cfg.wf ∧
    lookup { fresh .empty with cfg := { cfg with registry :=
      [⟨0x20, 0xBA16, 1, "A"⟩, ⟨0x20, 0xBA16, 2, "B"⟩] } } 0x20 0xBA16 = some 0 := by decide

theorem witness_OracleAnswersFromTheEnvironment :
    ∃ (s t : State) (w : Instr) (script rest : List Byte), w.isHost = false ∧ s.env.lineAt s.csCur = .oracle ∧ s.env.miso = script ++ rest ∧
      script.length = (frameOf s.cfg.opc w).length ∧ exec w s = .next t :=
  ⟨scripted 3 .wVerify [0x00, 0x02, 0x55], _, .rdsr, [0x00, 0x02], [0x55], rfl, rfl, rfl, rfl, rfl⟩

theorem witness_DiscardedInputDoesNotMatter :
    ∃ w : Instr, w.isHost = false ∧ w ≠ .rdsr ∧ w ≠ .rdid ∧ ∀ a n, w ≠ .rd a n :=
  ⟨.pp 0 [1], rfl, by simp, by simp, by simp⟩

/-- The states of the per-state statements, by operation: `ProbeInitialisesPinAndBus`, `ProbeReadsTheId`,
`ProbeTestsInOrderAndAppends`, `InfoProjectsTheRegistryEntry`, `ReadIsOneFrame`, `WriteTransitions`,
`EraseTransitions`, `ChipEraseTransitions`. -/
theorem witness_states_of_operations :
    ∀ p ∈ [((0 : BitVec 3), Fsm.pInit), (0, .pId), (0, .pResolve), (1, .iLookup), (2, .rFrame), (3, .wNext), (3, .wWren),
        (3, .wVerify), (3, .wPp), (3, .wWrdi), (3, .wPoll), (3, .wWait), (3, .wAdv), (4, .eNext), (4, .eWren),
        (4, .eVerify), (4, .eSse), (4, .eSettle), (4, .ePoll), (4, .eWait), (4, .eAdv), (4, .eWrdi), (5, .cWren),
        (5, .cVerify), (5, .cBe), (5, .cPoll), (5, .cWait)],
      (busyAt p.1 p.2 .empty).fsm = p.2 ∧ latched (busyAt p.1 p.2 .empty) = ⟨p.1, 0, 0x100, 3⟩ := by decide

/-- The four clauses of `ProbeTestsInOrderAndAppends`: the first ID byte, the lookup, the count at its bound. -/
theorem witness_ProbeTestsInOrderAndAppends :
    let ids (m d1 d2 : Byte) : Vector Byte 20 := #v[m, d1, d2, 0, 0, 0, 0, 0, 0, 0, 0, 0, 0, 0, 0, 0, 0, 0, 0, 0]
    let s := busyAt 0 .pResolve .empty
    (ids 0xFF 0xBA 0x16)[0] = 0xFF ∧ lookup s (ids 0x00 0xBA 0x16)[0] 0xBA16 = none ∧
    lookup s (ids 0x20 0xFF 0xFF)[0] 0xFFFF = none ∧ lookup s (ids 0x20 0xBA 0x16)[0] 0xBA16 = some 0 ∧
    s.attCount ≠ s.cfg.maxChips ∧ ({ s with att := [⟨5, 0⟩, ⟨6, 0⟩] } : State).attCount = s.cfg.maxChips := by decide

/-- `InfoProjectsTheRegistryEntry`, `HandleIsCheckedFirst` (bound), `InfoOnUnboundHandleFollowsThePolicy`: the last bound handle,
the first unbound one and the largest. -/
theorem witness_handles :
    (busyAt 1 .iLookup .empty).att[(0 : Byte).toNat]? = some ⟨5, 0⟩ ∧
    ((busyAt 1 .iLookup .empty).cfg.registry[0]?).isSome = true ∧
    (busyAt 1 .iLookup .empty).attCount ≤ (1 : Byte).toNat ∧
    (busyAt 1 .iLookup .empty).attCount ≤ (255 : Byte).toNat ∧
    cfg.infoPolicy = .hold ∧ ({ cfg with infoPolicy := .error } : Config).infoPolicy = .error := by decide

/-- `HandleIsCheckedFirst`: the four operations on an unbound handle. -/
theorem witness_HandleIsCheckedFirst :
    ∀ p ∈ [((2 : BitVec 3), Fsm.rCheck), (3, .wCheck), (4, .eCheck), (5, .cCheck)],
      let s := { busyAt p.1 p.2 .empty with sel := 1 }
      s.attCount ≤ (1 : Byte).toNat ∧ s.fsm = p.2 ∧ latched s = ⟨p.1, 1, 0x100, 3⟩ := by decide

/-- Status reads that make each clause of the poll and arm transitions apply (vectors of 2.3): WIP and WEL clear,
set, and the limit just reached and not yet reached. -/
theorem witness_status_clauses :
    (readStatus 5 (scripted 3 .wPoll [0x00, 0x00])).stat.getLsbD 0 = false ∧
    (readStatus 5 (scripted 3 .wPoll [0x00, 0x01])).stat.getLsbD 0 = true ∧
    (readStatus 5 (scripted 3 .wVerify [0x00, 0x02])).stat.getLsbD 1 = true ∧
    (readStatus 5 (scripted 3 .wVerify [0x00, 0x01])).stat.getLsbD 1 = false ∧
    limitReached (some 3) (2 + 1) = true ∧ limitReached (some 3) (1 + 1) = false ∧ limitReached none 7 = false := by
  decide

/-- Loop ends of `WriteTransitions` and `EraseTransitions`: rem 0, 1 and past a page; cur at and below the end; the host's
stream just long enough. -/
theorem witness_loop_clauses :
    (busyAt 3 .wNext .empty).rem = 0 ∧ ({ busyAt 3 .wNext .empty with rem := 1 } : State).rem ≠ 0 ∧
    chunkLen 257 = 256 ∧ chunkLen 1 = 1 ∧
    ¬(({ busyAt 4 .eNext .empty with cur := 4096, endAddr := 4096 } : State).cur < 4096) ∧
    ({ busyAt 4 .eNext .empty with cur := 4096, endAddr := 4097 } : State).cur < 4097 ∧
    ({ busyAt 3 .wPp .empty with k := 2, wdata := [1, 2] } : State).k ≤ [1, 2].length := by decide

theorem witness_RaiseEndsTheOperationAtOnce :
    ∃ (s : State) (i : Instr), s.resetPlan = [] ∧ decodeRequest (latched s) = .ok i :=
  ⟨busyAt 3 .wPoll .empty, .write 0 0x100 3, rfl, rfl⟩

theorem witness_OperationsEndOnlyWithTheirCodes :
    ∃ s t : State, s.resetPlan = [] ∧ OperationMatchesFsm s ∧ s.fsm ≠ .done ∧ step s = .next t ∧ t.fsm = .done ∧
      s.op = opProbe :=
  ⟨busyAt 0 .pResolve .empty, _, rfl, busyAt_matches (i := .probe 0 0x100 3) rfl (.inl rfl), by decide, rfl,
    by decide, rfl⟩

/-- The other operations end too: INFO, READ, WRITE, ERASE, CHIP_ERASE. -/
theorem witness_operations_end :
    ∀ s ∈ [busyAt 1 .iLookup .empty, busyAt 2 .rFrame .empty, busyAt 3 .wNext .empty, busyAt 4 .eWrdi .empty,
        scripted 5 .cVerify [0, 0]],
      nextHas (step s) (fun t => decide (t.fsm = .done)) = true := by decide

/-- `FailedArmSendsNothingMore` in WRITE, ERASE and CHIP_ERASE. -/
theorem witness_FailedArmSendsNothingMore :
    ∀ p ∈ [((3 : BitVec 3), Fsm.wVerify), (4, .eVerify), (5, .cVerify)],
      (scripted p.1 p.2 [0, 0]).resetPlan = [] ∧ p.2.owner = some p.1 ∧
      nextHas (exec .rdsr (scripted p.1 p.2 [0, 0])) (fun t => !t.stat.getLsbD 1) = true := by decide

/-- `HostOperationsKeepWhatTheyDoNotOwn`, for each host operation. -/
theorem witness_HostOperationsKeepWhatTheyDoNotOwn :
    ∀ i ∈ [Instr.probe 0 0x100 3, .info 0 0x100 3, .read 0 0x100 3, .write 0 0x100 3, .erase 0 0x100 3,
        .chipErase 0 0x100 3],
      i.isHost = true ∧ nextHas (exec i (busyAt 3 .wPoll .empty)) (fun _ => true) = true := by decide

/-- `IdleDeviceFollowsItsCommands`, `BusyDeviceIgnoresAllButStatusReads`: an idle device with the latch set and clear, the
last byte of the last page and of a last sub-sector that is whole and one that is partial, a busy one with a poll left and with none. -/
theorem witness_devices :
    Opcodes.default.wf ∧ (busyAt 3 .wPp (.device (dev []))).env.lineAt 5 = .device (dev []) ∧
    (dev []).wip = false ∧ (dev []).refusals = [] ∧ (dev []).wel = false ∧
    ({ dev [] with refusals := [true, false] } : RefDevice).refusals = true :: [false] ∧
    (∀ i < 2, (0x3FFFFF : WireAddr).toNat / 256 * 256 + ((0x3FFFFF : WireAddr).toNat + i) % 256 < (dev []).size) ∧
    (0x3FFFFF : WireAddr).toNat < (dev []).size ∧ (4999 : WireAddr).toNat < ({ dev [] with size := 5000 } : RefDevice).size ∧
    ({ dev [] with wip := true, busyLeft := 1 } : RefDevice).busyLeft ≠ 0 ∧
    ({ dev [] with wip := true, busyLeft := 0 } : RefDevice).busyLeft = 0 := by decide

theorem witness_ProgramAndsAndEraseSets : Memory.wf [(1, 0x0F), (4096, 0x00)] := by
  constructor
  · decide
  · decide

theorem idle_device_env_wf : (fresh (.device (dev []))).env.wf := fresh_env_wf _ (Env.lineOk_device.mpr dev_wf.1)

/-- A chunk at the end of the last page of the device. -/
theorem witness_ProgrammedChunkReadsBack :
    ∃ (s : State) (d : RefDevice) (a : WireAddr) (data : List Byte), s.cfg.opc.wf ∧ s.env.wf ∧
      s.env.lineAt s.csCur = .device d ∧ d.wf ∧ d.wip = false ∧ d.refusals = [] ∧ 1 ≤ data.length ∧
      a.toNat % 256 + data.length ≤ 256 ∧ a.toNat + data.length ≤ d.size ∧
      (∀ i < data.length, d.mem.read (a.toNat + i) = 0xFF) ∧ a.toNat + data.length = d.size :=
  ⟨busyAt 3 .wPp (.device (dev [])), dev [], 0x3FFFFE, [1, 2], by decide, idle_device_env_wf, rfl, dev_wf, rfl, rfl,
    by decide, by decide, by decide, fun _ _ => rfl, rfl⟩

/-- Two bytes at the end of a page, by the second alternative of the alignment hypothesis. -/
theorem witness_WriteThenReadDeliversTheData :
    ∃ (s : State) (d : RefDevice) (e : Attached) (h : Byte) (a n : Word) (data : List Byte) (rs : List HostRequest),
      s.resetPlan = [] ∧ s.fsm = .idle ∧ s.cfg.opc.wf ∧ s.env.wf ∧
      s.requests = ⟨⟨3, h, a, n⟩, data⟩ :: ⟨⟨2, h, a, n⟩, []⟩ :: rs ∧ s.att[h.toNat]? = some e ∧
      s.env.lineAt e.cs = .device d ∧ d.wf ∧ d.wip = false ∧ d.refusals = [] ∧
      (∀ l, s.cfg.pollLimit = some l → d.busyReads < l) ∧ data.length = n.toNat ∧
      a.toNat % 256 + n.toNat = 256 ∧ a.toNat % 256 ≠ 0 ∧ a.toNat + n.toNat ≤ d.size ∧
      ∀ i < n.toNat, d.mem.read (a.toNat + i) = 0xFF :=
  ⟨idleWith (.device (dev [])) [⟨⟨3, 0, 0xFE, 2⟩, [1, 2]⟩, ⟨⟨2, 0, 0xFE, 2⟩, []⟩], dev [], ⟨5, 0⟩, 0, 0xFE, 2, [1, 2],
    [], rfl, rfl, by decide, idle_device_env_wf, rfl, rfl, rfl, dev_wf, rfl, rfl, nofun, rfl, by decide, by decide,
    by decide, fun _ _ => rfl⟩

/-- S4's 300 bytes at address 0 in two chunks, by the first alternative, with a poll limit just above the device's
busy reads. -/
theorem witness_WriteThenReadDeliversTheData_two_chunks :
    ∃ (s : State) (d : RefDevice) (e : Attached) (h : Byte) (a n : Word) (data : List Byte) (rs : List HostRequest),
      s.resetPlan = [] ∧ s.fsm = .idle ∧ s.cfg.opc.wf ∧ s.env.wf ∧
      s.requests = ⟨⟨3, h, a, n⟩, data⟩ :: ⟨⟨2, h, a, n⟩, []⟩ :: rs ∧ s.att[h.toNat]? = some e ∧
      s.env.lineAt e.cs = .device d ∧ d.wf ∧ d.wip = false ∧ d.refusals = [] ∧
      (∀ l, s.cfg.pollLimit = some l → d.busyReads < l) ∧ data.length = n.toNat ∧
      a.toNat % 256 = 0 ∧ 256 < n.toNat ∧ a.toNat + n.toNat ≤ d.size ∧
      ∀ i < n.toNat, d.mem.read (a.toNat + i) = 0xFF :=
  ⟨{ idleWith (.device (dev [])) [⟨⟨3, 0, 0, 300⟩, List.replicate 300 7⟩, ⟨⟨2, 0, 0, 300⟩, []⟩] with
      cfg := { cfg with pollLimit := some 2 } }, dev [], ⟨5, 0⟩, 0, 0, 300, List.replicate 300 7, [], rfl, rfl,
    by decide, idle_device_env_wf, rfl, rfl, rfl, dev_wf, rfl, rfl,
    fun l hl => by obtain rfl := Option.some.inj hl; decide, List.length_replicate, by decide, by decide, by decide,
    fun _ _ => rfl⟩

/-- `ResetInAnyState`: before the first event and inside a frame. -/
theorem witness_ResetInAnyState :
    (∃ s : State, ∃ rs, s.resetPlan = some 0 :: rs ∧ wireAt s = none) ∧
    (∃ s : State, ∃ rs, s.resetPlan = some 2 :: rs ∧ (wireAt s).isSome = true ∧ s.env.wf) :=
  ⟨⟨{ State.reset with resetPlan := [some 0] }, [], rfl, rfl⟩,
    ⟨{ busyAt 3 .wVerify .empty with resetPlan := [some 2] }, [], rfl, rfl, fresh_env_wf _ rfl⟩⟩

/-- `UnresponsiveDeviceHangsTheController`, for each of the three poll loops. -/
theorem witness_UnresponsiveDeviceHangsTheController :
    ∀ p ∈ [((3 : BitVec 3), Fsm.wPoll), (4, .ePoll), (5, .cPoll)],
      (busyAt p.1 p.2 .empty).resetPlan = [] ∧ p.2.owner = some p.1 ∧ (busyAt p.1 p.2 .empty).busy = true ∧
      (busyAt p.1 p.2 .empty).cfg.pollLimit = none ∧
      (busyAt p.1 p.2 .empty).env.lineAt (busyAt p.1 p.2 .empty).csCur = .empty := by decide

theorem witness_poll_loop_matches :
    OperationMatchesFsm (busyAt 3 .wPoll .empty) ∧ OperationMatchesFsm (busyAt 4 .ePoll .empty) ∧
    OperationMatchesFsm (busyAt 5 .cPoll .empty) :=
  ⟨busyAt_matches (i := .write 0 0x100 3) rfl (.inl rfl), busyAt_matches (i := .erase 0 0x100 3) rfl (.inl rfl),
    busyAt_matches (i := .chipErase 0 0x100 3) rfl (.inl rfl)⟩

/-- `FiniteLimitEndsInTimeout`: no poll made and one before the limit. -/
theorem witness_FiniteLimitEndsInTimeout_each_loop :
    ∀ p ∈ [((3 : BitVec 3), Fsm.wPoll), (4, .ePoll), (5, .cPoll)],
      let s := { busyAt p.1 p.2 .empty with cfg := { cfg with pollLimit := some 1 } }
      s.resetPlan = [] ∧ p.2.owner = some p.1 ∧ s.cfg.pollLimit = some 1 ∧ s.env.lineAt s.csCur = .empty ∧
      s.polls < 1 ∧ s.fsm = p.2 ∧ (decodeRequest (latched s)).toOption.isSome = true := by decide

theorem witness_FiniteLimitEndsInTimeout :
    ∃ s : State, ∃ l, s.resetPlan = [] ∧ OperationMatchesFsm s ∧ s.cfg.pollLimit = some l ∧
      s.env.lineAt s.csCur = .empty ∧ s.polls < l ∧ s.polls + 1 = l ∧ s.fsm = .wPoll :=
  ⟨{ busyAt 3 .wPoll .empty with polls := 2, cfg := { cfg with pollLimit := some 3 } }, 3, rfl,
    busyAt_matches (op := 3) (f := .wPoll) (l := .empty) (i := .write 0 0x100 3) rfl (.inl rfl), rfl, by decide,
    by decide, rfl, rfl⟩

/-- `UnresponsiveDeviceHangsTheController`, the way out: a status read with WIP clear. -/
theorem witness_poll_loop_left :
    nextHas (step (scripted 3 .wPoll [0, 0])) (fun t => decide (t.fsm = .wAdv) && !t.stat.getLsbD 0) = true := by decide

theorem witness_InvariantStatesStepOn :
    ∃ s, MachineInv s ∧ StepsOn s :=
  ⟨_, witness_invariant_at_page_program, _, rfl⟩

/-- `StateMachineRunsThePseudocode`: an INFO and a WRITE of nothing end with little fuel. -/
theorem witness_StateMachineRunsThePseudocode :
    (pseudocode 0 (.info 0 0 0) (accept ⟨1, 0, 0, 0⟩ .iLookup (idleWith .empty []))).answer.isSome = true ∧
    (pseudocode 1 (.write 0 0 0) (accept ⟨3, 0, 0, 0⟩ .wCheck (idleWith .empty []))).answer.isSome = true := by decide

/-- `ResetMeetsTheInvariant`: the fixture device in its initial state has the size its registry entry gives. -/
theorem witness_ResetMeetsTheInvariant :
    cfg.wf ∧ (5 : Byte).toNat < cfg.nCs ∧ lookup (State.resetWith cfg) 0x20 ((0xBA : Byte) ++ (0x16 : Byte)) = some 0 ∧
    cfg.registry[0]?.map (fun e => e.size.toNat) = some (dev []).size := by decide

/-- `PseudocodeFollowsTheStateMachine`: an INFO comes to `DONE` in two steps and not before. -/
theorem witness_PseudocodeFollowsTheStateMachine :
    let s := idleWith .empty [⟨⟨1, 0, 0, 0⟩, []⟩]
    let after (k : Nat) := nextHas (Host.Core.run core k s) (fun t => decide (t.fsm = .done))
    after 0 = false ∧ after 1 = false ∧ after 2 = true := by decide

/-- `OnlyExistingLinesAreDriven`, both clauses: an id at `N_CS`, and PROBE's own line. -/
theorem witness_OnlyExistingLinesAreDriven :
    let s := { fresh .empty with fsm := .pInit, op := 0, sel := 5, cfg := { cfg with nCs := 6 } }
    s.resetPlan = [] ∧ s.cfg.nCs ≤ (6 : Byte).toNat ∧
    nextHas (step s) (fun t => !lineBit t.csOe 6 && lineBit t.csOe 5) = true ∧ lineBit s.csOe 5 = false := by decide

/-- `OutOfRangeOperationsHaveNoDeviceSide`: the last byte of the device, the byte after it, an address bit above 23, and a
line without a device. -/
theorem witness_OutOfRangeOperationsHaveNoDeviceSide :
    (∀ p ∈ [((2 : BitVec 3), Fsm.rCheck), (3, .wCheck), (4, .eCheck)],
      ∀ q ∈ [((0x3FFFFF : Word), (1 : Word)), (0x3FFFFF, 2), (0x1000000, 0)],
        let s := { busyAt p.1 p.2 (.device (dev [])) with addr := q.1, len := q.2 }
        s.att[(0 : Byte).toNat]? = some ⟨5, 0⟩ ∧ latched s = ⟨p.1, 0, q.1, q.2⟩ ∧ s.fsm = p.2) ∧
    (busyAt 3 .wCheck (.device (dev []))).env.lineAt 5 = .device (dev []) ∧
    (0x3FFFFF : Word).toNat + (1 : Word).toNat = (dev []).size ∧
    (dev []).size < (0x3FFFFF : Word).toNat + (2 : Word).toNat ∧ 2 ^ 24 ≤ (0x1000000 : Word).toNat ∧
    (fresh (.device (dev []))).env.wf ∧ (fresh .empty).env.lineAt 5 = .empty :=
  ⟨by simp [busyAt, fresh, latched, State.resetWith], rfl, by decide, by decide, by decide, idle_device_env_wf, rfl⟩

/-- `OutOfRangeOperationsHaveNoDeviceSide`, its second part: at a page program and at a sub-sector erase of a device, and at a read. -/
theorem witness_frames_stay_inside_the_array :
    (∃ s d, MachineInv s ∧ s.env.lineAt s.csCur = .device d ∧ ∃ a data, wireAt s = some (.pp a data)) ∧
    (∃ s d, MachineInv s ∧ s.env.lineAt s.csCur = .device d ∧ ∃ a, wireAt s = some (.sse a)) ∧
    ∃ s d, MachineInv s ∧ s.env.lineAt s.csCur = .device d ∧ ∃ a n, wireAt s = some (.rd a n) := by
  have hd : ∀ d, Line.device (dev []) = .device d → d.size = 4194304 := by
    rintro d hd
    obtain rfl : dev [] = d := by simpa using hd
    rfl
  have hl : Env.lineOk (.device (dev [])) = true := Env.lineOk_device.mpr dev_wf.1
  have hw : MachineInv { busyAt 3 .wPp (.device (dev [])) with cur := 0x100, k := 3, rem := 3, endAddr := 0 } := by
    refine busyAt_inv (i := .write 0 0x100 3) rfl (.inl rfl) (by simp) hl (by simp) hd ⟨nofun, fun _ => ⟨0, ?_, ?_, ?_⟩⟩ ?_
    · exact ⟨rfl, rfl, rfl⟩
    · decide
    · rfl
    · exact ⟨by simp [busyAt], by simp [busyAt]⟩
  have he : MachineInv { busyAt 4 .eSse (.device (dev [])) with cur := 0, k := 0, rem := 3, endAddr := 0x103 } := by
    refine busyAt_inv (i := .erase 0 0x100 3) rfl (.inl rfl) (by simp) hl (by simp) hd ?_
      ⟨fun _ => ⟨rfl, 0, rfl⟩, fun _ => ?_⟩
    · exact ⟨by simp [busyAt], by simp [busyAt]⟩
    · show (0 : Nat) < 0x103
      decide
  have hr : MachineInv { busyAt 2 .rFrame (.device (dev [])) with cur := 0, k := 0, rem := 3, endAddr := 0 } :=
    busyAt_inv (i := .read 0 0x100 3) rfl (.inl rfl) (by simp) hl (by simp) hd ⟨by simp [busyAt], by simp [busyAt]⟩
      ⟨by simp [busyAt], by simp [busyAt]⟩
  exact ⟨⟨_, dev [], hw, rfl, _, _, rfl⟩, ⟨_, dev [], he, rfl, _, rfl⟩, ⟨_, dev [], hr, rfl, _, _, rfl⟩⟩

theorem witness_StepsWithoutResetIgnoreThePlan :
    ({ busyAt 3 .wWait .empty with resetPlan := [none, some 1] } : State).resetPlan = none :: [some 1] := rfl

/-- `ResetLeavesTheDevices`: each command of WRITE, ERASE, CHIP_ERASE, PROBE and READ, cut after 0, 1 and 2 exchanges, on a
device whose array holds the cells of the page program and the address of the sub-sector erase. -/
theorem witness_ResetLeavesTheDevices :
    (∀ p ∈ [((0 : BitVec 3), Fsm.pId), (2, .rFrame), (3, .wWren), (3, .wVerify), (3, .wPp), (3, .wWrdi), (4, .eSse),
        (5, .cBe)],
      ∀ n ∈ [0, 1, 2],
        let s := { busyAt p.1 p.2 (.device (dev [])) with resetPlan := [some (n + 1)] }
        (wireAt s).isSome = true ∧ s.cfg.opc.wf ∧ s.env.lineAt s.csCur = .device (dev []) ∧
          nextHas (step s) (fun _ => true) = true) ∧
    (busyAt 3 .wPp (.device (dev []))).env.wf ∧
    (∀ i < 3, 0x100 / 256 * 256 + (0x100 + i) % 256 < (dev []).size) :=
  ⟨by decide, idle_device_env_wf, by decide⟩

/-- `InfoReportsTheSizeOfTheChip`. -/
theorem witness_InfoReportsTheSizeOfTheChip :
    MachineInv { busyAt 1 .iLookup (.device (dev [])) with cur := 0, k := 0, rem := 3, endAddr := 0 } ∧
    latched (busyAt 1 .iLookup (.device (dev []))) = ⟨1, 0, 0x100, 3⟩ ∧
    (busyAt 1 .iLookup (.device (dev []))).att[(0 : Byte).toNat]? = some ⟨5, 0⟩ ∧
    (busyAt 1 .iLookup (.device (dev []))).env.lineAt 5 = .device (dev []) := by
  refine ⟨busyAt_inv (i := .info 0 0x100 3) rfl (.inl rfl) (by simp) (Env.lineOk_device.mpr dev_wf.1) (by simp) ?_ ?_ ?_,
    rfl, rfl, rfl⟩
  · rintro d hd
    obtain rfl : dev [] = d := by simpa using hd
    rfl
  · exact ⟨by simp [busyAt], by simp [busyAt]⟩
  · exact ⟨by simp [busyAt], by simp [busyAt]⟩

end Sys2Proof.Tests
end

section
/-! ## The address bytes of the wire commands (R93) -/

namespace Sys2Proof.Machine

/-- R93: below bit 24 a byte of the wire address is the byte at the same place of the natural address. -/
theorem wireAddr_extractByte (a k : Nat) (hk : k + 8 ≤ 24) :
    (wireAddr a).extractLsb' k 8 = BitVec.ofNat 8 (a / 2 ^ k) := by
  apply BitVec.eq_of_getLsbD_eq
  intro i hi
  have hki : k + i < 24 := by omega
  simp only [wireAddr, BitVec.getLsbD_extractLsb', BitVec.getLsbD_ofNat, Nat.testBit_div_two_pow, hi, hki,
    Nat.add_comm i k, decide_true, Bool.true_and]

/-- R93: bits 23:16, 15:8 and 7:0 of the address, most significant first. -/
theorem addrBytes_wireAddr (a : Nat) :
    addrBytes (wireAddr a) = [BitVec.ofNat 8 (a / 65536), BitVec.ofNat 8 (a / 256), BitVec.ofNat 8 a] := by
  have h16 : (wireAddr a).extractLsb' 16 8 = BitVec.ofNat 8 (a / 65536) := wireAddr_extractByte a 16 (by decide)
  have h8 : (wireAddr a).extractLsb' 8 8 = BitVec.ofNat 8 (a / 256) := wireAddr_extractByte a 8 (by decide)
  have h0 : (wireAddr a).extractLsb' 0 8 = BitVec.ofNat 8 a := by
    simpa using wireAddr_extractByte a 0 (by decide)
  rw [addrBytes, h16, h8, h0]

theorem wireAt_rFrame {s : State} (h : s.fsm = .rFrame) :
    wireAt s = some (.rd (wireAddr s.addr.toNat) s.len.toNat) := by
  rw [wireAt, h]

theorem wireAt_wPp {s : State} (h : s.fsm = .wPp) : wireAt s = some (.pp (wireAddr s.cur) (chunkData s)) := by
  rw [wireAt, h]

theorem wireAt_eSse {s : State} (h : s.fsm = .eSse) : wireAt s = some (.sse (wireAddr s.cur)) := by
  rw [wireAt, h]

/-- The first four bytes of a frame with an address, whatever follows them (R91). -/
theorem take_four_opcode_addrBytes (opc : Byte) (a : WireAddr) (rest : List Byte) :
    (opc :: (addrBytes a ++ rest)).take 4 = opc :: addrBytes a := by
  rw [List.take_succ_cons, List.take_left' (addrBytes_length a)]

/-- Settles O5: the three bytes bit by bit, the sequencer's three frames by its state, and the frames by what their
formats shift out. -/
theorem wireAddressIsThreeBytesBigEndian : Obligations.WireAddressIsThreeBytesBigEndian := by
  refine ⟨addrBytes_wireAddr, fun s => ⟨wireAt_rFrame, fun h => ⟨_, wireAt_wPp h⟩, wireAt_eSse, fun o a n data => ?_⟩⟩
  refine ⟨?read, ?pageProgram, ?subsectorErase⟩
  case read => rw [frameOf, outs_formatAR, take_four_opcode_addrBytes]
  case pageProgram => rw [frameOf, outs_formatAW, take_four_opcode_addrBytes]
  case subsectorErase => rw [frameOf, outs_formatA]

end Sys2Proof.Machine
end

section
/-! ## LOOKUP is the library's search for the first index (R121) -/

namespace Sys2Proof.Machine

/-- R121: an exact match, in both fields of the key. -/
abbrev MatchesId (m : Byte) (d : BitVec 16) (e : ChipDescriptor) : Prop := e.mfr = m ∧ e.dev = d

/-- The scan's start index only shifts the index found. -/
theorem lookupFrom_eq_findIdx? (m : Byte) (d : BitVec 16) (es : List ChipDescriptor) (r : Nat) :
    lookupFrom m d es r = (es.findIdx? (MatchesId m d ·)).map (· + r) := by
  induction es generalizing r with
  | nil => rfl
  | cons e es ih =>
    rw [lookupFrom, List.findIdx?_cons]
    by_cases hm : MatchesId m d e
    · simp [hm]
    · simp [hm, ih, Function.comp_def, Nat.add_comm 1 r, Nat.add_assoc]

theorem lookup_eq_findIdx? (s : State) (m : Byte) (d : BitVec 16) :
    lookup s m d = s.cfg.registry.findIdx? (MatchesId m d ·) := by
  simp [lookup, lookupFrom_eq_findIdx?]

theorem lookup_eq_none_iff {s : State} {m : Byte} {d : BitVec 16} :
    lookup s m d = none ↔ ∀ e ∈ s.cfg.registry, ¬ MatchesId m d e := by
  simp only [lookup_eq_findIdx?, List.findIdx?_eq_none_iff, decide_eq_false_iff_not]

theorem lookup_eq_some_iff {s : State} {m : Byte} {d : BitVec 16} {r : Nat} :
    lookup s m d = some r ↔
      (∃ e, s.cfg.registry[r]? = some e ∧ MatchesId m d e) ∧
      ∀ r' < r, ∀ e, s.cfg.registry[r']? = some e → ¬ MatchesId m d e := by
  simp only [lookup_eq_findIdx?, List.findIdx?_eq_some_iff_getElem, decide_eq_true_eq]
  constructor
  · rintro ⟨hr, hmatch, hfirst⟩
    refine ⟨⟨_, List.getElem?_eq_getElem hr, hmatch⟩, fun r' hr' e he => ?_⟩
    obtain ⟨_, rfl⟩ := List.getElem?_eq_some_iff.mp he
    exact hfirst r' hr'
  · rintro ⟨⟨e, he, hmatch⟩, hfirst⟩
    obtain ⟨hr, rfl⟩ := List.getElem?_eq_some_iff.mp he
    exact ⟨hr, hmatch, fun r' hr' => hfirst r' hr' _ (List.getElem?_eq_getElem (hr'.trans hr))⟩

/-- R21: a registry that meets its constraint has no entry with manufacturer 0, the sentinel's. -/
theorem lookup_zero_of_wf {s : State} (hwf : s.cfg.wf) (d : BitVec 16) : lookup s 0 d = none := by
  obtain ⟨_, _, _, hmfr, _⟩ := hwf
  exact lookup_eq_none_iff.mpr fun e he hmatch => hmfr e he hmatch.1

/-- Settles O15: LOOKUP is the library's `findIdx?` on the exact match, and manufacturer 0 is in no well-formed registry. -/
theorem lookupIsTheFirstExactMatch : Obligations.LookupIsTheFirstExactMatch :=
  fun _ _ d => ⟨fun _ => lookup_eq_some_iff, lookup_eq_none_iff, fun hwf => lookup_zero_of_wf hwf d⟩

end Sys2Proof.Machine
end

section
/-! ## The status read (R141) -/

namespace Sys2Proof.Machine

theorem exec_rdsr (s : State) : exec .rdsr s = .next (readStatus s.csCur s) := rfl

/-- R141: the frame shifts two bytes out, so two bytes come in. -/
theorem Env.frameInput_eq_pair (o : Opcodes) (c b0 b1 : Byte) (e : Env) :
    ∃ i0 i1, Env.frameInput o c [b0, b1] e = [i0, i1] :=
  List.length_eq_two.mp (Env.frameInput_length o c [b0, b1] e)

theorem frameEvents_formatS (c opc dummy i0 i1 : Byte) :
    frameEvents c (formatS opc dummy) [i0, i1] = [.sel c, .xfer opc i0, .xfer dummy i1, .desel c] := rfl

/-- Settles O17: the frame of `readStatus_eq` takes in exactly two bytes, and the second goes to `stat`. -/
theorem statusReadKeepsTheSecondByte : Obligations.StatusReadKeepsTheSecondByte := by
  intro s
  obtain ⟨i0, i1, hin⟩ := Env.frameInput_eq_pair s.cfg.opc s.csCur s.cfg.opc.rdsr s.cfg.opc.dummyTx s.env
  refine ⟨Env.frameAfter s.cfg.opc s.csCur [s.cfg.opc.rdsr, s.cfg.opc.dummyTx] s.env, i0, i1, ?_⟩
  rw [exec_rdsr, readStatus_eq, hin, frameEvents_formatS, List.getD_cons_succ, List.getD_cons_zero]

end Sys2Proof.Machine
end

section
/-! ## The identification read (R162) -/

namespace Sys2Proof.Machine

theorem exec_rdid (s : State) : exec .rdid s = .next (readId s.csCur s) := rfl

/-- R162: the frame shifts 21 bytes out, so one byte comes in with the opcode and 20 after it. -/
theorem Env.frameInput_formatI_eq_cons (o : Opcodes) (c opc dummy : Byte) (e : Env) :
    ∃ (i0 : Byte) (ids : Vector Byte 20), Env.frameInput o c (outs (formatI opc dummy)) e = i0 :: ids.toList := by
  have hlen : (Env.frameInput o c (outs (formatI opc dummy)) e).length = 20 + 1 := by simp
  obtain ⟨i0, rest, hin⟩ := List.exists_of_length_succ _ hlen
  rw [hin] at hlen
  exact ⟨i0, ⟨rest.toArray, Nat.succ.inj hlen⟩, hin⟩

/-- R133: exchanges that hand nothing to the host pair each byte shifted out with the byte shifted in. -/
theorem exchangesEvents_plainExchanges (bs is : List Byte) :
    exchangesEvents (plainExchanges bs) is = List.zipWith BusEvent.xfer bs is := by
  induction bs generalizing is with
  | nil => rfl
  | cons b bs ih =>
    cases is with
    | nil => rfl
    | cons i is => exact congrArg (BusEvent.xfer b i :: ·) (ih is)

theorem zipWith_xfer_replicate (b : Byte) (is : List Byte) :
    List.zipWith BusEvent.xfer (List.replicate is.length b) is = is.map (BusEvent.xfer b) := by
  rw [← List.map_const', List.zipWith_map_left, List.zipWith_self]

/-- R131, R162: one bracket with the opcode exchange and 20 filler exchanges. -/
theorem frameEvents_formatI (c opc dummy i0 : Byte) (ids : Vector Byte 20) :
    frameEvents c (formatI opc dummy) (i0 :: ids.toList) =
      [.sel c, .xfer opc i0] ++ ids.toList.map (BusEvent.xfer dummy) ++ [.desel c] := by
  have hfill : List.zipWith BusEvent.xfer (List.replicate 20 dummy) ids.toList = ids.toList.map (BusEvent.xfer dummy) := by
    simpa using zipWith_xfer_replicate dummy ids.toList
  simp [frameEvents, formatI, exchangesEvents_plainExchanges, hfill]

/-- R162: the bytes kept are the ones after the opcode's. -/
theorem ofFn_getD_succ_cons_toList (i0 : Byte) (ids : Vector Byte 20) :
    Vector.ofFn (fun i : Fin 20 => (i0 :: ids.toList).getD (i.val + 1) 0) = ids := by
  ext i hi
  simp

/-- Settles O23: the frame of `readId_eq` takes in one byte with the opcode and 20 after it, which are the ones logged
and the ones kept. -/
theorem readIdFillsTheIdBuffer : Obligations.ReadIdFillsTheIdBuffer := by
  intro s
  obtain ⟨i0, ids, hin⟩ := Env.frameInput_formatI_eq_cons s.cfg.opc s.csCur s.cfg.opc.rdid s.cfg.opc.dummyTx s.env
  refine ⟨Env.frameAfter s.cfg.opc s.csCur (outs (formatI s.cfg.opc.rdid s.cfg.opc.dummyTx)) s.env, i0, ids, ?_⟩
  rw [exec_rdid, readId_eq, hin, frameEvents_formatI, ofFn_getD_succ_cons_toList]
  simp only [List.append_assoc]

end Sys2Proof.Machine
end

section
/-! ## INFO's lookup (R165) -/

namespace Sys2Proof.Machine

/-- R30: the operation in progress makes one transition of its state machine. -/
theorem hostOp_of_latched {r : Request} {s : State} (first : Fsm) (advance : State → Outcome)
    (hbusy : s.fsm ≠ .idle) (hr : latched s = r) : hostOp r first advance s = advance s := by
  rw [hostOp, if_neg hbusy, if_pos hr]

theorem exec_info (h : Byte) (a n : Word) (s : State) :
    exec (.info h a n) s = hostOp ⟨opInfo, h, a, n⟩ .iLookup infoFsm s := rfl

theorem exec_info_of_iLookup {s : State} {h : Byte} {a n : Word} (hf : s.fsm = .iLookup)
    (hl : latched s = ⟨opInfo, h, a, n⟩) : exec (.info h a n) s = infoLookup s := by
  have hbusy : s.fsm ≠ .idle := by simp [hf]
  rw [exec_info, hostOp_of_latched _ _ hbusy hl, infoFsm, hf]

theorem infoLookup_of_bound {s : State} {e : Attached} {d : ChipDescriptor}
    (he : s.att[s.sel.toNat]? = some e) (hd : s.cfg.registry[e.type]? = some d) :
    infoLookup s = .next (returnOk (writeInfo d s)) := by
  simp only [infoLookup, describe, he, hd]

/-- Settles O26: in `I_LOOKUP` INFO is the lookup of the latched handle, which is bound. -/
theorem infoProjectsTheRegistryEntry : Obligations.InfoProjectsTheRegistryEntry := by
  intro s h a n e d hf hl he hd
  have hsel : s.sel = h := congrArg Request.sel hl
  rw [exec_info_of_iLookup hf hl, infoLookup_of_bound (hsel ▸ he) hd]
  rfl

end Sys2Proof.Machine
end

section
/-! ## The data read (R182) -/

namespace Sys2Proof.Machine

theorem exec_rd (a : WireAddr) (n : Nat) (s : State) : exec (.rd a n) s = .next (readData s.csCur a n s) := rfl

theorem exists_eq_cons_four {α : Type} {l : List α} {n : Nat} (h : l.length = n + 4) :
    ∃ x0 x1 x2 x3 rest, rest.length = n ∧ l = x0 :: x1 :: x2 :: x3 :: rest := by
  obtain ⟨x0, l1, rfl⟩ := List.exists_of_length_succ l h
  obtain ⟨x1, l2, rfl⟩ := List.exists_of_length_succ l1 (Nat.succ.inj h)
  obtain ⟨x2, l3, rfl⟩ := List.exists_of_length_succ l2 (by simpa using h)
  obtain ⟨x3, rest, rfl⟩ := List.exists_of_length_succ l3 (by simpa using h)
  exact ⟨x0, x1, x2, x3, rest, by simpa using h, rfl⟩

/-- R91: a frame with an address takes in four bytes with its opcode and address, and one with each byte after them. -/
theorem Env.frameInput_opcode_addrBytes_eq_cons (o : Opcodes) (c opc : Byte) (a : WireAddr) (rest : List Byte) (e : Env) :
    ∃ i0 i1 i2 i3 ins, ins.length = rest.length ∧
      Env.frameInput o c (opc :: (addrBytes a ++ rest)) e = i0 :: i1 :: i2 :: i3 :: ins := by
  apply exists_eq_cons_four
  rw [Env.frameInput_length, List.length_cons, List.length_append, addrBytes_length, Nat.add_comm 3]

/-- R91, R93: the opcode and the address are four exchanges, most significant address byte first, whatever follows. -/
theorem exchangesEvents_formatA_append (opc : Byte) (a : WireAddr) (xs : List Exchange) (i0 i1 i2 i3 : Byte)
    (ins : List Byte) :
    exchangesEvents (formatA opc a ++ xs) (i0 :: i1 :: i2 :: i3 :: ins) =
      [.xfer opc i0, .xfer (a.extractLsb' 16 8) i1, .xfer (a.extractLsb' 8 8) i2, .xfer (a.extractLsb' 0 8) i3] ++
        exchangesEvents xs ins := rfl

/-- R131, R182: one bracket with the opcode, the address and one filler exchange for each byte handed to the host. -/
theorem frameEvents_formatAR (c opc dummy : Byte) (a : WireAddr) (i0 i1 i2 i3 : Byte) (data : List Byte) :
    frameEvents c (formatAR opc a data.length dummy) (i0 :: i1 :: i2 :: i3 :: data) =
      [.sel c, .xfer opc i0, .xfer (a.extractLsb' 16 8) i1, .xfer (a.extractLsb' 8 8) i2,
        .xfer (a.extractLsb' 0 8) i3] ++
      data.flatMap (fun b => [BusEvent.xfer dummy b, .hostOut b]) ++ [.desel c] := by
  rw [frameEvents, formatAR, exchangesEvents_formatA_append, exchangesEvents_toHost]
  rfl

/-- Settles O28: the frame of `readData_eq` takes in four bytes with the opcode and the address and `n` after them,
which are the ones logged and the ones handed to the host. -/
theorem readDataFrameDeliversEveryByte : Obligations.ReadDataFrameDeliversEveryByte := by
  intro s a n
  obtain ⟨i0, i1, i2, i3, data, hlen, hin⟩ := Env.frameInput_opcode_addrBytes_eq_cons s.cfg.opc s.csCur s.cfg.opc.read a
    (List.replicate n s.cfg.opc.dummyTx) s.env
  obtain rfl : data.length = n := by rw [hlen, List.length_replicate]
  refine ⟨Env.frameAfter s.cfg.opc s.csCur (outs (formatAR s.cfg.opc.read a data.length s.cfg.opc.dummyTx)) s.env,
    i0, i1, i2, i3, data, rfl, ?_⟩
  rw [exec_rd, readData_eq, outs_formatAR, hin, frameEvents_formatAR]
  simp only [List.append_assoc, List.drop_succ_cons, List.drop_zero]

end Sys2Proof.Machine
end

section
/-! ## Completion after a raised error (R32, R290) -/

namespace Sys2Proof.Machine

/-- R32: in `DONE` the state machine of every operation only retires it. -/
theorem advance_of_done {s : State} {i : Instr} (hf : s.fsm = .done) (hd : decodeRequest (latched s) = .ok i) :
    advance s = .next (retire s) := by
  unfold advance
  split_ifs with hprobe hinfo hread hwrite herase hchip
  · rw [probeFsm, hf]
  · rw [infoFsm, hf]
  · rw [readFsm, hf]
  · rw [writeFsm, hf]
  · rw [eraseFsm, hf]
  · rw [chipEraseFsm, hf]
  · have hreserved : decodeRequest (latched s) = .error .reservedOperation := by
      simp [decodeRequest, latched, hprobe, hinfo, hread, hwrite, herase, hchip]
    exact absurd (hd.symm.trans hreserved) (by simp)

theorem step_of_done {s : State} {i : Instr} (hp : s.resetPlan = []) (hf : s.fsm = .done)
    (hd : decodeRequest (latched s) = .ok i) : step s = .next (retire s) := by
  rw [step_of_nil hp, cycle_busy (by simp [hf]), advance_of_done hf hd]

theorem latched_raise (e : ResultCode) (s : State) : latched (raise e s) = latched s := rfl

/-- Settles O36: `raise` leaves the latched request and the reset plan alone and enters `DONE`, whose only step is the
retirement of R32. -/
theorem raiseEndsTheOperationAtOnce : Obligations.RaiseEndsTheOperationAtOnce := by
  intro s e i hp hd
  refine ⟨rfl, ?_⟩
  have hplan : (raise e s).resetPlan = [] := (raise_resetPlan e s).trans hp
  have hlatched : decodeRequest (latched (raise e s)) = .ok i := (latched_raise e s).symm ▸ hd
  exact step_of_done hplan (raise_fsm e s) hlatched

end Sys2Proof.Machine
end

section
/-! ## Decoding and encoding are inverse to each other (R80, R82, R91, R95, R96) -/

namespace Sys2Proof

/-! ### The host request -/

/-- R82: the operation decoded keeps every field of the record, so its code is the record's number. -/
theorem encode_of_decodeRequest {o : Opcodes} {r : Request} {i : Instr} (h : decodeRequest r = .ok i) :
    encode o i = .request r.toWord ∧ i.wf = true := by
  rcases decodeRequest_cases r with ⟨hop, e⟩ | ⟨hop, e⟩ | ⟨hop, e⟩ | ⟨hop, e⟩ | ⟨hop, e⟩ | ⟨hop, e⟩ | ⟨_, e⟩ <;>
    rw [e] at h <;> cases h
  all_goals exact ⟨by rw [encode, ← hop], rfl⟩

theorem decode_request_toWord (o : Opcodes) (r : Request) : decode o (.request r.toWord) = decodeRequest r := by
  rw [decode, Request.ofWord_toWord]

/-! ### The operands of each frame format (R91) -/

theorem all_beq_iff_eq_replicate {b : Byte} {bs : List Byte} :
    bs.all (· == b) = true ↔ bs = List.replicate bs.length b := by
  simp [List.eq_replicate_iff]

theorem decodeFixed_eq_ok_iff {i j : Instr} {n : Nat} {dummy : Byte} {rest : List Byte} :
    decodeFixed i n dummy rest = .ok j ↔ rest = List.replicate n dummy ∧ i = j := by
  rw [decodeFixed]
  constructor
  · intro h
    split_ifs at h with hn hall
    cases h
    exact ⟨hn ▸ all_beq_iff_eq_replicate.mp hall, rfl⟩
  · rintro ⟨rfl, rfl⟩
    simp

theorem decodeAR_eq_ok_iff {dummy : Byte} {rest : List Byte} {i : Instr} :
    decodeAR dummy rest = .ok i ↔
      ∃ a n, n < 2 ^ 32 ∧ rest = addrBytes a ++ List.replicate n dummy ∧ i = .rd a n := by
  constructor
  · intro h
    unfold decodeAR at h
    split at h
    · rename_i a2 a1 a0 ds
      split_ifs at h with hn hall
      cases h
      refine ⟨addrOfBytes a2 a1 a0, ds.length, hn, ?_, rfl⟩
      rw [addrBytes_addrOfBytes, ← all_beq_iff_eq_replicate.mp hall]
      rfl
    · cases h
  · rintro ⟨a, n, hn, rfl, rfl⟩
    simp only [decodeAR, addrBytes, List.cons_append, List.nil_append, List.length_replicate, addrOfBytes_extract]
    rw [if_pos hn, if_pos (by simp)]

theorem decodeAW_eq_ok_iff {rest : List Byte} {i : Instr} :
    decodeAW rest = .ok i ↔
      ∃ a data, 1 ≤ data.length ∧ data.length ≤ Config.pageSize ∧ rest = addrBytes a ++ data ∧ i = .pp a data := by
  constructor
  · intro h
    unfold decodeAW at h
    split at h
    · rename_i a2 a1 a0 ds
      split_ifs at h with hn
      cases h
      refine ⟨addrOfBytes a2 a1 a0, ds, hn.1, hn.2, ?_, rfl⟩
      rw [addrBytes_addrOfBytes]
      rfl
    · cases h
  · rintro ⟨a, data, h1, h256, rfl, rfl⟩
    simp only [decodeAW, addrBytes, List.cons_append, List.nil_append, addrOfBytes_extract]
    exact if_pos ⟨h1, h256⟩

theorem decodeA_eq_ok_iff {rest : List Byte} {i : Instr} :
    decodeA rest = .ok i ↔ ∃ a, rest = addrBytes a ∧ i = .sse a := by
  constructor
  · intro h
    unfold decodeA at h
    split at h
    · rename_i a2 a1 a0
      cases h
      exact ⟨addrOfBytes a2 a1 a0, (addrBytes_addrOfBytes a2 a1 a0).symm, rfl⟩
    · cases h
  · rintro ⟨a, rfl, rfl⟩
    simp [decodeA, addrBytes, addrOfBytes_extract]

/-! ### Frames (R96) -/

/-- R95, R96: with pairwise distinct opcodes the frame of a well-formed wire command decodes to it. -/
theorem decodeFrame_outs_frameOf {o : Opcodes} (ho : o.wf) {w : Instr} (hw : w.wf = true) (hh : w.isHost = false) :
    decodeFrame o (outs (frameOf o w)) = .ok w := by
  obtain ⟨⟨w1, w2, w3, w4, w5, w6, w7⟩, ⟨d1, d2, d3, d4, d5, d6⟩, ⟨s1, s2, s3, s4, s5⟩, ⟨i1, i2, i3, i4⟩, ⟨r1, r2, r3⟩,
    ⟨p1, p2⟩, e1⟩ := Machine.opcodes_distinct ho
  cases w <;> simp only [Instr.isHost, Bool.true_eq_false] at hh
  case wren => simp [frameOf, decodeFrame, decodeFixed_eq_ok_iff]
  case wrdi => simp [frameOf, decodeFrame, decodeFixed_eq_ok_iff, w1.symm]
  case rdsr => simp [frameOf, decodeFrame, decodeFixed_eq_ok_iff, w2.symm, d1.symm]
  case rdid => simp [frameOf, decodeFrame, decodeFixed_eq_ok_iff, Config.idLen, w3.symm, d2.symm, s1.symm]
  case rd a n =>
    simp only [frameOf, Machine.outs_formatAR, decodeFrame, w4.symm, d3.symm, s2.symm, i1.symm, if_false, if_true]
    exact decodeAR_eq_ok_iff.mpr ⟨a, n, of_decide_eq_true hw, rfl, rfl⟩
  case pp a data =>
    simp only [frameOf, Machine.outs_formatAW, decodeFrame, w5.symm, d4.symm, s3.symm, i2.symm, r1.symm, if_false,
      if_true]
    simp only [Instr.wf, Bool.and_eq_true, decide_eq_true_eq] at hw
    exact decodeAW_eq_ok_iff.mpr ⟨a, data, hw.1, hw.2, rfl, rfl⟩
  case sse a =>
    simp only [frameOf, Machine.outs_formatA, decodeFrame, w6.symm, d5.symm, s4.symm, i3.symm, r2.symm, p1.symm, if_false,
      if_true]
    exact decodeA_eq_ok_iff.mpr ⟨a, rfl, rfl⟩
  case be =>
    simp [frameOf, decodeFrame, decodeFixed_eq_ok_iff, w7.symm, d6.symm, s5.symm, i4.symm, r3.symm, p2.symm, e1.symm]

/-- R91: a frame that decodes is the one its command shifts out, and that command is well formed. -/
theorem encode_of_decodeFrame {o : Opcodes} {bs : List Byte} {w : Instr} (h : decodeFrame o bs = .ok w) :
    encode o w = .frame bs ∧ w.wf = true := by
  cases bs with
  | nil => cases h
  | cons b rest =>
    rw [decodeFrame] at h
    split_ifs at h with hwren hwrdi hrdsr hrdid hread hpp hsse hbe
    iterate 4
      · obtain ⟨rfl, rfl⟩ := decodeFixed_eq_ok_iff.mp h
        exact ⟨by simp [encode, frameOf, Config.idLen, *], rfl⟩
    · obtain ⟨a, n, hn, rfl, rfl⟩ := decodeAR_eq_ok_iff.mp h
      exact ⟨by simp [encode, frameOf, hread], decide_eq_true hn⟩
    · obtain ⟨a, data, h1, h256, rfl, rfl⟩ := decodeAW_eq_ok_iff.mp h
      exact ⟨by simp [encode, frameOf, hpp], by simp [Instr.wf, h1, h256]⟩
    · obtain ⟨a, rfl, rfl⟩ := decodeA_eq_ok_iff.mp h
      exact ⟨by simp [encode, frameOf, hsse], rfl⟩
    · obtain ⟨rfl, rfl⟩ := decodeFixed_eq_ok_iff.mp h
      exact ⟨by simp [encode, frameOf, hbe], rfl⟩

/-! ### The obligations on the encodings -/

/-- Settles O1: a host operation by the record read back from its number, a wire command by its frame. -/
theorem decodeOfEncodeIsIdentity : Obligations.DecodeOfEncodeIsIdentity := by
  intro o i ho hi
  cases i
  case probe | info | read | write | erase | chipErase => exact decode_request_toWord o _
  all_goals exact decodeFrame_outs_frameOf ho hi rfl

/-- Settles O2: each of the two places of a code by what its decoder can accept. -/
theorem encodeOfDecodeIsIdentity : Obligations.EncodeOfDecodeIsIdentity := by
  intro o c i h
  cases c with
  | request w =>
    have hw := encode_of_decodeRequest (o := o) h
    rwa [Request.toWord_ofWord] at hw
  | frame bs => exact encode_of_decodeFrame h

/-- Settles O3: the decoder evaluated on each word. -/
theorem wordsDecodeAsTheSpecWritesThem : Obligations.WordsDecodeAsTheSpecWritesThem := by
  unfold Obligations.WordsDecodeAsTheSpecWritesThem
  decide

theorem decodeRequest_eq_error_iff {r : Request} :
    decodeRequest r = .error .reservedOperation ↔ r.op = 6 ∨ r.op = 7 := by
  rcases decodeRequest_cases r with ⟨hop, e⟩ | ⟨hop, e⟩ | ⟨hop, e⟩ | ⟨hop, e⟩ | ⟨hop, e⟩ | ⟨hop, e⟩ | ⟨hop, e⟩
  case inr.inr.inr.inr.inr.inr => exact ⟨fun _ => hop, fun _ => e⟩
  all_goals simp [e, hop, opProbe, opInfo, opRead, opWrite, opErase, opChipErase]

/-- Settles O4: an idle controller's cycle decodes the request at the head of the queue. -/
theorem reservedOperationCodesAreRefused : Obligations.ReservedOperationCodesAreRefused := by
  refine ⟨fun r => decodeRequest_eq_error_iff, fun s r rs hp hi hr hop => ?_⟩
  simp only [Machine.step_of_nil hp, Machine.cycle, Machine.fetch, hi, if_true, hr, decodeRequest_eq_error_iff.mpr hop]

end Sys2Proof
end

section
/-! ## The wire commands on the bus (R90, R131, R141 to R144, R192, R212, R221, R240) -/

namespace Sys2Proof.Machine

theorem exec_wren (s : State) : exec .wren s = .next (writeEnable s.csCur s) := rfl

theorem exec_wrdi (s : State) : exec .wrdi s = .next (writeDisable s.csCur s) := rfl

theorem exec_pp (a : WireAddr) (data : List Byte) (s : State) :
    exec (.pp a data) s = .next (pageProgram s.csCur a data s) := rfl

theorem exec_sse (a : WireAddr) (s : State) : exec (.sse a) s = .next (subsectorErase s.csCur a s) := rfl

theorem exec_be (s : State) : exec .be s = .next (bulkErase s.csCur s) := rfl

@[simp] theorem outs_length (xs : List Exchange) : (outs xs).length = xs.length := by simp [outs]

/-- What the next state of a wire command holds on the bus side (`exec_wire_eq` for a given next state). -/
theorem exec_wire_next {s t : State} {w : Instr} (hw : w.isHost = false) (h : exec w s = .next t) :
    t.csN = lineSet s.cfg.nCs s.csN s.csCur ∧
    t.env = Env.frameAfter s.cfg.opc s.csCur (outs (frameOf s.cfg.opc w)) s.env ∧
    t.trace = s.trace ++ frameEvents s.csCur (frameOf s.cfg.opc w)
      (Env.frameInput s.cfg.opc s.csCur (outs (frameOf s.cfg.opc w)) s.env) := by
  obtain ⟨u, hu, hbus⟩ := exec_wire_eq (s := s) hw
  obtain rfl : u = t := Host.Outcome.next.inj (hu.symm.trans h)
  exact hbus

/-- R96: the events a wire command appends are one frame, with one byte shifted in for each shifted out. -/
theorem traceFrames_of_exec_wire {s t : State} {w : Instr} {es : List BusEvent} (hw : w.isHost = false)
    (h : exec w s = .next t) (hes : t.trace = s.trace ++ es) :
    traceFrames es = [⟨s.csCur, outs (frameOf s.cfg.opc w),
      Env.frameInput s.cfg.opc s.csCur (outs (frameOf s.cfg.opc w)) s.env⟩] := by
  obtain ⟨_, _, htrace⟩ := exec_wire_next hw h
  obtain rfl := List.append_cancel_left (hes.symm.trans htrace)
  exact traceFrames_frameEvents _ _ _ (by simp)

/-- Settles O6: the one frame in the events shifts out the command's frame, which decodes to the command. -/
theorem traceParsesBackToTheCommand : Obligations.TraceParsesBackToTheCommand := by
  intro s t w es ho hwf hw h hes
  simp [traceCommands, traceFrames_of_exec_wire hw h hes, decodeFrame_outs_frameOf ho hwf hw]

/-- Settles O18: a bracket sets the bit of its own line. -/
theorem bracketDeassertsItsLineOnly : Obligations.BracketDeassertsItsLineOnly := by
  intro s t w hw h c
  obtain ⟨hcsN, _⟩ := exec_wire_next hw h
  rw [hcsN, lineBit_lineSet]
  by_cases hc : c = s.csCur ∧ c.toNat < s.cfg.nCs
  · simp [hc]
  · rw [if_neg hc]
    have hbit : (decide (c = s.csCur) && decide (c.toNat < s.cfg.nCs)) = false := by simpa using hc
    rw [hbit, Bool.false_or]

/-- Settles O19: the frame takes the script byte for byte. -/
theorem oracleAnswersFromTheEnvironment : Obligations.OracleAnswersFromTheEnvironment := by
  intro s t w script rest hw hline hmiso hlen h
  obtain ⟨_, henv, htrace⟩ := exec_wire_next hw h
  obtain ⟨hin, hafter⟩ := Env.frame_oracle s.cfg.opc s.csCur (outs (frameOf s.cfg.opc w)) s.env script rest hline hmiso
    (by simpa using hlen)
  refine ⟨henv.trans hafter, _, htrace, ?_⟩
  rw [traceFrames_of_exec_wire hw h htrace, hin, List.map_singleton]

/-- Settles O20: the primitive of each command, field by field. -/
theorem wireCommandsChangeOnlyTheBus : Obligations.WireCommandsChangeOnlyTheBus := by
  intro s t w hw h
  have hother : s.env.wf → ∀ c, c ≠ s.csCur → t.env.lineAt c = s.env.lineAt c := by
    obtain ⟨_, henv, _⟩ := exec_wire_next hw h
    exact fun he c hc => henv ▸ Env.frameAfter_other he _ hc _
  cases w <;> simp only [Instr.isHost, Bool.true_eq_false] at hw <;> cases h
  case wren | wrdi | be =>
    refine ⟨?_, fun _ => ?_, fun _ => ?_, fun _ => ?_, hother⟩ <;>
      simp only [writeEnable, writeDisable, bulkErase, issueCommand_eq]
  case rdsr =>
    refine ⟨?_, fun hne => absurd rfl hne, fun _ => ?_, fun _ => ?_, hother⟩ <;> simp only [readStatus_eq]
  case rdid =>
    refine ⟨?_, fun _ => ?_, fun hne => absurd rfl hne, fun _ => ?_, hother⟩ <;> simp only [readId_eq]
  case rd a n =>
    refine ⟨?_, fun _ => ?_, fun _ => ?_, fun hne => absurd rfl (hne a n), hother⟩ <;> simp only [readData_eq]
  case pp | sse =>
    refine ⟨?_, fun _ => ?_, fun _ => ?_, fun _ => ?_, hother⟩ <;> simp only [pageProgram_eq, subsectorErase_eq]

/-- A command that keeps no input byte leaves its bracket and nothing else (R90). -/
theorem exec_wire_of_discards {s t : State} {w : Instr} (hw : w.isHost = false) (hs : w ≠ .rdsr) (hi : w ≠ .rdid)
    (hr : ∀ a n, w ≠ .rd a n) (h : exec w s = .next t) :
    t = { s with csN := lineSet s.cfg.nCs s.csN s.csCur, env := t.env, trace := t.trace } := by
  obtain ⟨ht, hstat, hid, hrdata, _⟩ := wireCommandsChangeOnlyTheBus s t w hw h
  obtain ⟨hcsN, _⟩ := exec_wire_next hw h
  rw [hstat hs, hid hi, hrdata hr, hcsN] at ht
  exact ht

/-- Settles O21: both runs leave the same bracket on the same registers. -/
theorem discardedInputDoesNotMatter : Obligations.DiscardedInputDoesNotMatter := by
  intro s e tr w hw hs hi hr
  obtain ⟨t, ht, _⟩ := exec_wire_eq (s := s) hw
  obtain ⟨u, hu, _⟩ := exec_wire_eq (s := { s with env := e, trace := tr }) hw
  refine ⟨t, u.env, u.trace, ht, hu.trans (congrArg _ ?_)⟩
  rw [exec_wire_of_discards hw hs hi hr ht, exec_wire_of_discards hw hs hi hr hu]

/-! ### The events of each command -/

theorem frameEvents_formatC (c opc i : Byte) : frameEvents c (formatC opc) [i] = [.sel c, .xfer opc i, .desel c] := rfl

/-- R144: one exchange of the opcode inside one bracket. -/
theorem issueCommand_eq_one_exchange (opc : Byte) (s : State) :
    ∃ (e : Env) (i : Byte), issueCommand s.csCur opc s = { s with
      csN := lineSet s.cfg.nCs s.csN s.csCur
      env := e
      trace := s.trace ++ [.sel s.csCur, .xfer opc i, .desel s.csCur] } := by
  obtain ⟨i, hin⟩ := List.length_eq_one_iff.mp (Env.frameInput_length s.cfg.opc s.csCur [opc] s.env)
  exact ⟨_, i, by rw [issueCommand_eq, hin, frameEvents_formatC]⟩

/-- Settles O16: the three commands issue their opcode. -/
theorem singleByteCommandsAreOneExchange : Obligations.SingleByteCommandsAreOneExchange := by
  intro s p hp
  have hexec : exec p.1 s = .next (issueCommand s.csCur p.2 s) := by
    simp only [List.mem_cons, List.not_mem_nil, or_false] at hp
    rcases hp with rfl | rfl | rfl <;> rfl
  obtain ⟨e, i, h⟩ := issueCommand_eq_one_exchange p.2 s
  exact ⟨e, i, by rw [hexec, h]⟩

/-- R131, R192: one bracket with the opcode, the address and each data byte taken from the host and sent. -/
theorem frameEvents_formatAW (c opc : Byte) (a : WireAddr) (data : List Byte) (i0 i1 i2 i3 : Byte) (ins : List Byte) :
    frameEvents c (formatAW opc a data) (i0 :: i1 :: i2 :: i3 :: ins) =
      [.sel c, .xfer opc i0, .xfer (a.extractLsb' 16 8) i1, .xfer (a.extractLsb' 8 8) i2,
        .xfer (a.extractLsb' 0 8) i3] ++
      (data.zip ins).flatMap (fun p => [BusEvent.hostIn p.1, .xfer p.1 p.2]) ++ [.desel c] := by
  rw [frameEvents, formatAW, exchangesEvents_formatA_append, exchangesEvents_fromHost]
  rfl

/-- Settles O30: the frame of `pageProgram_eq` takes in four bytes with the opcode and the address and one with each data
byte. -/
theorem pageProgramFrameSendsEveryByte : Obligations.PageProgramFrameSendsEveryByte := by
  intro s a data
  obtain ⟨i0, i1, i2, i3, ins, hlen, hin⟩ :=
    Env.frameInput_opcode_addrBytes_eq_cons s.cfg.opc s.csCur s.cfg.opc.pp a data s.env
  refine ⟨Env.frameAfter s.cfg.opc s.csCur (outs (formatAW s.cfg.opc.pp a data)) s.env, i0, i1, i2, i3, ins, hlen, ?_⟩
  rw [exec_pp, pageProgram_eq, outs_formatAW, hin, frameEvents_formatAW]
  simp only [List.append_assoc]

theorem frameEvents_formatA (c opc : Byte) (a : WireAddr) (i0 i1 i2 i3 : Byte) :
    frameEvents c (formatA opc a) [i0, i1, i2, i3] =
      [.sel c, .xfer opc i0, .xfer (a.extractLsb' 16 8) i1, .xfer (a.extractLsb' 8 8) i2,
        .xfer (a.extractLsb' 0 8) i3, .desel c] := rfl

/-- Settles O32: the frame of `subsectorErase_eq` takes in four bytes, one with the opcode and one with each address
byte. -/
theorem subsectorEraseFrameSendsTheAddress : Obligations.SubsectorEraseFrameSendsTheAddress := by
  intro s a
  obtain ⟨i0, i1, i2, i3, ins, hlen, hin⟩ :=
    Env.frameInput_opcode_addrBytes_eq_cons s.cfg.opc s.csCur s.cfg.opc.sse a [] s.env
  obtain rfl : ins = [] := List.length_eq_zero_iff.mp hlen
  rw [List.append_nil] at hin
  refine ⟨Env.frameAfter s.cfg.opc s.csCur (outs (formatA s.cfg.opc.sse a)) s.env, i0, i1, i2, i3, ?_⟩
  rw [exec_sse, subsectorErase_eq, outs_formatA, hin, frameEvents_formatA]

end Sys2Proof.Machine
end

section
/-! ## Flash arrays and the STATUS byte (R28, R252, R260, R261) -/

namespace Sys2Proof.Machine

/-- Settles O42: the laws of the arrays, one for each clause. -/
theorem programAndsAndEraseSets : Obligations.ProgramAndsAndEraseSets := fun _ hm =>
  ⟨Memory.read_programByte hm, fun cells x => by rw [List.foldl_map]; exact Memory.read_program hm cells x,
    fun _ _ hx => Memory.read_program_of_not_mem hm hx, Memory.read_erase _,
    Memory.programByte_wf hm, Memory.program_wf hm, Memory.erase_wf hm⟩

/-- R252: the bits of the STATUS byte, from the least significant field on. -/
theorem statusByte_getLsbD (srwd b6 tb : Bool) (bp : BitVec 3) (wel wip : Bool) (i : Nat) :
    (statusByte srwd b6 tb bp wel wip).getLsbD i =
      if i < 1 then (BitVec.ofBool wip).getLsbD i else if i - 1 < 1 then (BitVec.ofBool wel).getLsbD (i - 1)
      else if i - 1 - 1 < 3 then bp.getLsbD (i - 1 - 1) else if i - 1 - 1 - 3 < 1 then (BitVec.ofBool tb).getLsbD (i - 1 - 1 - 3)
      else if i - 1 - 1 - 3 - 1 < 1 then (BitVec.ofBool b6).getLsbD (i - 1 - 1 - 3 - 1)
      else (BitVec.ofBool srwd).getLsbD (i - 1 - 1 - 3 - 1 - 1) := by
  simp only [statusByte, BitVec.getLsbD_append]

/-- Settles O43: each field at its bits, read through the concatenation. -/
theorem statusByteLayout : Obligations.StatusByteLayout := by
  intro srwd b6 tb bp wel wip
  refine ⟨?_, ?_, BitVec.eq_of_getLsbD_eq fun i hi => ?_, ?_, ?_, ?_⟩
  · rw [statusWip, statusByte_getLsbD]; simp
  · rw [statusWel, statusByte_getLsbD]; simp
  · have h1 : ¬ 2 + i < 1 := by omega
    simp [statusBp, statusByte_getLsbD, hi, h1]
  · rw [statusTb, statusByte_getLsbD]; simp
  · rw [statusB6, statusByte_getLsbD]; simp
  · rw [statusSrwd, statusByte_getLsbD]; simp

end Sys2Proof.Machine
end

section
/-! ## A host operation's `exec`: acceptance and one transition of its state machine (R30, R31) -/

namespace Sys2Proof.Machine

/-- Every host operation is `hostOp` of its request, from its first state on (R31). -/
theorem exec_eq_hostOp {r : Request} {i : Instr} (hd : decodeRequest r = .ok i) :
    ∃ adv, ∀ s, exec i s = hostOp r (firstState i) adv s := by
  obtain ⟨op, sel, addr, len⟩ := r
  rcases decodeRequest_cases ⟨op, sel, addr, len⟩ with
    ⟨rfl, e⟩ | ⟨rfl, e⟩ | ⟨rfl, e⟩ | ⟨rfl, e⟩ | ⟨rfl, e⟩ | ⟨rfl, e⟩ | ⟨_, e⟩ <;> rw [e] at hd <;> cases hd
  all_goals exact ⟨_, fun _ => rfl⟩

theorem exec_of_idle {s : State} {r : Request} {i : Instr} (hd : decodeRequest r = .ok i) (hi : s.fsm = .idle) :
    exec i s = .next (accept r (firstState i) s) := by
  obtain ⟨adv, h⟩ := exec_eq_hostOp hd
  rw [h, hostOp, if_pos hi]

/-- Settles O9: acceptance in `IDLE`, no effect on another operation in progress. -/
theorem requestAcceptedOnlyWhenIdle : Obligations.RequestAcceptedOnlyWhenIdle := by
  intro s r i hd
  refine ⟨exec_of_idle hd, fun hbusy hne => ?_⟩
  obtain ⟨adv, h⟩ := exec_eq_hostOp hd
  rw [h, hostOp, if_neg hbusy, if_neg hne]

theorem cycle_accept {s : State} {r : HostRequest} {rs : List HostRequest} {i : Instr} (hi : s.fsm = .idle)
    (hr : s.requests = r :: rs) (hd : decodeRequest r.req = .ok i) :
    cycle s = exec i { s with requests := rs, wdata := r.data } := by
  simp [cycle, fetch, hi, hr, hd]

/-- The operation in progress is run by its own `exec` (R30). -/
theorem exec_of_latched {s : State} {i : Instr} (hbusy : s.fsm ≠ .idle) (hd : decodeRequest (latched s) = .ok i) :
    exec i s = advance s := by
  rw [← cycle_busy hbusy, cycle, fetch_busy hbusy hd]

theorem step_of_busy {s : State} (hp : s.resetPlan = []) (hbusy : s.fsm ≠ .idle) : step s = advance s := by
  rw [step_of_nil hp, cycle_busy hbusy]

/-- Settles O7: a step with no reset to come is a cycle, and a cycle runs what was fetched. -/
theorem stepRunsTheFetchedInstruction : Obligations.StepRunsTheFetchedInstruction := by
  refine ⟨fun s r rs i hp hi hr hd => ?_, fun s i hp hbusy hd => ?_, fun s hp hi hr => ?_, fun s rs => step_of_none,
    fun s => step_of_nil⟩
  · rw [step_of_nil hp, cycle_accept hi hr hd]
  · rw [step_of_busy hp hbusy, exec_of_latched hbusy hd]
  · simp [step_of_nil hp, cycle, fetch, hi, hr]

/-! ### The state machine of each operation -/

theorem advance_of_probe {s : State} (h : s.op = opProbe) : advance s = probeFsm s := by simp [advance, h]

theorem advance_of_info {s : State} (h : s.op = opInfo) : advance s = infoFsm s := by
  simp [advance, h, opProbe, opInfo]

theorem advance_of_read {s : State} (h : s.op = opRead) : advance s = readFsm s := by
  simp [advance, h, opProbe, opInfo, opRead]

theorem advance_of_write {s : State} (h : s.op = opWrite) : advance s = writeFsm s := by
  simp [advance, h, opProbe, opInfo, opRead, opWrite]

theorem advance_of_erase {s : State} (h : s.op = opErase) : advance s = eraseFsm s := by
  simp [advance, h, opProbe, opInfo, opRead, opWrite, opErase]

theorem advance_of_chipErase {s : State} (h : s.op = opChipErase) : advance s = chipEraseFsm s := by
  simp [advance, h, opProbe, opInfo, opRead, opWrite, opErase, opChipErase]

theorem exec_probe_of_latched {s : State} {c : Byte} {a n : Word} (hbusy : s.fsm ≠ .idle)
    (hl : latched s = ⟨0, c, a, n⟩) : exec (.probe c a n) s = probeFsm s :=
  hostOp_of_latched .pInit probeFsm hbusy hl

theorem exec_read_of_latched {s : State} {h : Byte} {a n : Word} (hbusy : s.fsm ≠ .idle)
    (hl : latched s = ⟨2, h, a, n⟩) : exec (.read h a n) s = readFsm s :=
  hostOp_of_latched .rCheck readFsm hbusy hl

theorem exec_write_of_latched {s : State} {h : Byte} {a n : Word} (hbusy : s.fsm ≠ .idle)
    (hl : latched s = ⟨3, h, a, n⟩) : exec (.write h a n) s = writeFsm s :=
  hostOp_of_latched .wCheck writeFsm hbusy hl

theorem exec_erase_of_latched {s : State} {h : Byte} {a n : Word} (hbusy : s.fsm ≠ .idle)
    (hl : latched s = ⟨4, h, a, n⟩) : exec (.erase h a n) s = eraseFsm s :=
  hostOp_of_latched .eCheck eraseFsm hbusy hl

theorem exec_chipErase_of_latched {s : State} {h : Byte} {a n : Word} (hbusy : s.fsm ≠ .idle)
    (hl : latched s = ⟨5, h, a, n⟩) : exec (.chipErase h a n) s = chipEraseFsm s :=
  hostOp_of_latched .cCheck chipEraseFsm hbusy hl

/-- The fields of the request in progress (R25). -/
theorem latched_eq_iff {s : State} {op : BitVec 3} {sel : Byte} {addr len : Word} :
    latched s = ⟨op, sel, addr, len⟩ ↔ s.op = op ∧ s.sel = sel ∧ s.addr = addr ∧ s.len = len := by
  rw [latched, Request.mk.injEq]

/-! ### The tests the operations share, branch by branch -/

theorem validate_of_bound {s : State} {e : Attached} (go : State → State) (he : s.att[s.sel.toNat]? = some e) :
    validate go s = go (chooseLine e.cs s) := by
  rw [validate, he]

theorem validate_of_unbound {s : State} (go : State → State) (h : s.att[s.sel.toNat]? = none) :
    validate go s = raise .invalidHandle s := by
  rw [validate, h]

theorem pollTest_of_ready {s : State} (fin : State → State) (wait : Fsm) (h : statusWip s.stat = false) :
    pollTest fin wait s = fin s := by
  simp [pollTest, h]

theorem pollTest_of_limit {s : State} (fin : State → State) (wait : Fsm) (h : statusWip s.stat = true)
    (hl : ∃ l, s.cfg.pollLimit = some l ∧ l ≤ s.polls + 1) :
    pollTest fin wait s = raise .timeout (setPolls (s.polls + 1) s) := by
  rw [pollTest, if_pos h, if_pos ((limitReached_iff _ _).mpr hl)]

theorem pollTest_of_busy {s : State} (fin : State → State) (wait : Fsm) (h : statusWip s.stat = true)
    (hl : ∀ l, s.cfg.pollLimit = some l → s.polls + 1 < l) :
    pollTest fin wait s = goto wait (setPolls (s.polls + 1) s) := by
  have hlim : ¬ limitReached s.cfg.pollLimit (s.polls + 1) = true := by
    rw [limitReached_iff]
    rintro ⟨l, hc, hle⟩
    exact absurd (hl l hc) (by omega)
  rw [pollTest, if_pos h, if_neg hlim]

theorem alignDown_eq (a : Nat) : alignDown a = a / 4096 * 4096 := by
  simp only [alignDown, Config.subsectorSize]
  omega

/-! ### PROBE, INFO and READ -/

/-- Settles O22: `P_INIT` of PROBE's state machine. -/
theorem probeInitialisesPinAndBus : Obligations.ProbeInitialisesPinAndBus := by
  intro s c a n hf hl
  obtain ⟨_, hsel, _⟩ := latched_eq_iff.mp hl
  rw [exec_probe_of_latched (by simp [hf]) hl, probeFsm, hf]
  simp [probeInit, busInitialise, pinInit, emit, goto, chooseLine, hsel]

/-- Settles O24: `P_ID` of PROBE's state machine is RDID's primitive. -/
theorem probeReadsTheId : Obligations.ProbeReadsTheId := by
  intro s c a n hf hl
  refine ⟨_, exec_rdid s, ?_⟩
  rw [exec_probe_of_latched (by simp [hf]) hl, probeFsm, hf]
  rfl

/-- Settles O25: the four ways `resolve` can go, told apart by its tests. -/
theorem probeTestsInOrderAndAppends : Obligations.ProbeTestsInOrderAndAppends := by
  intro s c a n hf hl
  have hexec : exec (.probe c a n) s = .next (resolve s) := by
    rw [exec_probe_of_latched (by simp [hf]) hl, probeFsm, hf]
  rw [hexec]
  refine ⟨fun hid => ?_, fun hid hlook => ?_, fun r hid hlook hfull => ?_, fun r hid hlook hroom => ?_⟩
  · rw [resolve, if_pos hid]; rfl
  · rw [resolve, if_neg hid, deviceId, hlook]; rfl
  · rw [resolve, if_neg hid, deviceId, hlook]
    simp only [attach, if_pos hfull]; rfl
  · rw [resolve, if_neg hid, deviceId, hlook]
    simp only [attach, if_neg hroom]; rfl

theorem infoLookup_of_unbound {s : State} (h : s.att[s.sel.toNat]? = none) : infoLookup s = .next (infoUnbound s) := by
  rw [infoLookup, h]

theorem att_getElem?_eq_none {s : State} {h : Byte} (hsel : s.sel = h) (hc : s.attCount ≤ h.toNat) :
    s.att[s.sel.toNat]? = none := List.getElem?_eq_none (hsel ▸ hc)

/-- Settles O27: the policy's two values. -/
theorem infoOnUnboundHandleFollowsThePolicy : Obligations.InfoOnUnboundHandleFollowsThePolicy := by
  intro s h a n hf hl hc
  obtain ⟨_, hsel, _⟩ := latched_eq_iff.mp hl
  rw [exec_info_of_iLookup hf hl, infoLookup_of_unbound (att_getElem?_eq_none hsel hc)]
  exact ⟨fun hp => by rw [infoUnbound, hp]; rfl, fun hp => by rw [infoUnbound, hp]; rfl⟩

/-- Settles O29: `R_FRAME` of READ's state machine is RD's primitive on the latched range. -/
theorem readIsOneFrame : Obligations.ReadIsOneFrame := by
  intro s h a n hf hl
  obtain ⟨_, _, haddr, hlen⟩ := latched_eq_iff.mp hl
  refine ⟨_, exec_rd _ _ s, ?_⟩
  rw [exec_read_of_latched (by simp [hf]) hl, readFsm, hf, ← haddr, ← hlen]
  rfl

/-! ### WRITE, ERASE and CHIP_ERASE, state by state -/

/-- R192: a chunk the host presented in full is programmed as presented. -/
theorem writeProgram_of_le {s : State} (hk : s.k.toNat ≤ s.wdata.length) :
    writeProgram s = goto .wWrdi (pageProgram s.csCur (wireAddr s.cur) (s.wdata.take s.k.toNat)
      { s with wdata := s.wdata.drop s.k.toNat }) := by
  rw [writeProgram, chunkData, hostBytes_of_le _ _ _ hk, takeHost, Nat.sub_eq_zero_of_le hk]
  rfl

/-- Settles O31: each clause is one state of WRITE's state machine. -/
theorem writeTransitions : Obligations.WriteTransitions := by
  intro s h a n hl
  have hexec {f : Fsm} (hf : s.fsm = f) (hne : f ≠ .idle) : exec (.write h a n) s = writeFsm s :=
    exec_write_of_latched (hf ▸ hne) hl
  have hprogram (hf : s.fsm = .wPp) : exec (.write h a n) s = .next (writeProgram s) := by
    rw [hexec hf (by simp), writeFsm, hf]
  refine ⟨fun hf hr => ?_, fun hf hr => ?_, fun hf => ?_, fun hf => ?_,
    fun hf hk => ⟨_, exec_pp _ _ _, (hprogram hf).trans (congrArg _ (writeProgram_of_le hk))⟩, fun hf => ?_,
    fun hf => ?_, fun hf => ?_, fun hf => ?_⟩ <;> rw [hexec hf (by simp), writeFsm, hf]
  · rw [writeNext, if_pos hr]; rfl
  · rw [writeNext, if_neg hr]; rfl
  · exact ⟨_, exec_wren s, rfl⟩
  · exact ⟨_, exec_rdsr s, rfl⟩
  · exact ⟨_, exec_wrdi s, rfl⟩
  · refine ⟨_, exec_rdsr s, fun hw => ?_, fun hw hlim => ?_, fun hw hlim => ?_⟩
    · rw [pollTest_of_ready _ _ hw]; rfl
    · rw [pollTest_of_limit _ _ hw hlim]; rfl
    · rw [pollTest_of_busy _ _ hw hlim]; rfl
  · rfl
  · rfl

/-- Settles O33: each clause is one state of ERASE's state machine. -/
theorem eraseTransitions : Obligations.EraseTransitions := by
  intro s h a n hl
  have hexec {f : Fsm} (hf : s.fsm = f) (hne : f ≠ .idle) : exec (.erase h a n) s = eraseFsm s :=
    exec_erase_of_latched (hf ▸ hne) hl
  refine ⟨fun hf hr => ?_, fun hf hr => ?_, fun hf => ?_, fun hf => ?_, fun hf => ?_, fun hf => ?_, fun hf => ?_,
    fun hf => ?_, fun hf => ?_, fun hf => ?_⟩ <;> rw [hexec hf (by simp), eraseFsm, hf]
  · rw [eraseNext, if_pos hr]; rfl
  · rw [eraseNext, if_neg (Nat.not_lt.mpr hr)]; rfl
  · exact ⟨_, exec_wren s, rfl⟩
  · exact ⟨_, exec_rdsr s, rfl⟩
  · exact ⟨_, exec_sse _ s, rfl⟩
  · rfl
  · refine ⟨_, exec_rdsr s, fun hw => ?_, fun hw hlim => ?_, fun hw hlim => ?_⟩
    · rw [pollTest_of_ready _ _ hw]; rfl
    · rw [pollTest_of_limit _ _ hw hlim]; rfl
    · rw [pollTest_of_busy _ _ hw hlim]; rfl
  · rfl
  · rfl
  · exact ⟨_, exec_wrdi s, rfl⟩

/-- Settles O34: each clause is one state of CHIP_ERASE's state machine. -/
theorem chipEraseTransitions : Obligations.ChipEraseTransitions := by
  intro s h a n hl
  have hexec {f : Fsm} (hf : s.fsm = f) (hne : f ≠ .idle) : exec (.chipErase h a n) s = chipEraseFsm s :=
    exec_chipErase_of_latched (hf ▸ hne) hl
  refine ⟨fun hf => ?_, fun hf => ?_, fun hf => ?_, fun hf => ?_, fun hf => ?_⟩ <;>
    rw [hexec hf (by simp), chipEraseFsm, hf]
  · exact ⟨_, exec_wren s, rfl⟩
  · exact ⟨_, exec_rdsr s, rfl⟩
  · exact ⟨_, exec_be s, rfl⟩
  · refine ⟨_, exec_rdsr s, fun hw => ?_, fun hw hlim => ?_, fun hw hlim => ?_⟩
    · rw [pollTest_of_ready _ _ hw]; rfl
    · rw [pollTest_of_limit _ _ hw hlim]; rfl
    · rw [pollTest_of_busy _ _ hw hlim]; rfl
  · rfl

/-- Settles O35: `validate` in the check state of each operation. -/
theorem handleIsCheckedFirst : Obligations.HandleIsCheckedFirst := by
  intro s h a n
  refine ⟨fun hc p hp hf hl => ?_, fun e he => ⟨fun hf hl => ?_, fun hf hl => ?_, fun hf hl => ?_, fun hf hl => ?_⟩⟩
  · obtain ⟨_, hsel, _⟩ := latched_eq_iff.mp hl
    have hnone := att_getElem?_eq_none hsel hc
    simp only [List.mem_cons, List.not_mem_nil, or_false] at hp
    rcases hp with rfl | rfl | rfl | rfl
    · rw [exec_read_of_latched (by simp [hf]) hl, readFsm, hf, validate_of_unbound _ hnone]; rfl
    · rw [exec_write_of_latched (by simp [hf]) hl, writeFsm, hf, validate_of_unbound _ hnone]; rfl
    · rw [exec_erase_of_latched (by simp [hf]) hl, eraseFsm, hf, validate_of_unbound _ hnone]; rfl
    · rw [exec_chipErase_of_latched (by simp [hf]) hl, chipEraseFsm, hf, validate_of_unbound _ hnone]; rfl
  all_goals
    obtain ⟨_, rfl, rfl, rfl⟩ := latched_eq_iff.mp hl
  · rw [exec_read_of_latched (by simp [hf]) hl, readFsm, hf, validate_of_bound _ he]; rfl
  · rw [exec_write_of_latched (by simp [hf]) hl, writeFsm, hf, validate_of_bound _ he]; rfl
  · rw [exec_erase_of_latched (by simp [hf]) hl, eraseFsm, hf, validate_of_bound _ he, ← alignDown_eq]; rfl
  · rw [exec_chipErase_of_latched (by simp [hf]) hl, chipEraseFsm, hf, validate_of_bound _ he]; rfl

/-! ### A busy step and the wire command its state emits (R30) -/

/-- Two states agree on the bus and on the bytes kept from it. -/
def SameBus (t u : State) : Prop :=
  u.trace = t.trace ∧ u.csN = t.csN ∧ u.env = t.env ∧ u.stat = t.stat ∧ u.idbuf = t.idbuf ∧ u.rdata = t.rdata

theorem SameBus.goto (f : Fsm) (t : State) : SameBus t (goto f t) := ⟨rfl, rfl, rfl, rfl, rfl, rfl⟩

theorem SameBus.setPolls (n : Nat) (t : State) : SameBus t (setPolls n t) := ⟨rfl, rfl, rfl, rfl, rfl, rfl⟩

theorem SameBus.raise (e : ResultCode) (t : State) : SameBus t (raise e t) := ⟨rfl, rfl, rfl, rfl, rfl, rfl⟩

theorem SameBus.returnOk (t : State) : SameBus t (returnOk t) := ⟨rfl, rfl, rfl, rfl, rfl, rfl⟩

theorem SameBus.verifyArmed (f : Fsm) (t : State) : SameBus t (verifyArmed f t) := by
  rcases verifyArmed_cases f t with ⟨_, h⟩ | ⟨_, h⟩ <;> rw [h]
  exacts [.goto f t, .raise _ t]

theorem SameBus.pollTest {fin : State → State} (hfin : ∀ t, SameBus t (fin t)) (wait : Fsm) (t : State) :
    SameBus t (pollTest fin wait t) := by
  rcases pollTest_cases fin wait t with ⟨_, h⟩ | ⟨_, _, h⟩ | ⟨_, _, h⟩ <;> rw [h]
  exacts [hfin t, .raise _ (Machine.setPolls _ t), .goto _ (Machine.setPolls _ t)]

/-- Taking bytes from the host's stream is no bus action. -/
theorem SameBus.writeProgram (s : State) :
    SameBus (pageProgram s.csCur (wireAddr s.cur) (chunkData s) s) (writeProgram s) := by
  simp only [Machine.writeProgram, pageProgram_eq]
  exact ⟨rfl, rfl, rfl, rfl, rfl, rfl⟩

/-- Settles O8: each state of the frame column, by the operation that owns it. -/
theorem busyStepEmitsTheWireCommand : Obligations.BusyStepEmitsTheWireCommand := by
  intro s w i hp hw hd howner
  suffices h : ∃ t u, exec w s = .next t ∧ advance s = .next u ∧ SameBus t u by
    obtain ⟨t, u, ht, hu, hbus⟩ := h
    have hbusy : s.fsm ≠ .idle := fun hi => by simp [wireAt, hi] at hw
    exact ⟨t, u, ht, (step_of_busy hp hbusy).trans hu, hbus⟩
  unfold wireAt at hw
  cases hf : s.fsm <;> simp only [hf, reduceCtorEq, Option.some.injEq] at hw <;> subst hw <;>
    simp only [hf, Fsm.owner, Option.some.injEq] at howner
  case pId =>
    exact ⟨_, _, exec_rdid s, by rw [advance_of_probe howner.symm, probeFsm, hf], .goto _ _⟩
  case rFrame =>
    exact ⟨_, readFrame s, exec_rd _ _ s, by rw [advance_of_read howner.symm, readFsm, hf], .returnOk _⟩
  case wWren =>
    exact ⟨_, _, exec_wren s, by rw [advance_of_write howner.symm, writeFsm, hf], .goto _ _⟩
  case wVerify =>
    exact ⟨_, _, exec_rdsr s, by rw [advance_of_write howner.symm, writeFsm, hf], .verifyArmed _ _⟩
  case wPp =>
    exact ⟨_, _, exec_pp _ _ s, by rw [advance_of_write howner.symm, writeFsm, hf], .writeProgram s⟩
  case wWrdi =>
    exact ⟨_, writeDisarm s, exec_wrdi s, by rw [advance_of_write howner.symm, writeFsm, hf], .setPolls 0 _⟩
  case wPoll =>
    exact ⟨_, _, exec_rdsr s, by rw [advance_of_write howner.symm, writeFsm, hf], .pollTest (.goto _) _ _⟩
  case eWren =>
    exact ⟨_, _, exec_wren s, by rw [advance_of_erase howner.symm, eraseFsm, hf], .goto _ _⟩
  case eVerify =>
    exact ⟨_, _, exec_rdsr s, by rw [advance_of_erase howner.symm, eraseFsm, hf], .verifyArmed _ _⟩
  case eSse =>
    exact ⟨_, _, exec_sse _ s, by rw [advance_of_erase howner.symm, eraseFsm, hf], .goto _ _⟩
  case ePoll =>
    exact ⟨_, _, exec_rdsr s, by rw [advance_of_erase howner.symm, eraseFsm, hf], .pollTest (.goto _) _ _⟩
  case eWrdi =>
    exact ⟨_, _, exec_wrdi s, by rw [advance_of_erase howner.symm, eraseFsm, hf], .returnOk _⟩
  case cWren =>
    exact ⟨_, _, exec_wren s, by rw [advance_of_chipErase howner.symm, chipEraseFsm, hf], .goto _ _⟩
  case cVerify =>
    exact ⟨_, _, exec_rdsr s, by rw [advance_of_chipErase howner.symm, chipEraseFsm, hf], .verifyArmed _ _⟩
  case cBe =>
    exact ⟨_, chipEraseStart s, exec_be s, by rw [advance_of_chipErase howner.symm, chipEraseFsm, hf], .setPolls 0 _⟩
  case cPoll =>
    exact ⟨_, _, exec_rdsr s, by rw [advance_of_chipErase howner.symm, chipEraseFsm, hf], .pollTest .returnOk _ _⟩

end Sys2Proof.Machine
end

section
/-! ## What one step can change (R23, R30 to R32, R282, R294) -/

namespace Sys2Proof.Machine

theorem decodeRequest_of_probe {r : Request} (h : r.op = opProbe) :
    decodeRequest r = .ok (.probe r.sel r.addr r.len) := by simp [decodeRequest, h]

theorem decodeRequest_of_info {r : Request} (h : r.op = opInfo) :
    decodeRequest r = .ok (.info r.sel r.addr r.len) := by simp [decodeRequest, h, opProbe, opInfo]

theorem decodeRequest_of_read {r : Request} (h : r.op = opRead) :
    decodeRequest r = .ok (.read r.sel r.addr r.len) := by simp [decodeRequest, h, opProbe, opInfo, opRead]

theorem decodeRequest_of_write {r : Request} (h : r.op = opWrite) :
    decodeRequest r = .ok (.write r.sel r.addr r.len) := by
  simp [decodeRequest, h, opProbe, opInfo, opRead, opWrite]

theorem decodeRequest_of_erase {r : Request} (h : r.op = opErase) :
    decodeRequest r = .ok (.erase r.sel r.addr r.len) := by
  simp [decodeRequest, h, opProbe, opInfo, opRead, opWrite, opErase]

/-- R31: acceptance enters one of the six first states. -/
theorem firstState_mem_successors {r : Request} {i : Instr} (hd : decodeRequest r = .ok i) :
    firstState i ∈ Fsm.idle.successors := by
  rcases decodeRequest_cases r with ⟨_, e⟩ | ⟨_, e⟩ | ⟨_, e⟩ | ⟨_, e⟩ | ⟨_, e⟩ | ⟨_, e⟩ | ⟨_, e⟩ <;>
    rw [e] at hd <;> cases hd <;> simp [firstState, Fsm.successors]

theorem ne_done_of_mem_successors_idle {f : Fsm} (h : f ∈ Fsm.idle.successors) : f ≠ .done := by
  rintro rfl
  exact absurd h (by decide)

/-- R30: a transition goes along an edge of the table. -/
theorem Move.mem_successors {s t : State} (h : Move s t) : t.fsm ∈ s.fsm.successors := by
  cases h
  case invalid ho hf _ =>
    rcases ho with ⟨_, rfl⟩ | ⟨_, rfl⟩ | ⟨_, rfl⟩ | ⟨_, rfl⟩ <;> simp [hf, Fsm.successors]
  case notArmed ho hf _ | timedOut ho hf _ _ _ =>
    rcases ho with ⟨_, rfl⟩ | ⟨_, rfl⟩ | ⟨_, rfl⟩ <;> simp [hf, Fsm.successors]
  all_goals simp_all [Fsm.successors, probeInit, readFrame, writeProgram, writeDisarm, writeAdvance, eraseSettle,
    eraseAdvance, chipEraseStart, readSetup, writeSetup, eraseSetup]

theorem eq_done_of_idle_mem_successors {f : Fsm} (h : Fsm.idle ∈ f.successors) : f = .done := by
  cases f <;> simp [Fsm.successors] at h
  rfl

/-- A step without reset of a controller that is not idle is one move. -/
theorem move_of_step {s t : State} (hp : s.resetPlan = []) (hbusy : s.fsm ≠ .idle) (h : step s = .next t) : Move s t :=
  advance_move ((step_of_busy hp hbusy).symm.trans h)

/-- Settles O10: a move keeps the host's queue. -/
theorem busyStepTakesNoRequest : Obligations.BusyStepTakesNoRequest := by
  intro s t hp hbusy h
  obtain ⟨_, _, _, _, _, hreq, _⟩ := (move_of_step hp hbusy h).keeps
  exact hreq

/-- Settles O11: `DONE` retires, and is the only state whose successors hold `IDLE`. -/
theorem doneIsTheOnlyWayBackToIdle : Obligations.DoneIsTheOnlyWayBackToIdle := by
  refine ⟨fun s i hp hf hd => step_of_done hp hf hd, fun s t hp hbusy h ht => ?_⟩
  exact eq_done_of_idle_mem_successors (ht ▸ (move_of_step hp hbusy h).mem_successors)

/-- R147: WRITE's and ERASE's poll loops end in `DONE` only at a finite limit. -/
theorem Move.pollLimit_of_done {s t : State} (h : Move s t) (hs : s.fsm = .wPoll ∨ s.fsm = .ePoll)
    (ht : t.fsm = .done) : s.cfg.pollLimit ≠ none := by
  revert ht
  cases h
  case timedOut hlim _ => simp [hlim]
  case invalid ho hf _ => rcases ho with ⟨_, rfl⟩ | ⟨_, rfl⟩ | ⟨_, rfl⟩ | ⟨_, rfl⟩ <;> simp [hf] at hs
  case notArmed ho hf _ => rcases ho with ⟨_, rfl⟩ | ⟨_, rfl⟩ | ⟨_, rfl⟩ <;> simp [hf] at hs
  all_goals simp_all

/-- R224: without a limit CHIP_ERASE's poll loop ends in `DONE` only with OK. -/
theorem Move.resCode_of_cPoll {s t : State} (h : Move s t) (hs : s.fsm = .cPoll) (hlim : s.cfg.pollLimit = none)
    (ht : t.fsm = .done) : t.resCode = 0 := by
  revert ht
  cases h
  case timedOut hl _ => simp [hlim] at hl
  case invalid ho hf _ => rcases ho with ⟨_, rfl⟩ | ⟨_, rfl⟩ | ⟨_, rfl⟩ | ⟨_, rfl⟩ <;> simp [hf] at hs
  case notArmed ho hf _ => rcases ho with ⟨_, rfl⟩ | ⟨_, rfl⟩ | ⟨_, rfl⟩ <;> simp [hf] at hs
  all_goals simp_all

/-- Settles O12: wait, acceptance, or a move. -/
theorem transitionsFollowTheTable : Obligations.TransitionsFollowTheTable := by
  intro s t hp h
  rcases step_next_cases hp h with ⟨hi, _, rfl⟩ | ⟨r, rs, i, hi, _, hd, rfl⟩ | ⟨_, hm⟩
  · exact ⟨.inl ⟨hi, rfl⟩, by simp [hi], by simp [hi]⟩
  · exact ⟨.inr (hi ▸ firstState_mem_successors hd), by simp [hi], by simp [hi]⟩
  · exact ⟨.inr hm.mem_successors, hm.pollLimit_of_done, fun hs ht hlim => hm.resCode_of_cPoll hs hlim ht⟩

/-- R23(d): a move leaves the table or appends PROBE's entry. -/
theorem Move.att {s t : State} (h : Move s t) :
    t.att = s.att ∨
      ∃ r, s.fsm = .pResolve ∧ t.att = s.att ++ [⟨s.csCur, r⟩] ∧ t.resHandle = BitVec.ofNat 8 s.attCount := by
  cases h
  case attached r _ hf _ _ _ => exact .inr ⟨r, hf, rfl, rfl⟩
  all_goals
    exact .inl (by simp [probeInit, readFrame, writeProgram, writeDisarm, writeAdvance, eraseSettle, eraseAdvance,
      chipEraseStart, readSetup, writeSetup, eraseSetup])

/-- Settles O14: neither waiting nor acceptance touches the table. -/
theorem attachedTableIsAppendOnly : Obligations.AttachedTableIsAppendOnly := by
  intro s t hp h
  rcases step_next_cases hp h with ⟨_, _, rfl⟩ | ⟨r, rs, i, _, _, _, rfl⟩ | ⟨_, hm⟩
  · exact .inl rfl
  · exact .inl rfl
  · exact hm.att

/-- R282: the codes with which a move of each operation can enter `DONE`. -/
theorem Move.resCode_of_done {s t : State} (h : Move s t) (hs : s.fsm ≠ .done) (ht : t.fsm = .done) :
    (s.op = opProbe → t.resCode = 0 ∨ t.resCode = 1 ∨ t.resCode = 2 ∨ t.resCode = 3) ∧
    (s.op = opInfo → t.resCode = 0 ∨ (t.resCode = 4 ∧ s.cfg.infoPolicy = .error)) ∧
    (s.op = opRead → t.resCode = 0 ∨ t.resCode = 4) ∧
    (s.op = opWrite ∨ s.op = opErase ∨ s.op = opChipErase →
      t.resCode = 0 ∨ t.resCode = 4 ∨ t.resCode = 5 ∨ (t.resCode = 6 ∧ s.cfg.pollLimit ≠ none)) := by
  revert ht
  cases h
  case invalid ho _ _ =>
    rcases ho with ⟨ho, _⟩ | ⟨ho, _⟩ | ⟨ho, _⟩ | ⟨ho, _⟩ <;>
      simp [ho, ResultCode.code, opProbe, opInfo, opRead, opWrite, opErase, opChipErase]
  case notArmed ho _ _ =>
    rcases ho with ⟨ho, _⟩ | ⟨ho, _⟩ | ⟨ho, _⟩ <;>
      simp [ho, ResultCode.code, opProbe, opInfo, opRead, opWrite, opErase, opChipErase]
  case timedOut ho _ _ hl _ =>
    rcases ho with ⟨ho, _⟩ | ⟨ho, _⟩ | ⟨ho, _⟩ <;>
      simp [ho, hl, ResultCode.code, opProbe, opInfo, opRead, opWrite, opErase, opChipErase]
  all_goals
    simp_all [ResultCode.code, opProbe, opInfo, opRead, opWrite, opErase, opChipErase, probeInit, readFrame,
      writeProgram, writeDisarm, writeAdvance, eraseSettle, eraseAdvance, chipEraseStart, readSetup, writeSetup,
      eraseSetup]

/-- Settles O37: only a move enters `DONE`. -/
theorem operationsEndOnlyWithTheirCodes : Obligations.OperationsEndOnlyWithTheirCodes := by
  intro s t hp _ hs h ht
  rcases step_next_cases hp h with ⟨_, _, rfl⟩ | ⟨r, rs, i, _, _, hd, rfl⟩ | ⟨_, hm⟩
  · exact absurd ht hs
  · exact absurd ht (ne_done_of_mem_successors_idle (firstState_mem_successors hd))
  · exact hm.resCode_of_done hs ht

theorem verifyArmed_of_not_armed {s : State} (f : Fsm) (h : statusWel s.stat = false) :
    verifyArmed f s = raise .writeEnableFailed s := by
  simp [verifyArmed, h]

/-- R146: the arm test of the three operations that have one. -/
theorem advance_of_verify {s : State} (hop : OperationMatchesFsm s)
    (hf : s.fsm = .wVerify ∨ s.fsm = .eVerify ∨ s.fsm = .cVerify) :
    ∃ f, advance s = .next (verifyArmed f (readStatus s.csCur s)) := by
  have howner : ∀ o, s.fsm.owner = some o → s.op = o :=
    (hop (by rcases hf with hf | hf | hf <;> simp [hf])).2
  rcases hf with hf | hf | hf
  · exact ⟨.wPp, by rw [advance_of_write (howner _ (by rw [hf]; rfl)), writeFsm, hf]⟩
  · exact ⟨.eSse, by rw [advance_of_erase (howner _ (by rw [hf]; rfl)), eraseFsm, hf]⟩
  · exact ⟨.cBe, by rw [advance_of_chipErase (howner _ (by rw [hf]; rfl)), chipEraseFsm, hf]⟩

/-- Settles O38: the arm test raises, and `raise` ends the operation at once. -/
theorem failedArmSendsNothingMore : Obligations.FailedArmSendsNothingMore := by
  intro s t hp hop hf ht hwel
  obtain rfl := Host.Outcome.next.inj ht
  have hbusy : s.fsm ≠ .idle := by rcases hf with hf | hf | hf <;> simp [hf]
  obtain ⟨⟨i, hd⟩, _⟩ := hop hbusy
  obtain ⟨f, hadv⟩ := advance_of_verify hop hf
  constructor
  · rw [step_of_busy hp hbusy, hadv, verifyArmed_of_not_armed f hwel]
    rfl
  · have hlatched : latched (readStatus s.csCur s) = latched s := by simp [latched]
    exact (raiseEndsTheOperationAtOnce (readStatus s.csCur s) .writeEnableFailed i (by simpa using hp)
      (hlatched ▸ hd)).2

/-! ### The registers each operation owns -/

theorem Move.probe_owns {s t : State} (h : Move s t) (ho : s.op ≠ opProbe) :
    t.att = s.att ∧ t.csOe = s.csOe ∧ t.busInit = s.busInit ∧ t.idbuf = s.idbuf ∧ t.resHandle = s.resHandle := by
  cases h <;> simp_all [readFrame, writeProgram, writeDisarm, writeAdvance, eraseSettle, eraseAdvance,
    chipEraseStart, readSetup, writeSetup, eraseSetup]

theorem Move.info_owns {s t : State} (h : Move s t) (ho : s.op ≠ opInfo) :
    t.infoMfr = s.infoMfr ∧ t.infoDev = s.infoDev ∧ t.infoSize = s.infoSize ∧ t.infoDesc = s.infoDesc := by
  cases h <;> simp_all [probeInit, readFrame, writeProgram, writeDisarm, writeAdvance, eraseSettle, eraseAdvance,
    chipEraseStart, readSetup, writeSetup, eraseSetup]

theorem Move.read_owns {s t : State} (h : Move s t) (ho : s.op ≠ opRead) : t.rdata = s.rdata := by
  cases h <;> simp_all [probeInit, writeProgram, writeDisarm, writeAdvance, eraseSettle, eraseAdvance,
    chipEraseStart, writeSetup, eraseSetup]

theorem Move.write_owns {s t : State} (h : Move s t) (ho : s.op ≠ opWrite) :
    t.wdata = s.wdata ∧ t.freeHost = s.freeHost ∧ t.rem = s.rem ∧ t.off = s.off ∧ t.k = s.k := by
  cases h <;> simp_all [probeInit, readFrame, eraseSettle, eraseAdvance, chipEraseStart, readSetup, eraseSetup]

theorem Move.erase_owns {s t : State} (h : Move s t) (ho : s.op ≠ opErase) : t.endAddr = s.endAddr := by
  cases h <;> simp_all [probeInit, readFrame, writeProgram, writeDisarm, writeAdvance, chipEraseStart, readSetup,
    writeSetup]

/-- R165: INFO does nothing on the bus. -/
theorem Move.info_bus {s t : State} (h : Move s t) (ho : s.op = opInfo) :
    t.trace = s.trace ∧ t.env = s.env ∧ t.csN = s.csN := by
  cases h <;> simp_all [opProbe, opInfo, opRead, opWrite, opErase, opChipErase]

/-- PROBE, INFO and READ run no status read. -/
theorem Move.stat_polls {s t : State} (h : Move s t) (ho : s.op = opProbe ∨ s.op = opInfo ∨ s.op = opRead) :
    t.stat = s.stat ∧ t.polls = s.polls := by
  rcases ho with ho | ho | ho <;> cases h <;>
    simp_all [opProbe, opInfo, opRead, opWrite, opErase, opChipErase, probeInit, readFrame, readSetup]

/-- Settles O39: acceptance and the request ignored field by field, a move by the registers its operation owns. -/
theorem hostOperationsKeepWhatTheyDoNotOwn : Obligations.HostOperationsKeepWhatTheyDoNotOwn := by
  intro s t i hi h
  obtain ⟨r, hd, ⟨hf, rfl⟩ | ⟨hf, hr, hm⟩ | ⟨hf, _, rfl⟩⟩ := exec_host_cases hi h
  · have hne := ne_done_of_mem_successors_idle (firstState_mem_successors hd)
    simp [hf]
  · subst hr
    obtain ⟨hcfg, hop, hsel, haddr, hlen, hreq, hplan⟩ := hm.keeps
    have of_ne {op : BitVec 3} {j : Instr} (hdec : s.op = op → decodeRequest (latched s) = .ok j) (hij : i ≠ j) :
        s.op ≠ op := fun ho => hij (Except.ok.inj (hd.symm.trans (hdec ho)))
    have op_of {op : BitVec 3} {sel : Byte} {addr len : Word} (hdec : decodeRequest ⟨op, sel, addr, len⟩ = .ok i) :
        s.op = op := by
      have henc := (encode_of_decodeRequest (o := Opcodes.default) hd).1.symm.trans
        (encode_of_decodeRequest (o := Opcodes.default) hdec).1
      have hlat := congrArg Request.ofWord (Code.request.inj henc)
      rw [Request.ofWord_toWord, Request.ofWord_toWord] at hlat
      exact congrArg Request.op hlat
    refine ⟨hcfg, hreq, hplan, hm.trace, fun _ => ⟨hop, hsel, haddr, hlen⟩, fun _ => hm.busy, hm.resCode, hm.csCur,
      hm.lines, fun hp => hm.probe_owns (of_ne (decodeRequest_of_probe (r := latched s)) (hp _ _ _)),
      fun hp => hm.info_owns (of_ne (decodeRequest_of_info (r := latched s)) (hp _ _ _)),
      fun hp _ => hm.read_owns (of_ne (decodeRequest_of_read (r := latched s)) (hp _ _ _)),
      fun hp => hm.write_owns (of_ne (decodeRequest_of_write (r := latched s)) (hp _ _ _)),
      fun hp => hm.erase_owns (of_ne (decodeRequest_of_erase (r := latched s)) (hp _ _ _)),
      fun hp => hm.cur ⟨of_ne (decodeRequest_of_write (r := latched s)) (hp s.sel s.addr s.len).1,
        of_ne (decodeRequest_of_erase (r := latched s)) (hp s.sel s.addr s.len).2⟩,
      ?_, ?_, fun hw c hc => hm.env_other hw hc⟩
    · rintro ⟨c, a, n, rfl⟩
      exact hm.info_bus (op_of (decodeRequest_of_info (r := ⟨opInfo, c, a, n⟩) rfl))
    · rintro ⟨c, a, n, rfl | rfl | rfl⟩
      · exact hm.stat_polls (.inl (op_of (decodeRequest_of_probe (r := ⟨opProbe, c, a, n⟩) rfl)))
      · exact hm.stat_polls (.inr (.inl (op_of (decodeRequest_of_info (r := ⟨opInfo, c, a, n⟩) rfl))))
      · exact hm.stat_polls (.inr (.inr (op_of (decodeRequest_of_read (r := ⟨opRead, c, a, n⟩) rfl))))
  · simp

/-! ### Pins (R7, R24, R325) -/

/-- Only PROBE's first state makes a line an output. -/
theorem Move.csOe {s t : State} (h : Move s t) :
    t.csOe = s.csOe ∨ (s.fsm = .pInit ∧ t.csOe = lineSet s.cfg.nCs s.csOe s.sel) := by
  cases h
  case pInit hf => exact .inr ⟨hf, rfl⟩
  all_goals
    exact .inl (by simp [readFrame, writeProgram, writeDisarm, writeAdvance, eraseSettle, eraseAdvance,
      chipEraseStart, readSetup, writeSetup, eraseSetup])

/-- Settles O59: neither waiting nor acceptance touches a pin, and a move sets one only below `N_CS`. -/
theorem onlyExistingLinesAreDriven : Obligations.OnlyExistingLinesAreDriven := by
  intro s t hp h
  rcases step_next_cases hp h with ⟨_, _, rfl⟩ | ⟨r, rs, i, _, _, _, rfl⟩ | ⟨_, hm⟩
  · exact ⟨fun c _ => ⟨rfl, rfl⟩, fun c hc => absurd rfl hc⟩
  · exact ⟨fun c _ => ⟨rfl, rfl⟩, fun c hc => absurd rfl hc⟩
  · refine ⟨hm.noLine, fun c hc => ?_⟩
    rcases hm.csOe with hsame | ⟨hf, hset⟩
    · exact absurd (congrArg (lineBit · c) hsame) hc
    · rw [hset, lineBit_lineSet] at hc ⊢
      by_cases hline : c = s.sel ∧ c.toNat < s.cfg.nCs
      · obtain ⟨rfl, hlt⟩ := hline
        exact ⟨by simp [hlt], hlt, hf, rfl⟩
      · have hbit : (decide (c = s.sel) && decide (c.toNat < s.cfg.nCs)) = false := by simpa using hline
        exact absurd (by rw [hbit, Bool.false_or]) hc

/-- Settles O52: a frame selects the line of the operation in progress, which the invariant says is ready. -/
theorem selectsOnlyInitialisedLines : Obligations.SelectsOnlyInitialisedLines := by
  intro s t hinv hp h
  rcases step_next_cases hp h with ⟨_, _, rfl⟩ | ⟨r, rs, i, _, _, _, rfl⟩ | ⟨_, hm⟩
  · exact ⟨[], by simp, by simp⟩
  · exact ⟨[], by simp, by simp⟩
  · rcases hm.bus with ⟨htr, _⟩ | ⟨htr, _⟩ | ⟨w, htr, _⟩ | ⟨hline, xs, htr, _⟩
    · exact ⟨[], by simp [htr], by simp⟩
    · exact ⟨_, htr, by simp⟩
    · exact ⟨_, htr, by simp⟩
    · refine ⟨_, htr, fun c hc => ?_⟩
      obtain rfl := sel_mem_frameEvents.mp hc
      exact hinv.ready.2 hline

end Sys2Proof.Machine
end

section
/-! ## The invariant: what a move keeps of each part (R23 to R25, R50, R67, R147, R193, R213, R325) -/

namespace Sys2Proof.Machine

/-! ### Environments -/

theorem Env.KeepsDevices.noDevice {e f : Env} (h : Env.KeepsDevices e f) {c : Byte} (hc : ∀ d, e.lineAt c ≠ .device d)
    (d : RefDevice) : f.lineAt c ≠ .device d := by
  intro hd
  obtain ⟨d0, hd0, _⟩ := h c d hd
  exact hc d0 hd0

/-- R50: sizes and identifications are kept, so the sizes stay as registered. -/
theorem DeviceSizesRegistered.of_keepsDevices {s t : State} (h : DeviceSizesRegistered s) (hcfg : t.cfg = s.cfg)
    (hk : Env.KeepsDevices s.env t.env) : DeviceSizesRegistered t := by
  intro c d r e hd hlook he
  obtain ⟨d0, hd0, hsize, hid⟩ := hk c d hd
  rw [hsize]
  refine h c d0 r e hd0 ?_ (hcfg ▸ he)
  rwa [lookup, hcfg, hid] at hlook

/-! ### Reset -/

/-- A state just after reset meets the invariant if its parameters and its environment do. -/
theorem afterReset_inv {s : State} (hcfg : s.cfg.wf) (hw : s.env.wf)
    (hexist : ∀ c : Byte, s.cfg.nCs ≤ c.toNat → ∀ d, s.env.lineAt c ≠ .device d) (hsizes : DeviceSizesRegistered s) :
    MachineInv (afterReset s) where
  config := hcfg
  busy := rfl
  operation := fun h => absurd rfl h
  lines := lineBit_allOnes
  exist := fun c hc => ⟨BitVec.getLsbD_zero, hexist c hc⟩
  bounded := Nat.zero_le _
  types := nofun
  ready := ⟨nofun, nofun⟩
  code := by simp [ResultCodeLegal, afterReset, State.resetWith, ResultCode.code]
  polls := by simp [PollsBelowLimit, afterReset, State.resetWith]
  chunks := by simp [WriteChunkMap, afterReset, State.resetWith]
  subsectors := by simp [EraseIterationMap, afterReset, State.resetWith]
  memory := hw
  deviceSizes := hsizes
  chipSizes := nofun
  identified := nofun
  range := nofun

theorem reset_values (cfg : Config) :
    (State.resetWith cfg).attCount = 0 ∧ (∀ c, lineBit (State.resetWith cfg).csOe c = false) ∧
      ∀ c, lineBit (State.resetWith cfg).csN c = true :=
  ⟨rfl, fun _ => BitVec.getLsbD_zero, lineBit_allOnes⟩

/-- Settles O13: `State.reset` is the reset state of the default configuration. -/
theorem resetLeavesTheStatedValues : Obligations.ResetLeavesTheStatedValues := by
  intro cfg s hs
  obtain rfl : s = State.resetWith cfg := by
    rcases hs with h | ⟨rfl, h⟩
    exacts [h, h]
  obtain ⟨hatt, hoe, hn⟩ := reset_values cfg
  exact ⟨rfl, rfl, rfl, hatt, hoe, hn, rfl, rfl, rfl, rfl, rfl, rfl⟩

/-- Everything a frame cut short by reset does (R322). -/
theorem cutFrame_eq (m : Nat) (w : Instr) (s : State) :
    cutFrame m w s =
      { s with
        csN := lineClear s.cfg.nCs s.csN s.csCur
        env := (Env.transfers s.cfg.opc s.csCur (outs ((frameOf s.cfg.opc w).take m)) (s.env.select s.csCur)).2.cut w
          s.csCur
        trace := s.trace ++ (.sel s.csCur :: exchangesEvents ((frameOf s.cfg.opc w).take m)
          (Env.frameInput s.cfg.opc s.csCur (outs ((frameOf s.cfg.opc w).take m)) s.env)) } := by
  simp only [cutFrame, openFrame_eq]

/-- What happens before a reset: nothing, PROBE's pin and bus initialisation, or a cut frame of the wire command the state
emits (R320, R322). -/
theorem beforeReset_cases (n : Nat) (s : State) :
    beforeReset n s = s ∨ beforeReset n s = pinInit s.sel s ∨ beforeReset n s = busInitialise (pinInit s.sel s) ∨
    ∃ m w, n = m + 1 ∧ wireAt s = some w ∧
      (beforeReset n s = cutFrame m w s ∨ beforeReset n s = cutFrame m w (takeHost s.k.toNat s)) := by
  cases n with
  | zero => exact .inl rfl
  | succ m =>
    rw [beforeReset]
    cases hw : wireAt s with
    | none => split_ifs <;> simp
    | some w => split_ifs <;> simp

theorem cutFrame_keepsDevices {s : State} (hw : s.env.wf) (m : Nat) (w : Instr) :
    (cutFrame m w s).env.wf ∧ Env.KeepsDevices s.env (cutFrame m w s).env := by
  rw [cutFrame_eq]
  have hsel := Env.select_wf hw s.csCur
  have htr := Env.transfers_wf hsel s.cfg.opc s.csCur (outs ((frameOf s.cfg.opc w).take m))
  exact ⟨Env.cut_wf htr w _, ((Env.select_keepsDevices hw _).trans (Env.transfers_keepsDevices hsel _ _ _)).trans
    (Env.cut_keepsDevices htr w _)⟩

theorem beforeReset_cfg (n : Nat) (s : State) : (beforeReset n s).cfg = s.cfg := by
  rcases beforeReset_cases n s with h | h | h | ⟨m, w, _, _, h | h⟩ <;> rw [h] <;> simp [cutFrame_eq]

/-- R322: what happens before a reset brings no device, and devices keep their size and identification. -/
theorem beforeReset_keepsDevices {s : State} (hw : s.env.wf) (n : Nat) :
    (beforeReset n s).env.wf ∧ Env.KeepsDevices s.env (beforeReset n s).env := by
  rcases beforeReset_cases n s with h | h | h | ⟨m, w, _, _, h | h⟩ <;> rw [h]
  case inr.inr.inr.inl => exact cutFrame_keepsDevices hw m w
  case inr.inr.inr.inr => exact cutFrame_keepsDevices (s := takeHost s.k.toNat s) hw m w
  all_goals exact ⟨hw, .refl _⟩

theorem resetDuring_inv {s : State} (h : MachineInv s) (n : Nat) : MachineInv (resetDuring n s) := by
  have hcfg := beforeReset_cfg n s
  obtain ⟨hw, hk⟩ := beforeReset_keepsDevices h.memory n
  refine afterReset_inv (hcfg ▸ h.config) hw ?_ (h.deviceSizes.of_keepsDevices hcfg hk)
  intro c hc
  rw [hcfg] at hc
  exact hk.noDevice (h.exist c hc).2

/-- Settles O49: a state just after reset, for each of the three environments. -/
theorem resetMeetsTheInvariant : Obligations.ResetMeetsTheInvariant := by
  have hunknown (cfg : Config) (hcfg : cfg.wf) : MachineInv (State.resetWith cfg) :=
    afterReset_inv (s := State.resetWith cfg) hcfg Env.unknown_wf (fun _ _ _ => nofun) (fun _ _ _ _ => nofun)
  have hdefault : Config.default.wf := by
    refine ⟨by decide, Nat.le_add_left _ _, Config.openMaxChipsPred.isLt, ?_, nofun⟩
    simp [Config.default]
  refine ⟨hunknown _ hdefault, fun cfg hcfg => ⟨hunknown cfg hcfg, fun c size id n mem hc hmem hsize => ?_⟩⟩
  have hline (x : Byte) (d : RefDevice)
      (h : (Env.withLine c (.device (RefDevice.initial size id n mem))).lineAt x = .device d) :
      x = c ∧ d = RefDevice.initial size id n mem := by
    rw [Env.lineAt_withLine] at h
    split_ifs at h with hx
    exact ⟨hx, (Line.device.inj h).symm⟩
  refine afterReset_inv
    (s := { State.resetWith cfg with env := Env.withLine c (.device (RefDevice.initial size id n mem)) }) hcfg
    (Env.withLine_wf c (.inr (Env.lineOk_device.mpr hmem))) (fun x hx d hd => ?_) (fun x d r e hd hlook he => ?_)
  · obtain ⟨rfl, _⟩ := hline x d hd
    exact absurd hc (Nat.not_lt.mpr hx)
  · obtain ⟨_, rfl⟩ := hline x d hd
    exact hsize r e hlook he

/-! ### Acceptance -/

theorem firstState_owner {r : Request} {i : Instr} (hd : decodeRequest r = .ok i) :
    (firstState i).owner = some r.op := by
  rcases decodeRequest_cases r with ⟨ho, e⟩ | ⟨ho, e⟩ | ⟨ho, e⟩ | ⟨ho, e⟩ | ⟨ho, e⟩ | ⟨ho, e⟩ | ⟨_, e⟩ <;>
    rw [e] at hd <;> cases hd <;> simp [firstState, Fsm.owner, ho]

/-- In a first state no line is chosen and no loop has begun. -/
theorem firstState_cases {r : Request} {i : Instr} (hd : decodeRequest r = .ok i) :
    firstState i = .pInit ∨ firstState i = .iLookup ∨ firstState i = .rCheck ∨ firstState i = .wCheck ∨
      firstState i = .eCheck ∨ firstState i = .cCheck := by
  simpa [Fsm.successors] using firstState_mem_successors hd

theorem accept_inv {s : State} {r : Request} {i : Instr} (h : MachineInv s) (hd : decodeRequest r = .ok i)
    (rs : List HostRequest) (ws : List Byte) :
    MachineInv (accept r (firstState i) { s with requests := rs, wdata := ws }) where
  config := h.config
  busy := by rcases firstState_cases hd with e | e | e | e | e | e <;> simp [BusyMatchesFsm, accept, e]
  operation := fun _ => ⟨⟨i, hd⟩, fun o ho => by
    rw [accept_fsm, firstState_owner hd] at ho
    exact Option.some.inj ho⟩
  lines := h.lines
  exist := h.exist
  bounded := h.bounded
  types := h.types
  ready := by
    refine ⟨h.ready.1, ?_⟩
    rcases firstState_cases hd with e | e | e | e | e | e <;> simp [e, Fsm.lineChosen]
  code := h.code
  polls := by rcases firstState_cases hd with e | e | e | e | e | e <;> simp [PollsBelowLimit, e]
  chunks := by rcases firstState_cases hd with e | e | e | e | e | e <;> simp [WriteChunkMap, e]
  subsectors := by rcases firstState_cases hd with e | e | e | e | e | e <;> simp [EraseIterationMap, e]
  memory := h.memory
  deviceSizes := h.deviceSizes
  chipSizes := h.chipSizes
  identified := by rcases firstState_cases hd with e | e | e | e | e | e <;> simp [IdentificationRead, e]
  range := by rcases firstState_cases hd with e | e | e | e | e | e <;> simp [RangeCovered, e, Fsm.lineChosen]

/-! ### One move -/

/-- R32: the move out of `DONE`. -/
theorem Move.eq_retire {s t : State} (h : Move s t) (hf : s.fsm = .done) : t = retire s := by
  cases h
  case done => rfl
  case invalid ho hf' _ => rcases ho with ⟨_, rfl⟩ | ⟨_, rfl⟩ | ⟨_, rfl⟩ | ⟨_, rfl⟩ <;> simp [hf] at hf'
  case notArmed ho hf' _ | timedOut ho hf' _ _ _ =>
    rcases ho with ⟨_, rfl⟩ | ⟨_, rfl⟩ | ⟨_, rfl⟩ <;> simp [hf] at hf'
  all_goals simp_all

theorem Move.busyMatchesFsm {s t : State} (h : Move s t) (hbusy : s.fsm ≠ .idle) (hs : BusyMatchesFsm s) :
    BusyMatchesFsm t := by
  by_cases hf : s.fsm = .done
  · obtain rfl := h.eq_retire hf
    rfl
  · have ht : t.fsm ≠ .idle := fun ht => hf (eq_done_of_idle_mem_successors (ht ▸ h.mem_successors))
    rw [BusyMatchesFsm, h.busy hf, hs, decide_eq_true hbusy, decide_eq_true ht]

theorem Move.operationMatchesFsm {s t : State} (h : Move s t) (hbusy : s.fsm ≠ .idle) (hs : OperationMatchesFsm s) :
    OperationMatchesFsm t := by
  obtain ⟨hdec, _⟩ := hs hbusy
  obtain ⟨_, hop, hsel, haddr, hlen, _⟩ := h.keeps
  have hlatched : latched t = latched s := by simp [latched, hop, hsel, haddr, hlen]
  refine fun ht => ⟨hlatched ▸ hdec, fun o ho => ?_⟩
  rcases h.target with hi | hdone | howner
  · exact absurd hi ht
  · rw [hdone] at ho
    cases ho
  · exact hop.trans (Option.some.inj (howner.symm.trans ho))

theorem Move.csN {s t : State} (h : Move s t) : t.csN = s.csN ∨ ∃ c, t.csN = lineSet s.cfg.nCs s.csN c := by
  cases h <;> simp [probeInit, readFrame, writeProgram, writeDisarm, writeAdvance, eraseSettle, eraseAdvance,
    chipEraseStart, readSetup, writeSetup, eraseSetup]

theorem Move.linesDeasserted {s t : State} (h : Move s t) (hs : LinesDeasserted s) : LinesDeasserted t := by
  intro c
  rcases h.csN with hsame | ⟨d, hset⟩
  · exact hsame ▸ hs c
  · rw [hset, lineBit_lineSet, hs c, Bool.or_true]

theorem Move.linesExist {s t : State} (h : Move s t) (hw : s.env.wf) (hs : LinesExist s) : LinesExist t := by
  obtain ⟨hcfg, _⟩ := h.keeps
  intro c hc
  rw [hcfg] at hc
  obtain ⟨hoe, hdev⟩ := hs c hc
  exact ⟨(h.noLine c hc).2.trans hoe, (h.keepsDevices hw).noDevice hdev⟩

/-- R161: the table stays, or PROBE has found the identification it read in the registry and had room for an entry. -/
theorem Move.att_cases {s t : State} (h : Move s t) :
    t.att = s.att ∨ ∃ r, s.fsm = .pResolve ∧ s.idbuf[0] ≠ Config.idleByte ∧
      lookup s s.idbuf[0] (deviceId s.idbuf[1] s.idbuf[2]) = some r ∧ s.attCount ≠ s.cfg.maxChips ∧
      t = returnOk (appendEntry s.csCur r s) := by
  cases h
  case attached r _ hf hid hlook hroom => exact .inr ⟨r, hf, hid, hlook, hroom, rfl⟩
  all_goals
    exact .inl (by simp [probeInit, readFrame, writeProgram, writeDisarm, writeAdvance, eraseSettle, eraseAdvance,
      chipEraseStart, readSetup, writeSetup, eraseSetup])

theorem Move.tableBounded {s t : State} (h : Move s t) (hs : TableBounded s) : TableBounded t := by
  rcases h.att_cases with hatt | ⟨r, _, _, _, hroom, rfl⟩
  · obtain ⟨hcfg, _⟩ := h.keeps
    rw [TableBounded, hatt, hcfg]
    exact hs
  · have hlt : s.att.length < s.cfg.maxChips := lt_of_le_of_ne hs hroom
    simpa [TableBounded] using hlt

theorem Move.tableTypesValid {s t : State} (h : Move s t) (hs : TableTypesValid s) : TableTypesValid t := by
  rcases h.att_cases with hatt | ⟨r, _, _, hlook, _, rfl⟩
  · obtain ⟨hcfg, _⟩ := h.keeps
    rw [TableTypesValid, hatt, hcfg]
    exact hs
  · obtain ⟨⟨e, he, _⟩, _⟩ := lookup_eq_some_iff.mp hlook
    obtain ⟨hr, _⟩ := List.getElem?_eq_some_iff.mp he
    intro a ha
    simp only [returnOk_att, appendEntry_att, List.mem_append, List.mem_singleton] at ha
    rcases ha with ha | rfl
    exacts [hs a ha, hr]

theorem Move.busInit {s t : State} (h : Move s t) : t.busInit = s.busInit ∨ t.busInit = true := by
  cases h <;> simp [probeInit, readFrame, writeProgram, writeDisarm, writeAdvance, eraseSettle, eraseAdvance,
    chipEraseStart, readSetup, writeSetup, eraseSetup]

/-- R325: a line that may be driven stays so. -/
theorem Move.lineReady {s t : State} (h : Move s t) {c : Byte} (hs : LineReady s c) : LineReady t c := by
  obtain ⟨hcfg, _⟩ := h.keeps
  obtain ⟨hoe, hbus⟩ := hs
  constructor
  · intro hc
    rw [hcfg] at hc
    rcases h.csOe with hsame | ⟨_, hset⟩
    · rw [hsame, hoe hc]
    · rw [hset, lineBit_lineSet, hoe hc, Bool.or_true]
  · rcases h.busInit with hsame | htrue
    exacts [hsame.trans hbus, htrue]

/-- How a line comes to be chosen: it was, PROBE begins on it, or a bound handle gives it. -/
theorem Move.lineChosen_cases {s t : State} (h : Move s t) (ht : t.fsm.lineChosen = true) :
    (s.fsm.lineChosen = true ∧ t.csCur = s.csCur) ∨ (s.fsm = .pInit ∧ t = probeInit s) ∨
      ∃ e, s.att[s.sel.toNat]? = some e ∧ t.csCur = e.cs ∧
        (s.op = opChipErase ∨ t.env = s.env.claim e.cs s.addr s.len) := by
  revert ht
  cases h
  case pInit hf => exact fun _ => .inr (.inl ⟨hf, rfl⟩)
  case rCheck e _ _ he | wCheck e _ _ he | eCheck e _ _ he => exact fun _ => .inr (.inr ⟨e, he, rfl, .inr rfl⟩)
  case cCheck e ho _ he => exact fun _ => .inr (.inr ⟨e, he, rfl, .inl ho⟩)
  all_goals
    simp_all [Fsm.lineChosen, readFrame, writeProgram, writeDisarm, writeAdvance, eraseSettle, eraseAdvance,
      chipEraseStart]

theorem Move.drivenLinesReady {s t : State} (h : Move s t) (hs : DrivenLinesReady s) : DrivenLinesReady t := by
  obtain ⟨hatt, hcur⟩ := hs
  constructor
  · intro a ha
    rcases h.att_cases with hsame | ⟨r, hf, _, _, _, rfl⟩
    · exact h.lineReady (hatt a (hsame ▸ ha))
    · simp only [returnOk_att, appendEntry_att, List.mem_append, List.mem_singleton] at ha
      rcases ha with ha | rfl
      · exact hatt a ha
      · exact hcur (by rw [hf]; rfl)
  · intro ht
    rcases h.lineChosen_cases ht with ⟨hline, hsame⟩ | ⟨_, rfl⟩ | ⟨e, he, hcs, _⟩
    · exact hsame ▸ h.lineReady (hcur hline)
    · refine ⟨fun hc => ?_, rfl⟩
      have hc : s.sel.toNat < s.cfg.nCs := hc
      simp [probeInit, lineBit_lineSet, hc]
    · exact hcs ▸ h.lineReady (hatt e (List.mem_of_getElem? he))

/-- R281, R282: a move leaves the result code or writes one of the seven, Timeout only at a finite limit. -/
theorem Move.resCode_cases {s t : State} (h : Move s t) :
    t.resCode = s.resCode ∨
      ∃ e : ResultCode, t.resCode = e.code ∧ (e = .timeout → s.cfg.pollLimit ≠ none) := by
  cases h
  case timedOut hl _ => exact .inr ⟨.timeout, rfl, fun _ => by simp [hl]⟩
  case noDevice => exact .inr ⟨.noDevice, rfl, nofun⟩
  case unsupported => exact .inr ⟨.unsupportedDevice, rfl, nofun⟩
  case tooMany => exact .inr ⟨.tooManyChips, rfl, nofun⟩
  case infoError | invalid => exact .inr ⟨.invalidHandle, rfl, nofun⟩
  case notArmed => exact .inr ⟨.writeEnableFailed, rfl, nofun⟩
  case attached | infoHold | infoBound | rFrame | wFinished | eWrdi | cReady => exact .inr ⟨.ok, rfl, nofun⟩
  all_goals
    exact .inl (by simp [probeInit, writeProgram, writeDisarm, writeAdvance, eraseSettle, eraseAdvance, chipEraseStart,
      readSetup, writeSetup, eraseSetup])

theorem ResultCode.code_ne_seven (e : ResultCode) : e.code ≠ 7 := by cases e <;> decide

theorem ResultCode.code_eq_timeout_iff {e : ResultCode} : e.code = ResultCode.timeout.code ↔ e = .timeout := by
  cases e <;> simp [ResultCode.code]

theorem Move.resultCodeLegal {s t : State} (h : Move s t) (hs : ResultCodeLegal s) : ResultCodeLegal t := by
  obtain ⟨hcfg, _⟩ := h.keeps
  rw [ResultCodeLegal, hcfg]
  rcases h.resCode_cases with hsame | ⟨e, hcode, he⟩
  · exact hsame ▸ hs
  · rw [hcode]
    exact ⟨e.code_ne_seven, fun hlim hto => he (ResultCode.code_eq_timeout_iff.mp hto) hlim⟩

/-- R147: a poll loop begins with no poll counted, and goes on only below the limit. -/
theorem Move.pollsBelowLimit {s t : State} (h : Move s t) (hwf : s.cfg.wf) (hs : PollsBelowLimit s) :
    PollsBelowLimit t := by
  obtain ⟨_, _, _, _, hzero⟩ := hwf
  have hpos : ∀ l, s.cfg.pollLimit = some l → 0 < l := fun l hl =>
    Nat.pos_of_ne_zero fun h0 => hzero (h0 ▸ hl)
  revert hs
  cases h <;> simp_all [PollsBelowLimit, probeInit, readFrame, writeProgram, writeDisarm, writeAdvance, eraseSettle,
    eraseAdvance, chipEraseStart, readSetup, writeSetup, eraseSetup]

/-! ### The chunk map and the iteration map -/

theorem AtChunk.congr {s t : State} {j : Nat} (h : AtChunk s j) (hcur : t.cur = s.cur) (hoff : t.off = s.off)
    (hrem : t.rem = s.rem) (haddr : t.addr = s.addr) (hlen : t.len = s.len) : AtChunk t j := by
  rwa [AtChunk, hcur, hoff, hrem, haddr, hlen]

/-- R191: WRITE begins at chunk 0. -/
theorem atChunk_zero_writeSetup (s : State) : AtChunk (writeSetup s) 0 := by
  simp [AtChunk, writeSetup]

/-- R193: the chunk at hand is not empty and has the length R193 gives it. -/
theorem chunkLen_of_atChunk {s : State} {j : Nat} (h : AtChunk s j) (hrem : s.rem ≠ 0) :
    256 * j < s.len.toNat ∧ (chunkLen s.rem).toNat = min 256 (s.len.toNat - 256 * j) := by
  obtain ⟨_, _, hr⟩ := h
  have hne : s.rem.toNat ≠ 0 := fun h0 => hrem (BitVec.eq_of_toNat_eq h0)
  rw [chunkLen_toNat]
  omega

/-- R193: after a chunk of its length the registers stand at the next. -/
theorem AtChunk.writeAdvance {s : State} {j : Nat} (h : AtChunk s j) (hj : 256 * j < s.len.toNat)
    (hk : s.k.toNat = min 256 (s.len.toNat - 256 * j)) : AtChunk (writeAdvance s) (j + 1) := by
  obtain ⟨hcur, hoff, hrem⟩ := h
  have hlen : s.len.toNat < 2 ^ 32 := s.len.isLt
  have hk32 : (s.k.setWidth 32).toNat = s.k.toNat := by
    rw [BitVec.toNat_setWidth, Nat.mod_eq_of_lt (by omega)]
  refine ⟨?_, ?_, ?_⟩
  · simp only [Machine.writeAdvance, goto_cur, goto_addr, nextChunk_cur, nextChunk_addr, Config.pageSize, hcur]
    omega
  · simp only [Machine.writeAdvance, goto_off, goto_len, nextChunk_off, nextChunk_len, BitVec.toNat_add, hk32, hoff, hk]
    omega
  · have hle : s.k.setWidth 32 ≤ s.rem := by
      rw [BitVec.le_def, hk32]
      omega
    simp only [Machine.writeAdvance, goto_rem, goto_len, nextChunk_rem, nextChunk_len, BitVec.toNat_sub_of_le hle, hk32,
      hrem, hk]
    omega

theorem Move.writeChunkMap {s t : State} (h : Move s t) (hs : WriteChunkMap s) : WriteChunkMap t := by
  obtain ⟨hnext, hbody⟩ := hs
  cases h
  case wCheck e _ _ _ => exact ⟨fun _ => ⟨0, atChunk_zero_writeSetup _⟩, by simp [writeSetup]⟩
  case wNext hf hrem =>
    obtain ⟨j, hj⟩ := hnext hf
    exact ⟨nofun, fun _ => ⟨j, hj, chunkLen_of_atChunk hj hrem⟩⟩
  case wAdv hf =>
    obtain ⟨j, hj, hlt, hk⟩ := hbody (by simp [hf])
    exact ⟨fun _ => ⟨j + 1, hj.writeAdvance hlt hk⟩, by simp [Machine.writeAdvance]⟩
  case wWren hf | wArmed hf _ | wPp hf | wWrdi hf | wReady hf _ | wBusy hf _ _ | wWait hf =>
    obtain ⟨j, hj, hlt, hk⟩ := hbody (by simp [hf])
    refine ⟨by simp [writeProgram, writeDisarm], fun _ => ⟨j, hj.congr ?_ ?_ ?_ ?_ ?_, ?_⟩⟩ <;>
      simp [writeProgram, writeDisarm, hlt, hk]
  all_goals simp [WriteChunkMap, probeInit, readFrame, eraseSettle, eraseAdvance, chipEraseStart, readSetup, eraseSetup]

/-- R61, R211: ERASE begins at the sub-sector of the start address. -/
theorem eraseIterationMap_eraseSetup (s : State) : EraseIterationMap (eraseSetup s) := by
  refine ⟨fun _ => ⟨rfl, 0, ?_⟩, by simp [eraseSetup]⟩
  simp only [eraseSetup, goto_cur, goto_addr, firstSubsector_cur, firstSubsector_addr, alignDown_eq]
  omega

theorem Move.eraseIterationMap {s t : State} (h : Move s t) (hs : EraseIterationMap s) : EraseIterationMap t := by
  obtain ⟨hloop, hbody⟩ := hs
  cases h
  case eCheck e _ _ _ => exact eraseIterationMap_eraseSetup _
  case eMore hf hlt => exact ⟨fun _ => hloop (.inl hf), fun _ => hlt⟩
  case eAdv hf =>
    obtain ⟨hend, j, hj⟩ := hloop (by simp [hf])
    refine ⟨fun _ => ⟨hend, j + 1, ?_⟩, by simp [eraseAdvance]⟩
    simp only [eraseAdvance, goto_cur, goto_addr, nextSubsector_cur, nextSubsector_addr, Config.subsectorSize, hj]
    omega
  case eWren hf | eArmed hf _ | eSse hf | eSettle hf | eReady hf _ | eBusy hf _ _ | eWait hf =>
    obtain ⟨hend, j, hj⟩ := hloop (by simp [hf])
    have hlt := hbody (by simp [hf])
    exact ⟨fun _ => ⟨by simpa [eraseSettle] using hend, j, by simpa [eraseSettle] using hj⟩,
      fun _ => by simpa [eraseSettle] using hlt⟩
  all_goals
    simp [EraseIterationMap, probeInit, readFrame, writeProgram, writeDisarm, writeAdvance, chipEraseStart, readSetup,
      writeSetup]

/-! ### Devices -/

/-- R50, R161: PROBE appends the registry's entry for the identification it read, which is the device's. -/
theorem Move.chipSizesRegistered {s t : State} (h : Move s t) (hw : s.env.wf) (hdev : DeviceSizesRegistered s)
    (hid : IdentificationRead s) (hs : ChipSizesRegistered s) : ChipSizesRegistered t := by
  intro a ha d e hd he
  rcases h.att_cases with hsame | ⟨r, hf, hidle, hlook, _, rfl⟩
  · obtain ⟨hcfg, _⟩ := h.keeps
    obtain ⟨d0, hd0, hsize, _⟩ := h.keepsDevices hw a.cs d hd
    exact hsize.trans (hs a (hsame ▸ ha) d0 e hd0 (hcfg ▸ he))
  · simp only [returnOk_att, appendEntry_att, List.mem_append, List.mem_singleton] at ha
    rcases ha with ha | rfl
    · exact hs a ha d e hd he
    · rcases hid hf d hd with hbuf | hbusy
      · exact hdev s.csCur d r e hd (hbuf ▸ hlook) he
      · exact absurd hbusy hidle

/-- R162: PROBE comes to its last state from reading the identification. -/
theorem Move.eq_readId {s t : State} (h : Move s t) (ht : t.fsm = .pResolve) :
    t = goto .pResolve (readId s.csCur s) := by
  revert ht
  cases h
  case pId => exact fun _ => rfl
  all_goals simp_all [probeInit, readFrame, writeProgram, writeDisarm, writeAdvance, eraseSettle, eraseAdvance,
      chipEraseStart, readSetup, writeSetup, eraseSetup]

theorem Move.identificationRead {s t : State} (h : Move s t) (hwf : s.cfg.wf) (hw : s.env.wf) :
    IdentificationRead t := by
  intro ht d hd
  obtain ⟨d0, hd0, _, hid⟩ := h.keepsDevices hw t.csCur d hd
  obtain ⟨hopc, _⟩ := hwf
  have ht' := h.eq_readId ht
  have hcs : t.csCur = s.csCur := by rw [ht', goto_csCur, readId_csCur]
  have hbuf : t.idbuf = (readId s.csCur s).idbuf := by rw [ht', goto_idbuf]
  rw [hid, hbuf]
  exact readId_idbuf hopc hw (hcs ▸ hd0)

theorem owner_of_lineChosen {f : Fsm} (h : f.lineChosen = true) : ∃ o, f.owner = some o := by
  cases f <;> simp [Fsm.lineChosen, Fsm.owner] at h ⊢

theorem RefDevice.covers_congr {d d' : RefDevice} (h : d'.size = d.size) (a n : Word) : d'.covers a n = d.covers a n := by
  simp [RefDevice.covers, h]

/-- R67: a range is claimed where its line is chosen, and devices keep their size. -/
theorem Move.rangeCovered {s t : State} (h : Move s t) (hbusy : s.fsm ≠ .idle) (hw : s.env.wf)
    (hop : OperationMatchesFsm s) (hs : RangeCovered s) : RangeCovered t := by
  intro hline howner d hd
  obtain ⟨_, hop', _, haddr, hlen, _⟩ := h.keeps
  have htop : t.fsm.owner = some s.op := by
    rcases h.target with hi | hdone | ho
    · rw [hi] at hline; cases hline
    · rw [hdone] at hline; cases hline
    · exact ho
  rw [haddr, hlen]
  rcases h.lineChosen_cases hline with ⟨hsline, hcs⟩ | ⟨_, rfl⟩ | ⟨e, _, hcs, hchip | hclaim⟩
  · obtain ⟨o, ho⟩ := owner_of_lineChosen hsline
    have hsop : s.fsm.owner = some s.op := ho.trans (congrArg some ((hop hbusy).2 o ho).symm)
    obtain ⟨d0, hd0, hsize, _⟩ := h.keepsDevices hw t.csCur d hd
    rw [RefDevice.covers_congr hsize]
    exact hs hsline (hsop ▸ htop ▸ howner) d0 (hcs ▸ hd0)
  · simp [probeInit, Fsm.owner, opProbe, opRead, opWrite, opErase] at howner
  · rw [htop, hchip] at howner
    simp [opChipErase, opRead, opWrite, opErase] at howner
  · rw [hcs, hclaim] at hd
    exact Env.claim_covers hw hd

/-! ### The step -/

theorem Move.machineInv {s t : State} (h : Move s t) (hbusy : s.fsm ≠ .idle) (hs : MachineInv s) : MachineInv t where
  config := by
    obtain ⟨hcfg, _⟩ := h.keeps
    exact hcfg ▸ hs.config
  busy := h.busyMatchesFsm hbusy hs.busy
  operation := h.operationMatchesFsm hbusy hs.operation
  lines := h.linesDeasserted hs.lines
  exist := h.linesExist hs.memory hs.exist
  bounded := h.tableBounded hs.bounded
  types := h.tableTypesValid hs.types
  ready := h.drivenLinesReady hs.ready
  code := h.resultCodeLegal hs.code
  polls := h.pollsBelowLimit hs.config hs.polls
  chunks := h.writeChunkMap hs.chunks
  subsectors := h.eraseIterationMap hs.subsectors
  memory := h.env_wf hs.memory
  deviceSizes := by
    obtain ⟨hcfg, _⟩ := h.keeps
    exact hs.deviceSizes.of_keepsDevices hcfg (h.keepsDevices hs.memory)
  chipSizes := h.chipSizesRegistered hs.memory hs.deviceSizes hs.identified hs.chipSizes
  identified := h.identificationRead hs.config hs.memory
  range := h.rangeCovered hbusy hs.memory hs.operation hs.range

/-- The invariant does not speak of the reset input. -/
theorem MachineInv.withResetPlan {s : State} (h : MachineInv s) (rs : List (Option Nat)) :
    MachineInv { s with resetPlan := rs } :=
  ⟨h.config, h.busy, h.operation, h.lines, h.exist, h.bounded, h.types, h.ready, h.code, h.polls, h.chunks,
    h.subsectors, h.memory, h.deviceSizes, h.chipSizes, h.identified, h.range⟩

theorem cycle_keeps_inv {s t : State} (hs : MachineInv s) (h : cycle s = .next t) : MachineInv t := by
  by_cases hi : s.fsm = .idle
  · rcases cycle_idle hi with ⟨_, e⟩ | ⟨r, rs, i, _, hd, e⟩ | ⟨r, rs, _, _, e⟩ <;> rw [e] at h <;> cases h
    exacts [hs, accept_inv hs hd rs r.data]
  · exact (advance_move ((cycle_busy hi).symm.trans h)).machineInv hi hs

/-- Settles O50: a step is a reset or a cycle, and a cycle a wait, an acceptance or a move. -/
theorem stepKeepsTheInvariant : Obligations.StepKeepsTheInvariant := by
  intro s t hs h
  cases hp : s.resetPlan with
  | nil => exact cycle_keeps_inv hs ((step_of_nil hp).symm.trans h)
  | cons r rs =>
    cases r with
    | none => exact cycle_keeps_inv (hs.withResetPlan rs) ((step_of_none hp).symm.trans h)
    | some n =>
      obtain rfl := Host.Outcome.next.inj ((step_of_reset hp).symm.trans h)
      exact resetDuring_inv (hs.withResetPlan rs) n

end Sys2Proof.Machine
end

section
/-! ## What the invariant gives (R50, R67, R193, R213) -/

namespace Sys2Proof.Machine

/-! ### No fault -/

theorem probeFsm_next {s : State} (ho : s.fsm.owner = some opProbe) : ∃ t, probeFsm s = .next t := by
  unfold probeFsm
  cases hf : s.fsm <;> simp [hf, Fsm.owner, opProbe, opInfo, opRead, opWrite, opErase, opChipErase] at ho ⊢

theorem readFsm_next {s : State} (ho : s.fsm.owner = some opRead) : ∃ t, readFsm s = .next t := by
  unfold readFsm
  cases hf : s.fsm <;> simp [hf, Fsm.owner, opProbe, opInfo, opRead, opWrite, opErase, opChipErase] at ho ⊢

theorem writeFsm_next {s : State} (ho : s.fsm.owner = some opWrite) : ∃ t, writeFsm s = .next t := by
  unfold writeFsm
  cases hf : s.fsm <;> simp [hf, Fsm.owner, opProbe, opInfo, opRead, opWrite, opErase, opChipErase] at ho ⊢

theorem eraseFsm_next {s : State} (ho : s.fsm.owner = some opErase) : ∃ t, eraseFsm s = .next t := by
  unfold eraseFsm
  cases hf : s.fsm <;> simp [hf, Fsm.owner, opProbe, opInfo, opRead, opWrite, opErase, opChipErase] at ho ⊢

theorem chipEraseFsm_next {s : State} (ho : s.fsm.owner = some opChipErase) : ∃ t, chipEraseFsm s = .next t := by
  unfold chipEraseFsm
  cases hf : s.fsm <;> simp [hf, Fsm.owner, opProbe, opInfo, opRead, opWrite, opErase, opChipErase] at ho ⊢

/-- R23(c): INFO finds the entry of every bound handle. -/
theorem infoFsm_next {s : State} (ho : s.fsm.owner = some opInfo) (htypes : TableTypesValid s) :
    ∃ t, infoFsm s = .next t := by
  have hf : s.fsm = .iLookup := by
    cases hf : s.fsm <;> simp [hf, Fsm.owner, opProbe, opInfo, opRead, opWrite, opErase, opChipErase] at ho ⊢
  rw [infoFsm, hf]
  rcases infoLookup_cases s with ⟨_, h⟩ | ⟨e, d, _, _, h⟩ | ⟨e, he, hnone, _⟩
  · exact ⟨_, h⟩
  · exact ⟨_, h⟩
  · have hlt := htypes e (List.mem_of_getElem? he)
    simp [List.getElem?_eq_getElem hlt] at hnone

theorem owner_cases (f : Fsm) :
    f = .idle ∨ f = .done ∨ f.owner = some opProbe ∨ f.owner = some opInfo ∨ f.owner = some opRead ∨
      f.owner = some opWrite ∨ f.owner = some opErase ∨ f.owner = some opChipErase := by
  cases f <;> simp [Fsm.owner]

/-- R30: a busy controller in a state of its operation has a transition. -/
theorem advance_next {s : State} (hbusy : s.fsm ≠ .idle) (hop : OperationMatchesFsm s) (htypes : TableTypesValid s) :
    ∃ t, advance s = .next t := by
  obtain ⟨⟨i, hd⟩, howner⟩ := hop hbusy
  rcases owner_cases s.fsm with hi | hf | ho | ho | ho | ho | ho | ho
  · exact absurd hi hbusy
  · exact ⟨_, advance_of_done hf hd⟩
  · exact (probeFsm_next ho).imp fun _ h => (advance_of_probe (howner _ ho)).trans h
  · exact (infoFsm_next ho htypes).imp fun _ h => (advance_of_info (howner _ ho)).trans h
  · exact (readFsm_next ho).imp fun _ h => (advance_of_read (howner _ ho)).trans h
  · exact (writeFsm_next ho).imp fun _ h => (advance_of_write (howner _ ho)).trans h
  · exact (eraseFsm_next ho).imp fun _ h => (advance_of_erase (howner _ ho)).trans h
  · exact (chipEraseFsm_next ho).imp fun _ h => (advance_of_chipErase (howner _ ho)).trans h

theorem cycle_of_inv {s : State} (h : MachineInv s) :
    (∃ t, cycle s = .next t) ∨
      (cycle s = .refused .reservedOperation ∧ s.fsm = .idle ∧
        ∃ r rs, s.requests = r :: rs ∧ (r.req.op = 6 ∨ r.req.op = 7)) := by
  by_cases hi : s.fsm = .idle
  · rcases cycle_idle hi with ⟨_, e⟩ | ⟨r, rs, i, _, _, e⟩ | ⟨r, rs, hr, hop, e⟩
    exacts [.inl ⟨_, e⟩, .inl ⟨_, e⟩, .inr ⟨e, hi, r, rs, hr, hop⟩]
  · rw [cycle_busy hi]
    exact .inl (advance_next hi h.operation h.types)

/-- Settles O51: a reset always steps on, and a cycle does unless a reserved code is presented. -/
theorem invariantStatesStepOn : Obligations.InvariantStatesStepOn := by
  intro s h
  cases hp : s.resetPlan with
  | nil =>
    rw [StepsOn, step_of_nil hp]
    exact cycle_of_inv h
  | cons r rs =>
    cases r with
    | none =>
      rw [StepsOn, step_of_none hp]
      exact cycle_of_inv (h.withResetPlan rs)
    | some n => exact .inl ⟨_, step_of_reset hp⟩

/-! ### Addresses -/

theorem fsm_of_wireAt_pp {s : State} {a : WireAddr} {data : List Byte} (h : wireAt s = some (.pp a data)) :
    s.fsm = .wPp ∧ a = wireAddr s.cur ∧ data = chunkData s := by
  unfold wireAt at h
  cases hf : s.fsm <;> simp [hf] at h ⊢
  exact ⟨h.1.symm, h.2.symm⟩

theorem fsm_of_wireAt_sse {s : State} {a : WireAddr} (h : wireAt s = some (.sse a)) :
    s.fsm = .eSse ∧ a = wireAddr s.cur := by
  unfold wireAt at h
  cases hf : s.fsm <;> simp [hf] at h ⊢
  exact h.symm

theorem fsm_of_wireAt_rd {s : State} {a : WireAddr} {n : Nat} (h : wireAt s = some (.rd a n)) :
    s.fsm = .rFrame ∧ a = wireAddr s.addr.toNat ∧ n = s.len.toNat := by
  unfold wireAt at h
  cases hf : s.fsm <;> simp [hf] at h ⊢
  exact ⟨h.1.symm, h.2.symm⟩

/-- Settles O53: the two maps of the invariant, at the two states that emit an address of the loop. -/
theorem emittedAddressesFollowTheMaps : Obligations.EmittedAddressesFollowTheMaps := by
  intro s hinv
  constructor
  · intro a data h
    obtain ⟨hf, rfl, rfl⟩ := fsm_of_wireAt_pp h
    obtain ⟨j, ⟨hcur, hoff, _⟩, hlt, hk⟩ := hinv.chunks.2 (by simp [hf])
    exact ⟨j, hlt, by rw [hcur], by omega, by rw [chunkData, hostBytes_length, hk]⟩
  · intro a h
    obtain ⟨hf, rfl⟩ := fsm_of_wireAt_sse h
    obtain ⟨hend, j, hcur⟩ := hinv.subsectors.1 (by simp [hf])
    have hlt := hinv.subsectors.2 (by simp [hf])
    exact ⟨s.addr.toNat / 4096 + j, by rw [hcur], Nat.le_add_right _ _, by omega⟩

/-- Settles O58: INFO projects the entry's descriptor, whose size is the device's. -/
theorem infoReportsTheSizeOfTheChip : Obligations.InfoReportsTheSizeOfTheChip := by
  intro s h a n e d hinv hf hl he hd
  have hmem := List.mem_of_getElem? he
  obtain ⟨desc, hdesc⟩ : ∃ desc, s.cfg.registry[e.type]? = some desc :=
    ⟨_, List.getElem?_eq_getElem (hinv.types e hmem)⟩
  refine ⟨_, infoProjectsTheRegistryEntry s h a n e desc hf hl he hdesc, ?_, rfl⟩
  exact (hinv.chipSizes e hmem d desc hd hdesc).symm

/-! ### Ranges -/

theorem mem_programCells {a : Nat} {data : List Byte} {c : Host.Cell} :
    c ∈ RefDevice.programCells a data ↔
      ∃ i, ∃ h : i < data.length, c = (a / 256 * 256 + (a + i) % 256, data[i]) := by
  have hbase : pageBase a = a / 256 * 256 := by
    simp only [pageBase, Config.pageSize]
    omega
  simp only [RefDevice.programCells, List.mem_map, Prod.exists, List.mem_zipIdx_iff_getElem?, hbase, Config.pageSize]
  constructor
  · rintro ⟨b, i, hi, rfl⟩
    obtain ⟨h, rfl⟩ := List.getElem?_eq_some_iff.mp hi
    exact ⟨i, h, rfl⟩
  · rintro ⟨i, h, rfl⟩
    exact ⟨data[i], i, List.getElem?_eq_getElem h, rfl⟩

theorem forall_mem_programCells {a : Nat} {data : List Byte} {n : Nat} :
    (∀ c ∈ RefDevice.programCells a data, c.1 < n) ↔ ∀ i < data.length, a / 256 * 256 + (a + i) % 256 < n := by
  simp only [mem_programCells]
  constructor
  · exact fun h i hi => h _ ⟨i, hi, rfl⟩
  · rintro h _ ⟨i, hi, rfl⟩
    exact h i hi

theorem wireAddr_toNat {a : Nat} (h : a < 2 ^ 24) : (wireAddr a).toNat = a := by
  rw [wireAddr, BitVec.toNat_ofNat, Nat.mod_eq_of_lt h]

/-- R262: a wrapped cell lies at or below the address it would have without the wrap. -/
theorem wrapped_le (a i : Nat) : a / 256 * 256 + (a + i) % 256 ≤ a + i := by omega

/-- Settles O60: the claim at the handle check; and the range the invariant keeps covered, at the three frames that carry an
address. -/
theorem outOfRangeOperationsHaveNoDeviceSide : Obligations.OutOfRangeOperationsHaveNoDeviceSide := by
  constructor
  · intro s h a n e hw he p hp hf hl
    obtain ⟨hread, hwrite, herase, _⟩ := (handleIsCheckedFirst s h a n).2 e he
    obtain ⟨t, ht, hcs, henv⟩ : ∃ t, exec p.1 s = .next t ∧ t.csCur = e.cs ∧ t.env = s.env.claim e.cs a n := by
      simp only [List.mem_cons, List.not_mem_nil, or_false] at hp
      rcases hp with rfl | rfl | rfl
      exacts [⟨_, hread hf hl, rfl, rfl⟩, ⟨_, hwrite hf hl, rfl, rfl⟩, ⟨_, herase hf hl, rfl, rfl⟩]
    refine ⟨t, ht, hcs, fun c hc => henv ▸ Env.claim_other hw a n hc, fun d hd => ?_, fun hno => ?_⟩ <;> rw [henv] <;>
      rcases Env.claim_cases s.env e.cs a n with ⟨hsame, hcov⟩ | ⟨d0, hd0, hcov, hset⟩
    · refine ⟨fun _ => hsame, fun hout => ?_⟩
      have := (RefDevice.covers_iff d a n).mp (hcov d hd)
      omega
    · obtain rfl : d0 = d := Line.device.inj (hd0.symm.trans hd)
      refine ⟨fun hin => ?_, fun _ => ?_⟩
      · rw [(RefDevice.covers_iff d0 a n).mpr hin] at hcov
        cases hcov
      · rw [hset, Env.lineAt_setLine hw, if_pos rfl]
    · exact hsame
    · exact absurd hd0 (hno d0)
  · intro s d hinv hd
    have hrange (hline : s.fsm.lineChosen = true)
        (ho : s.fsm.owner ∈ [some opRead, some opWrite, some opErase]) :
        s.addr.toNat < 2 ^ 24 ∧ s.addr.toNat + s.len.toNat ≤ d.size ∧ d.size ≤ 2 ^ 24 :=
      (RefDevice.covers_iff d _ _).mp (hinv.range hline ho d hd)
    refine ⟨fun a n h => ?_, fun a data h => ?_, fun a h => ?_⟩
    · obtain ⟨hf, rfl, rfl⟩ := fsm_of_wireAt_rd h
      obtain ⟨h24, hle, _⟩ := hrange (by rw [hf]; rfl) (by simp [hf, Fsm.owner])
      rwa [wireAddr_toNat h24]
    · obtain ⟨hf, rfl, rfl⟩ := fsm_of_wireAt_pp h
      obtain ⟨_, hle, h24⟩ := hrange (by rw [hf]; rfl) (by simp [hf, Fsm.owner])
      obtain ⟨j, ⟨hcur, _, _⟩, hlt, hk⟩ := hinv.chunks.2 (by simp [hf])
      have hfits : s.cur + (chunkData s).length ≤ d.size := by
        rw [chunkData, hostBytes_length]
        omega
      rw [wireAddr_toNat (by omega)]
      refine ⟨hfits, forall_mem_programCells.mpr fun i hi => ?_⟩
      have := wrapped_le s.cur i
      omega
    · obtain ⟨hf, rfl⟩ := fsm_of_wireAt_sse h
      obtain ⟨_, hle, h24⟩ := hrange (by rw [hf]; rfl) (by simp [hf, Fsm.owner])
      obtain ⟨hend, _⟩ := hinv.subsectors.1 (by simp [hf])
      have hlt := hinv.subsectors.2 (by simp [hf])
      rw [wireAddr_toNat (by omega)]
      omega

end Sys2Proof.Machine
end

section
/-! ## Reset (R35, R320 to R322, U8) -/

namespace Sys2Proof.Machine

/-- A reset comes after some bus events, and leaves the host's side alone (R322). -/
theorem beforeReset_host (n : Nat) (s : State) :
    (beforeReset n s).requests = s.requests ∧ (beforeReset n s).resetPlan = s.resetPlan ∧
      ∃ es, (beforeReset n s).trace = s.trace ++ es := by
  rcases beforeReset_cases n s with h | h | h | ⟨m, w, _, _, h | h⟩ <;> rw [h] <;> simp [cutFrame_eq]

theorem cutFrame_other {s : State} (hw : s.env.wf) (m : Nat) (w : Instr) {c : Byte} (hc : c ≠ s.csCur) :
    (cutFrame m w s).env.lineAt c = s.env.lineAt c := by
  have hsel := Env.select_wf hw s.csCur
  rw [cutFrame_eq]
  exact (Env.cut_other (Env.transfers_wf hsel _ _ _) w hc).trans
    ((Env.transfers_other hsel _ hc _).trans (Env.select_other hw hc))

/-- R322: only the line of a frame cut short can change. -/
theorem beforeReset_env (n : Nat) (s : State) :
    (s.env.wf → ∀ c, c ≠ s.csCur → (beforeReset n s).env.lineAt c = s.env.lineAt c) ∧
      (wireAt s = none ∨ n = 0 → (beforeReset n s).env = s.env) := by
  rcases beforeReset_cases n s with h | h | h | ⟨m, w, rfl, hwire, h | h⟩ <;> rw [h]
  case inr.inr.inr.inl => exact ⟨fun hw c hc => cutFrame_other hw m w hc, by simp [hwire]⟩
  case inr.inr.inr.inr =>
    exact ⟨fun hw c hc => cutFrame_other (s := takeHost s.k.toNat s) hw m w hc, by simp [hwire]⟩
  all_goals exact ⟨fun _ _ _ => rfl, fun _ => rfl⟩

/-- Settles O46: `afterReset` keeps the devices and the host's side of the state the reset finds. -/
theorem resetInAnyState : Obligations.ResetInAnyState := by
  intro s n rs hp
  obtain ⟨hreq, hplan, htrace⟩ := beforeReset_host n { s with resetPlan := rs }
  obtain ⟨hother, hsame⟩ := beforeReset_env n { s with resetPlan := rs }
  refine ⟨_, step_of_reset hp, ?_, htrace, hother, fun hw => hsame (.inl hw), fun hn => hsame (.inr hn)⟩
  simp only [resetDuring, afterReset, beforeReset_cfg, hreq, hplan]

namespace RefDevice

/-- R252, R256: the device in a frame of which some exchanges were made. -/
theorem transfers_take {o : Opcodes} (ho : o.wf) {w : Instr} (hw : w.isHost = false) (hr : w ≠ .rdsr) (d : RefDevice)
    (n : Nat) :
    (transfers o ((outs (frameOf o w)).take n) { d with rx := [] }).2 =
      { d with rx := (outs (frameOf o w)).take n } := by
  have hn := opcodes_distinct ho
  rw [transfers_plain]
  · simp
  · simp
  · intro _ hhead
    cases n with
    | zero => simp at hhead
    | succ n => cases w <;> simp [Instr.isHost] at hw hr <;> simp [frameOf] at hhead <;> simp_all

/-- R252: a status read has done its one tick once its second exchange was made. -/
theorem transfers_take_rdsr (o : Opcodes) (dummy : Byte) (d : RefDevice) (n : Nat) :
    ∃ r, (transfers o ([o.rdsr, dummy].take n) { d with rx := [] }).2 = { (if n < 2 then d else d.tick) with rx := r } := by
  rcases n with _ | _ | n
  · exact ⟨[], rfl⟩
  · exact ⟨[o.rdsr], by simp [transfers, exchange]⟩
  · refine ⟨[o.rdsr, dummy], ?_⟩
    rw [List.take_of_length_le (by simp), transfers_rdsr, if_neg (by omega)]

/-- R322: a cut frame that the device would ignore, or that changes nothing, leaves it as it was. -/
theorem cutShort_ignored (d : RefDevice) (r : List Byte) (w : Instr) (free : Nat)
    (h : r = [] ∨ d.wip = true ∨ (changesLatch w = false ∧ (d.extent w = none ∨ d.wel = false))) :
    (({ d with rx := r } : RefDevice).cutShort w free).1 = .device { d with rx := [] } := by
  have hext : ({ d with rx := r } : RefDevice).extent w = d.extent w := by cases w <;> rfl
  rw [cutShort, hext]
  dsimp only
  by_cases hrx : r = [] ∨ d.wip = true
  · rw [if_pos hrx]
  · obtain ⟨hlatch, hkeep⟩ := (or_assoc.mpr h).resolve_left hrx
    simp only [if_neg hrx, hlatch, Bool.false_eq_true, if_false]
    rcases hkeep with hnone | hwel
    · rw [hnone]
    · cases d.extent w with
      | none => rfl
      | some p => simp only [hwel, if_true]

/-- U8: a cut WREN or WRDI leaves at most the latch open. -/
theorem cutShort_latch (d : RefDevice) (r : List Byte) {w : Instr} (hw : changesLatch w = true) (free : Nat) :
    ∃ b, (({ d with rx := r } : RefDevice).cutShort w free).1 = .device { d with wel := b, rx := [] } := by
  unfold cutShort
  dsimp only
  split_ifs
  exacts [⟨d.wel, rfl⟩, ⟨_, rfl⟩]

/-- U8: a cut program or erase inside the array leaves its own page, sub-sector or array open, the latch and the busy
flag. -/
theorem cutShort_program (d : RefDevice) (hm : d.mem.wf) (r : List Byte) {w : Instr} (free : Nat) {lo m n : Nat}
    (hlatch : changesLatch w = false) (hext : d.extent w = some (lo, n)) (hle : n ≤ m) (hin : d.inArray w = true) :
    ∃ d', (({ d with rx := r } : RefDevice).cutShort w free).1 = .device d' ∧ d'.size = d.size ∧ d'.id = d.id ∧
      d'.busyReads = d.busyReads ∧ d'.refusals = d.refusals ∧ d'.rx = [] ∧
      ∀ x, x < lo ∨ lo + m ≤ x → d'.mem.read x = d.mem.read x := by
  have hext' : ({ d with rx := r } : RefDevice).extent w = some (lo, n) := by rw [← hext]; cases w <;> rfl
  have hin' : ({ d with rx := r } : RefDevice).inArray w = true := by rw [← hin]; cases w <;> rfl
  unfold cutShort
  simp only [hlatch, hext', hin', if_true, Bool.false_eq_true, if_false]
  split_ifs
  · exact ⟨_, rfl, rfl, rfl, rfl, rfl, rfl, fun _ _ => rfl⟩
  · exact ⟨_, rfl, rfl, rfl, rfl, rfl, rfl, fun _ _ => rfl⟩
  · refine ⟨_, rfl, rfl, rfl, rfl, rfl, rfl, fun x hx => ?_⟩
    simp only [disturbed]
    rw [Memory.read_scramble hm, if_neg (by omega)]

theorem holdsCells_programCells {d : RefDevice} {a : Nat} {data : List Byte}
    (h : ∀ i < data.length, a / 256 * 256 + (a + i) % 256 < d.size) : d.holdsCells (programCells a data) = true := by
  simpa [holdsCells] using forall_mem_programCells.mpr h

theorem pageBase_eq (a : Nat) : pageBase a = a / 256 * 256 := by
  simp only [pageBase, Config.pageSize]
  omega

end RefDevice

/-- A reset that arrives in a state that emits a wire command cuts its frame short (R322). -/
theorem beforeReset_of_wireAt {s : State} {w : Instr} (hw : wireAt s = some w) (n : Nat) :
    beforeReset (n + 1) s = cutFrame n w s ∨ beforeReset (n + 1) s = cutFrame n w (takeHost s.k.toNat s) := by
  have hf : s.fsm ≠ .pInit := fun hf => by simp [wireAt, hf] at hw
  rw [beforeReset, if_neg hf, hw]
  split_ifs
  exacts [.inr rfl, .inl rfl]

/-- The device on the line of a frame cut short by reset. -/
theorem deviceAt_of_reset {s t : State} {n : Nat} {rs : List (Option Nat)} {w : Instr} {d : RefDevice}
    (hp : s.resetPlan = some (n + 1) :: rs) (hwire : wireAt s = some w) (hw : s.env.wf)
    (hd : s.env.lineAt s.csCur = .device d) (h : step s = .next t) :
    ∃ free, t.env.lineAt s.csCur =
      ((RefDevice.transfers s.cfg.opc ((outs (frameOf s.cfg.opc w)).take n) { d with rx := [] }).2.cutShort w free).1 := by
  obtain rfl := Host.Outcome.next.inj ((step_of_reset hp).symm.trans h)
  rcases beforeReset_of_wireAt (s := { s with resetPlan := rs }) hwire n with hb | hb <;>
    simp only [resetDuring, afterReset, hb]
  · exact cutFrame_device (s := { s with resetPlan := rs }) hw hd n w
  · exact cutFrame_device (s := takeHost s.k.toNat { s with resetPlan := rs }) hw hd n w

theorem deviceAt_of_lineAt {s : State} {c : Byte} {d : RefDevice} (h : s.env.lineAt c = .device d) :
    deviceAt s c = some d := by
  rw [deviceAt, h]

theorem isHost_of_wireAt {s : State} {w : Instr} (h : wireAt s = some w) : w.isHost = false := by
  unfold wireAt at h
  cases hf : s.fsm <;> simp [hf] at h <;> subst h <;> rfl

/-- Settles O57: the cut frame as the device sees it, by what the command does. -/
theorem resetLeavesTheDevices : Obligations.ResetLeavesTheDevices := by
  intro s t n rs w d hp hwire ho hw hd h
  obtain ⟨free, hline⟩ := deviceAt_of_reset hp hwire hw hd h
  have hhost := isHost_of_wireAt hwire
  have hplain (hr : w ≠ .rdsr) : t.env.lineAt s.csCur =
      (({ d with rx := (outs (frameOf s.cfg.opc w)).take n } : RefDevice).cutShort w free).1 := by
    rw [hline, RefDevice.transfers_take ho hhost hr]
  refine ⟨fun hcase => ?_, ?_, fun hlatch => ?_, fun lo m hcase => ?_⟩
  · apply deviceAt_of_lineAt
    by_cases hr : w = .rdsr
    · subst hr
      rcases hcase with rfl | h | ⟨_, _, h⟩ | ⟨_, h⟩ | ⟨_, h | ⟨_, h⟩ | ⟨_, _, h⟩⟩
      · rw [hline]
        exact RefDevice.cutShort_ignored d [] .rdsr free (.inl rfl)
      all_goals simp at h
    · rw [hplain hr]
      apply RefDevice.cutShort_ignored
      rcases hcase with rfl | rfl | ⟨_, _, rfl⟩ | ⟨hwip, _⟩ | ⟨hwel, rfl | ⟨_, rfl⟩ | ⟨_, _, rfl⟩⟩
      · exact .inl rfl
      · exact .inr (.inr ⟨rfl, .inl rfl⟩)
      · exact .inr (.inr ⟨rfl, .inl rfl⟩)
      · exact .inr (.inl hwip)
      all_goals exact .inr (.inr ⟨rfl, .inr hwel⟩)
  · rintro rfl
    obtain ⟨r, hr⟩ := RefDevice.transfers_take_rdsr s.cfg.opc s.cfg.opc.dummyTx d n
    apply deviceAt_of_lineAt
    rw [hline, frameOf, outs_formatS, hr]
    exact RefDevice.cutShort_ignored _ r .rdsr free (.inr (.inr ⟨rfl, .inl rfl⟩))
  · have hr : w ≠ .rdsr := by rcases hlatch with rfl | rfl <;> simp
    have hch : RefDevice.changesLatch w = true := by rcases hlatch with rfl | rfl <;> rfl
    obtain ⟨b, hb⟩ := RefDevice.cutShort_latch d ((outs (frameOf s.cfg.opc w)).take n) hch free
    exact ⟨b, deviceAt_of_lineAt ((hplain hr).trans hb)⟩
  · have hprogram {k : Nat} (hr : w ≠ .rdsr) (hch : RefDevice.changesLatch w = false)
        (hext : d.extent w = some (lo, k)) (hle : k ≤ m) (hin : d.inArray w = true) :
        ∃ d', deviceAt t s.csCur = some d' ∧ d'.size = d.size ∧ d'.id = d.id ∧ d'.busyReads = d.busyReads ∧
          d'.refusals = d.refusals ∧ d'.rx = [] ∧ ∀ x, x < lo ∨ lo + m ≤ x → d'.mem.read x = d.mem.read x := by
      obtain ⟨d', hd', hrest⟩ := RefDevice.cutShort_program d (Env.device_mem_wf hw hd)
        ((outs (frameOf s.cfg.opc w)).take n) free hch hext hle hin
      exact ⟨d', deviceAt_of_lineAt ((hplain hr).trans hd'), hrest⟩
    rcases hcase with ⟨a, data, rfl, rfl, rfl, hcells⟩ | ⟨a, rfl, rfl, rfl, hlt⟩ | ⟨rfl, rfl, rfl⟩
    · refine hprogram (by simp) rfl (k := min 256 (d.size - a.toNat / 256 * 256)) ?_ (Nat.min_le_left _ _)
        (RefDevice.holdsCells_programCells hcells)
      simp [RefDevice.extent, RefDevice.clip, RefDevice.pageBase_eq, Config.pageSize]
    · refine hprogram (by simp) rfl (k := min 4096 (d.size - a.toNat / 4096 * 4096)) ?_ (Nat.min_le_left _ _)
        (decide_eq_true hlt)
      simp [RefDevice.extent, RefDevice.clip, alignDown_eq, Config.subsectorSize]
    · exact hprogram (by simp) rfl rfl le_rfl rfl

end Sys2Proof.Machine
end

section
/-! ## The reset input does not matter to a step in which no reset arrives (R320) -/

namespace Sys2Proof.Machine

/-- The state with another reset input still to come; `withPlan` is the same of an outcome. -/
def setPlan (rs : List (Option Nat)) (s : State) : State := { s with resetPlan := rs }

theorem withPlan_next (rs : List (Option Nat)) (s : State) : withPlan rs (.next s) = .next (setPlan rs s) := rfl

theorem next_eq_withPlan {rs : List (Option Nat)} {u v : State} (h : u = setPlan rs v) :
    (Host.Outcome.next u : Outcome) = withPlan rs (.next v) := congrArg _ h

/-- A function of the state commutes with a change of the reset input. -/
abbrev IgnoresPlan (f : State → State) : Prop := ∀ rs s, f (setPlan rs s) = setPlan rs (f s)

theorem ignoresPlan_writeEnable (c : Byte) : IgnoresPlan (writeEnable c) := fun _ _ => by
  simp only [writeEnable, issueCommand_eq, setPlan]

theorem ignoresPlan_writeDisable (c : Byte) : IgnoresPlan (writeDisable c) := fun _ _ => by
  simp only [writeDisable, issueCommand_eq, setPlan]

theorem ignoresPlan_bulkErase (c : Byte) : IgnoresPlan (bulkErase c) := fun _ _ => by
  simp only [bulkErase, issueCommand_eq, setPlan]

theorem ignoresPlan_readStatus (c : Byte) : IgnoresPlan (readStatus c) := fun _ _ => by
  simp only [readStatus_eq, setPlan]

theorem ignoresPlan_readId (c : Byte) : IgnoresPlan (readId c) := fun _ _ => by
  simp only [readId_eq, setPlan]

theorem ignoresPlan_readData (c : Byte) (a : WireAddr) (n : Nat) : IgnoresPlan (readData c a n) := fun _ _ => by
  simp only [readData_eq, setPlan]

theorem ignoresPlan_pageProgram (c : Byte) (a : WireAddr) (data : List Byte) : IgnoresPlan (pageProgram c a data) :=
  fun _ _ => by simp only [pageProgram_eq, setPlan]

theorem ignoresPlan_subsectorErase (c : Byte) (a : WireAddr) : IgnoresPlan (subsectorErase c a) := fun _ _ => by
  simp only [subsectorErase_eq, setPlan]

theorem ignoresPlan_goto (f : Fsm) : IgnoresPlan (goto f) := fun _ _ => rfl

theorem ignoresPlan_returnOk : IgnoresPlan returnOk := fun _ _ => rfl

theorem ignoresPlan_validate {go : State → State} (hgo : IgnoresPlan go) : IgnoresPlan (validate go) := by
  intro rs s
  rcases validate_cases go s with ⟨e, he, h⟩ | ⟨hnone, h⟩ <;> rw [h]
  · exact (validate_of_bound (s := setPlan rs s) go he).trans (hgo rs (chooseLine e.cs s))
  · exact validate_of_unbound (s := setPlan rs s) go hnone

theorem ignoresPlan_verifyArmed (f : Fsm) : IgnoresPlan (verifyArmed f) := by
  intro rs s
  show (if statusWel s.stat then _ else _) = setPlan rs (if statusWel s.stat then _ else _)
  split_ifs <;> rfl

theorem ignoresPlan_pollTest {fin : State → State} (hfin : IgnoresPlan fin) (wait : Fsm) :
    IgnoresPlan (pollTest fin wait) := by
  intro rs s
  rcases pollTest_cases fin wait s with ⟨hw, h⟩ | ⟨hw, hlim, h⟩ | ⟨hw, hlim, h⟩ <;> rw [h]
  · exact (pollTest_of_ready (s := setPlan rs s) fin wait hw).trans (hfin rs s)
  · exact pollTest_of_limit (s := setPlan rs s) fin wait hw hlim
  · exact pollTest_of_busy (s := setPlan rs s) fin wait hw hlim

theorem ignoresPlan_resolve : IgnoresPlan resolve := by
  intro rs s
  rcases resolve_cases s with ⟨hid, h⟩ | ⟨hid, hlook, h⟩ | ⟨r, hid, hlook, ⟨hfull, h⟩ | ⟨hroom, h⟩⟩ <;> rw [h]
  · exact if_pos (c := (setPlan rs s).idbuf[0] = Config.idleByte) hid
  all_goals
    rw [resolve, if_neg (c := (setPlan rs s).idbuf[0] = Config.idleByte) hid]
  · rw [show lookup (setPlan rs s) (setPlan rs s).idbuf[0]
        (deviceId (setPlan rs s).idbuf[1] (setPlan rs s).idbuf[2]) = none from hlook]
    rfl
  · rw [show lookup (setPlan rs s) (setPlan rs s).idbuf[0]
        (deviceId (setPlan rs s).idbuf[1] (setPlan rs s).idbuf[2]) = some r from hlook]
    exact if_pos (c := (setPlan rs s).attCount = (setPlan rs s).cfg.maxChips) hfull
  · rw [show lookup (setPlan rs s) (setPlan rs s).idbuf[0]
        (deviceId (setPlan rs s).idbuf[1] (setPlan rs s).idbuf[2]) = some r from hlook]
    exact if_neg (c := (setPlan rs s).attCount = (setPlan rs s).cfg.maxChips) hroom

theorem ignoresPlan_infoUnbound : IgnoresPlan infoUnbound := by
  intro rs s
  rw [infoUnbound, infoUnbound, show (setPlan rs s).cfg = s.cfg from rfl]
  cases s.cfg.infoPolicy <;> rfl

theorem infoLookup_setPlan (rs : List (Option Nat)) (s : State) :
    infoLookup (setPlan rs s) = withPlan rs (infoLookup s) := by
  rw [infoLookup, infoLookup, show (setPlan rs s).att[(setPlan rs s).sel.toNat]? = s.att[s.sel.toNat]? from rfl]
  cases s.att[s.sel.toNat]? with
  | none => exact next_eq_withPlan (ignoresPlan_infoUnbound rs s)
  | some e =>
    dsimp only
    rw [show describe (setPlan rs s) e.type = describe s e.type from rfl]
    cases describe s e.type <;> rfl

theorem ignoresPlan_writeNext : IgnoresPlan writeNext := by
  intro rs s
  show (if s.rem = 0 then _ else _) = setPlan rs (if s.rem = 0 then _ else _)
  split_ifs <;> rfl

theorem ignoresPlan_eraseNext : IgnoresPlan eraseNext := by
  intro rs s
  show (if s.cur < s.endAddr then _ else _) = setPlan rs (if s.cur < s.endAddr then _ else _)
  split_ifs <;> rfl

/-- R30: the state machine of each operation, in the states that do more than set registers. -/
theorem probeFsm_setPlan (rs : List (Option Nat)) (s : State) : probeFsm (setPlan rs s) = withPlan rs (probeFsm s) := by
  rw [probeFsm, probeFsm, show (setPlan rs s).fsm = s.fsm from rfl]
  cases s.fsm
  case pId => exact next_eq_withPlan (congrArg (goto .pResolve) (ignoresPlan_readId s.csCur rs s))
  case pResolve => exact next_eq_withPlan (ignoresPlan_resolve rs s)
  all_goals rfl

theorem infoFsm_setPlan (rs : List (Option Nat)) (s : State) : infoFsm (setPlan rs s) = withPlan rs (infoFsm s) := by
  rw [infoFsm, infoFsm, show (setPlan rs s).fsm = s.fsm from rfl]
  cases s.fsm
  case iLookup => exact infoLookup_setPlan rs s
  all_goals rfl

theorem readFsm_setPlan (rs : List (Option Nat)) (s : State) : readFsm (setPlan rs s) = withPlan rs (readFsm s) := by
  rw [readFsm, readFsm, show (setPlan rs s).fsm = s.fsm from rfl]
  cases s.fsm
  case rCheck => exact next_eq_withPlan (ignoresPlan_validate (fun _ _ => rfl) rs s)
  case rFrame => exact next_eq_withPlan (congrArg returnOk (ignoresPlan_readData s.csCur _ _ rs s))
  all_goals rfl

theorem writeFsm_setPlan (rs : List (Option Nat)) (s : State) : writeFsm (setPlan rs s) = withPlan rs (writeFsm s) := by
  rw [writeFsm, writeFsm, show (setPlan rs s).fsm = s.fsm from rfl]
  cases s.fsm
  case wCheck => exact next_eq_withPlan (ignoresPlan_validate (fun _ _ => rfl) rs s)
  case wNext => exact next_eq_withPlan (ignoresPlan_writeNext rs s)
  case wWren => exact next_eq_withPlan (congrArg (goto .wVerify) (ignoresPlan_writeEnable s.csCur rs s))
  case wVerify =>
    exact next_eq_withPlan ((congrArg _ (ignoresPlan_readStatus s.csCur rs s)).trans (ignoresPlan_verifyArmed .wPp rs _))
  case wPp =>
    exact next_eq_withPlan (congrArg (goto .wWrdi)
      (ignoresPlan_pageProgram s.csCur (wireAddr s.cur) (chunkData s) rs (takeHost s.k.toNat s)))
  case wWrdi => exact next_eq_withPlan (congrArg (fun u => goto .wPoll (setPolls 0 u)) (ignoresPlan_writeDisable s.csCur rs s))
  case wPoll =>
    exact next_eq_withPlan ((congrArg _ (ignoresPlan_readStatus s.csCur rs s)).trans
      (ignoresPlan_pollTest (ignoresPlan_goto .wAdv) .wWait rs _))
  all_goals rfl

theorem eraseFsm_setPlan (rs : List (Option Nat)) (s : State) : eraseFsm (setPlan rs s) = withPlan rs (eraseFsm s) := by
  rw [eraseFsm, eraseFsm, show (setPlan rs s).fsm = s.fsm from rfl]
  cases s.fsm
  case eCheck => exact next_eq_withPlan (ignoresPlan_validate (fun _ _ => rfl) rs s)
  case eNext => exact next_eq_withPlan (ignoresPlan_eraseNext rs s)
  case eWren => exact next_eq_withPlan (congrArg (goto .eVerify) (ignoresPlan_writeEnable s.csCur rs s))
  case eVerify =>
    exact next_eq_withPlan ((congrArg _ (ignoresPlan_readStatus s.csCur rs s)).trans (ignoresPlan_verifyArmed .eSse rs _))
  case eSse =>
    exact next_eq_withPlan (congrArg (goto .eSettle) (ignoresPlan_subsectorErase s.csCur (wireAddr s.cur) rs s))
  case ePoll =>
    exact next_eq_withPlan ((congrArg _ (ignoresPlan_readStatus s.csCur rs s)).trans
      (ignoresPlan_pollTest (ignoresPlan_goto .eAdv) .eWait rs _))
  case eWrdi => exact next_eq_withPlan (congrArg returnOk (ignoresPlan_writeDisable s.csCur rs s))
  all_goals rfl

theorem chipEraseFsm_setPlan (rs : List (Option Nat)) (s : State) :
    chipEraseFsm (setPlan rs s) = withPlan rs (chipEraseFsm s) := by
  rw [chipEraseFsm, chipEraseFsm, show (setPlan rs s).fsm = s.fsm from rfl]
  cases s.fsm
  case cCheck => exact next_eq_withPlan (ignoresPlan_validate (ignoresPlan_goto .cWren) rs s)
  case cWren => exact next_eq_withPlan (congrArg (goto .cVerify) (ignoresPlan_writeEnable s.csCur rs s))
  case cVerify =>
    exact next_eq_withPlan ((congrArg _ (ignoresPlan_readStatus s.csCur rs s)).trans (ignoresPlan_verifyArmed .cBe rs _))
  case cBe => exact next_eq_withPlan (congrArg (fun u => goto .cPoll (setPolls 0 u)) (ignoresPlan_bulkErase s.csCur rs s))
  case cPoll =>
    exact next_eq_withPlan ((congrArg _ (ignoresPlan_readStatus s.csCur rs s)).trans
      (ignoresPlan_pollTest ignoresPlan_returnOk .cWait rs _))
  all_goals rfl

theorem advance_setPlan (rs : List (Option Nat)) (s : State) : advance (setPlan rs s) = withPlan rs (advance s) := by
  rw [advance, advance, show (setPlan rs s).op = s.op from rfl]
  split_ifs
  exacts [probeFsm_setPlan rs s, infoFsm_setPlan rs s, readFsm_setPlan rs s, writeFsm_setPlan rs s,
    eraseFsm_setPlan rs s, chipEraseFsm_setPlan rs s, rfl]

theorem cycle_setPlan (rs : List (Option Nat)) (s : State) : cycle (setPlan rs s) = withPlan rs (cycle s) := by
  by_cases hi : s.fsm = .idle
  · have hi' : (setPlan rs s).fsm = .idle := hi
    cases hr : s.requests with
    | nil => simp [cycle, fetch, hi, hi', hr, show (setPlan rs s).requests = [] from hr, withPlan_next]
    | cons r qs =>
      have hr' : (setPlan rs s).requests = r :: qs := hr
      cases hd : decodeRequest r.req with
      | ok i =>
        rw [cycle_accept hi hr hd, cycle_accept hi' hr' hd,
          exec_of_idle (s := { setPlan rs s with requests := qs, wdata := r.data }) hd hi,
          exec_of_idle (s := { s with requests := qs, wdata := r.data }) hd hi]
        rfl
      | error e => simp [cycle, fetch, hi, hi', hr, hr', hd, withPlan]
  · rw [cycle_busy hi, cycle_busy (s := setPlan rs s) hi, advance_setPlan]

/-- Settles O56: both steps are cycles of states that differ in the reset input. -/
theorem stepsWithoutResetIgnoreThePlan : Obligations.StepsWithoutResetIgnoreThePlan := by
  intro s rs hp
  rw [step_of_none hp, step_of_nil rfl]
  exact cycle_setPlan rs { s with resetPlan := [] }

end Sys2Proof.Machine
end

section
/-! ## The reference device, command by command (R252 to R259) -/

namespace Sys2Proof.Machine

namespace RefDevice

theorem tick_of_idle {d : RefDevice} (h : d.wip = false) : d.tick = d := by
  simp [tick, h]

theorem tick_of_busy {d : RefDevice} (h : d.wip = true) (hb : d.busyLeft ≠ 0) :
    d.tick = { d with busyLeft := d.busyLeft - 1 } := by
  simp [tick, h, hb]

theorem tick_of_last {d : RefDevice} (h : d.wip = true) (hb : d.busyLeft = 0) : d.tick = d.complete := by
  simp [tick, h, hb]

/-- R255: the bytes a device answers to RD after the opcode and the address. -/
theorem transfers_read {o : Opcodes} (ho : o.wf) {d : RefDevice} (h : d.wip = false) (a : WireAddr) (n : Nat) :
    (transfers o (outs (formatAR o.read a n o.dummyTx)) { d with rx := [] }).1.drop 4 =
      (List.range n).map fun i => d.mem.read ((a.toNat + i) % d.size) := by
  have ht := transfers_command ho (.rd a n) rfl (by simp) d
  have hanswer (i : Nat) (hi : i < n) :
      ({ d with rx := (outs (formatAR o.read a n o.dummyTx)).take (4 + i) } : RefDevice).answer o =
        d.mem.read ((a.toNat + i) % d.size) := by
    have htake : (outs (formatAR o.read a n o.dummyTx)).take (4 + i) =
        o.read :: (addrBytes a ++ List.replicate i o.dummyTx) := by
      rw [outs_formatAR, show 4 + i = (3 + i) + 1 by omega, List.take_succ_cons,
        ← addrBytes_length a, List.take_length_add_append, List.take_replicate, Nat.min_eq_left hi.le]
    rw [htake, answer_read ho d h, List.length_replicate]
  rw [show formatAR o.read a n o.dummyTx = frameOf o (.rd a n) from rfl, ht]
  refine List.ext_getElem (by simp [frameOf]) fun i hi _ => ?_
  have hi : i < n := by simpa [frameOf] using hi
  simpa [frameOf] using hanswer i hi

/-- R253: the bytes a device answers to RDID after the opcode. -/
theorem transfers_rdid {o : Opcodes} (ho : o.wf) {d : RefDevice} (h : d.wip = false) {i : Nat} (hi : i < 20) :
    (transfers o (outs (formatI o.rdid o.dummyTx)) { d with rx := [] }).1.getD (i + 1) 0 = d.id[i] := by
  have ht := transfers_command ho .rdid rfl (by simp) d
  have htake : (outs (formatI o.rdid o.dummyTx)).take (i + 1) = o.rdid :: List.replicate i o.dummyTx := by
    rw [outs_formatI, List.take_succ_cons, List.take_replicate, Nat.min_eq_left hi.le]
  have hanswer := answer_rdid ho d h (List.replicate i o.dummyTx) (by simpa using hi)
  rw [show formatI o.rdid o.dummyTx = frameOf o .rdid from rfl, ht, List.getD_eq_getElem _ _ (by simp [frameOf]; omega),
    List.getElem_map, List.getElem_range, frameOf, htake, hanswer]
  simp

end RefDevice

/-- R251: what a wire command that is no status read leaves on a line with a device. -/
theorem lineAt_of_exec {s t : State} {w : Instr} {d x : RefDevice} (ho : s.cfg.opc.wf) (he : s.env.wf)
    (hl : s.env.lineAt s.csCur = .device d) (hw : w.isHost = false) (hr : w ≠ .rdsr) (h : exec w s = .next t)
    (hx : ({ d with rx := outs (frameOf s.cfg.opc w) } : RefDevice).atDeselect s.cfg.opc = .device x) :
    t.env.lineAt s.csCur = .device x := by
  obtain ⟨-, henv, -⟩ := exec_wire_next hw h
  rw [henv, (Env.frame_device _ _ _ _ _ he hl).2, RefDevice.transfers_command ho w hw hr, hx]

/-- R252: what a status read shows of a device and leaves of it. -/
theorem readStatus_device {s : State} {d : RefDevice} (ho : s.cfg.opc.wf) (he : s.env.wf)
    (hl : s.env.lineAt s.csCur = .device d) :
    (readStatus s.csCur s).stat = d.tick.status ∧
      (readStatus s.csCur s).env.lineAt s.csCur = .device { d.tick with rx := [] } := by
  obtain ⟨hin, hafter⟩ := Env.frame_device s.cfg.opc s.csCur [s.cfg.opc.rdsr, s.cfg.opc.dummyTx] _ _ he hl
  rw [RefDevice.transfers_rdsr] at hin hafter
  rw [readStatus_eq]
  refine ⟨?_, hafter.trans (RefDevice.atDeselect_rdsr ho d.tick s.cfg.opc.dummyTx)⟩
  simp only [hin, List.getD_cons_succ, List.getD_cons_zero]

theorem readId_device {s : State} {d : RefDevice} (ho : s.cfg.opc.wf) (he : s.env.wf)
    (hl : s.env.lineAt s.csCur = .device d) (hd : d.wip = false) : (readId s.csCur s).idbuf = d.id := by
  rw [readId_eq, (Env.frame_device _ _ _ _ _ he hl).1]
  refine Vector.ext fun i hi => ?_
  rw [Vector.getElem_ofFn]
  exact RefDevice.transfers_rdid ho hd hi

theorem readData_device {s : State} {d : RefDevice} (ho : s.cfg.opc.wf) (he : s.env.wf)
    (hl : s.env.lineAt s.csCur = .device d) (hd : d.wip = false) (a : WireAddr) (n : Nat) :
    (readData s.csCur a n s).rdata =
      s.rdata ++ (List.range n).map fun i => d.mem.read ((a.toNat + i) % d.size) := by
  rw [readData_eq, (Env.frame_device _ _ _ _ _ he hl).1]
  exact congrArg _ (RefDevice.transfers_read ho hd a n)

/-- Settles O40: what the device does at the end of each command's frame, and what it answered to those that keep bytes. -/
theorem idleDeviceFollowsItsCommands : Obligations.IdleDeviceFollowsItsCommands := by
  intro s d ho he hl hd
  have hafter {w : Instr} {x : RefDevice} (hw : w.isHost = false) (hr : w ≠ .rdsr)
      (hx : ({ d with rx := outs (frameOf s.cfg.opc w) } : RefDevice).atDeselect s.cfg.opc = .device x) :
      ∃ t, exec w s = .next t ∧ deviceAt t s.csCur = some x := by
    obtain ⟨t, ht, -⟩ := exec_wire_eq (s := s) hw
    exact ⟨t, ht, deviceAt_of_lineAt (lineAt_of_exec ho he hl hw hr ht hx)⟩
  have hwren {x : RefDevice} (hx : ({ d with rx := [] } : RefDevice).armed = x) :
      ∃ t, exec .wren s = .next t ∧ deviceAt t s.csCur = some x :=
    hafter rfl (by simp) (hx ▸ RefDevice.atDeselect_wren _ d hd)
  refine ⟨fun hr => hwren ?_, fun rs hr => hwren ?_, fun rs hr => hwren ?_, ?_, ?_, ?_, ?_, ?_, ?_, ?_, ?_⟩
  · simp [RefDevice.armed, hr]
  · simp [RefDevice.armed, hr]
  · simp [RefDevice.armed, hr]
  · exact hafter rfl (by simp) (RefDevice.atDeselect_wrdi ho d hd)
  · obtain ⟨hstat, hline⟩ := readStatus_device ho he hl
    rw [RefDevice.tick_of_idle hd] at hstat hline
    obtain ⟨hwip, hwel⟩ := d.status_bits
    exact ⟨_, exec_rdsr s, deviceAt_of_lineAt hline, by rw [hstat, hwip, hd], by rw [hstat, hwel]⟩
  · exact ⟨_, exec_rdid s, deviceAt_of_lineAt (lineAt_of_exec ho he hl rfl (by simp) (exec_rdid s)
      (RefDevice.atDeselect_ignored ho d hd _ _ (.inl (.inl rfl)))), readId_device ho he hl hd⟩
  · intro a n
    exact ⟨_, exec_rd a n s, deviceAt_of_lineAt (lineAt_of_exec ho he hl rfl (by simp) (exec_rd a n s)
      (RefDevice.atDeselect_ignored ho d hd _ _ (.inl (.inr rfl)))), readData_device ho he hl hd a n⟩
  · intro a data hwel hcells
    exact hafter rfl (by simp) (outs_formatAW _ a data ▸
      RefDevice.atDeselect_pp ho d hd hwel a data (forall_mem_programCells.mpr hcells))
  · intro a hwel ha
    have := RefDevice.atDeselect_sse ho d hd hwel a ha
    rw [alignDown_eq] at this
    exact hafter rfl (by simp) this
  · exact fun hwel => hafter rfl (by simp) (RefDevice.atDeselect_be ho d hd hwel)
  · rintro hwel w (rfl | ⟨a, rfl⟩ | ⟨a, data, rfl⟩)
    · exact hafter rfl (by simp) (RefDevice.atDeselect_ignored ho d hd _ _ (.inr ⟨hwel, .inr (.inr rfl)⟩))
    · exact hafter rfl (by simp) (RefDevice.atDeselect_ignored ho d hd _ _ (.inr ⟨hwel, .inr (.inl rfl)⟩))
    · exact hafter rfl (by simp) (RefDevice.atDeselect_ignored ho d hd _ _ (.inr ⟨hwel, .inl rfl⟩))

/-- Settles O41: a busy device ticks at a status read and ignores every other frame. -/
theorem busyDeviceIgnoresAllButStatusReads : Obligations.BusyDeviceIgnoresAllButStatusReads := by
  intro s d ho he hl hd
  obtain ⟨hstat, hline⟩ := readStatus_device ho he hl
  obtain ⟨hwip, hwel⟩ := d.tick.status_bits
  rw [← hstat] at hwip hwel
  refine ⟨fun hb => ?_, fun hb => ?_, fun w hw hr => ?_⟩
  · rw [RefDevice.tick_of_busy hd hb] at hwip hline
    exact ⟨_, exec_rdsr s, hwip.trans hd, deviceAt_of_lineAt hline⟩
  · rw [RefDevice.tick_of_last hd hb] at hwip hwel hline
    exact ⟨_, exec_rdsr s, hwip, hwel, deviceAt_of_lineAt hline⟩
  · obtain ⟨t, ht, -⟩ := exec_wire_eq (s := s) hw
    exact ⟨t, ht, deviceAt_of_lineAt (lineAt_of_exec ho he hl hw hr ht (RefDevice.atDeselect_busy _ _ hd))⟩

end Sys2Proof.Machine
end

section
/-! ## The pseudocode and the state machine (R30, D34) -/

namespace Sys2Proof.Machine

/-! ### Runs of a busy sequencer -/

/-- The operation `o` is in progress, and no reset is to come. -/
def InProgress (o : BitVec 3) (s : State) : Prop := s.op = o ∧ s.resetPlan = []

/-- A sequencer state in the middle of an operation. -/
abbrev Fsm.Running (f : Fsm) : Prop := f ≠ .idle ∧ f ≠ .done

/-- The machine gets from `s` to `t` in `k` steps, every one of which starts in the middle of an operation. -/
inductive Path : Nat → State → State → Prop
  | refl (s : State) : Path 0 s s
  | head {k : Nat} {s t u : State} : s.fsm.Running → step s = .next t → Path k t u → Path (k + 1) s u

/-- The machine does not come to `DONE` within `n` steps. -/
def Stays (n : Nat) (s : State) : Prop := ∀ j ≤ n, ∀ t, Host.Core.run core j s = .next t → t.fsm ≠ .done

theorem run_succ {s t : State} (h : step s = .next t) (k : Nat) :
    Host.Core.run core (k + 1) s = Host.Core.run core k t := by
  have hs : core.step s = .next t := h
  simp only [Host.Core.run, hs]

theorem exists_step_of_run_succ {s t : State} {k : Nat} (h : Host.Core.run core (k + 1) s = .next t) :
    ∃ u, step s = .next u ∧ Host.Core.run core k u = .next t := by
  have hcore : core.step s = step s := rfl
  cases hs : step s with
  | next u => exact ⟨u, rfl, (run_succ hs k).symm.trans h⟩
  | fault r => simp [Host.Core.run, hcore, hs] at h
  | refused r => simp [Host.Core.run, hcore, hs] at h

theorem Path.run {k : Nat} {s t : State} (h : Path k s t) : Host.Core.run core k s = .next t := by
  induction h with
  | refl s => rfl
  | head _ hstep _ ih => rw [run_succ hstep, ih]

theorem Path.stays {k n : Nat} {s t : State} (h : Path k s t) (ht : Stays n t) : Stays (k + n) s := by
  induction h with
  | refl s => simpa using ht
  | head hrun hstep _ ih =>
    intro j hj u hu
    cases j with
    | zero => exact Host.Outcome.next.inj hu ▸ hrun.2
    | succ j => exact ih ht j (by omega) u (run_succ hstep j ▸ hu)

theorem stays_zero {s : State} (h : s.fsm ≠ .done) : Stays 0 s := by
  intro j hj t ht
  obtain rfl := Nat.le_zero.mp hj
  exact Host.Outcome.next.inj ht ▸ h

theorem Stays.mono {n m : Nat} {s : State} (h : Stays n s) (hm : m ≤ n) : Stays m s :=
  fun j hj => h j (hj.trans hm)

theorem Path.not_done {k j : Nat} {s t u : State} (h : Path k s t) (hj : j < k) (hu : Host.Core.run core j s = .next u) :
    u.fsm ≠ .done := by
  induction h generalizing j with
  | refl s => omega
  | head hrun hstep _ ih =>
    cases j with
    | zero => exact Host.Outcome.next.inj hu ▸ hrun.2
    | succ j => exact ih (by omega) (run_succ hstep j ▸ hu)

theorem Path.inProgress {k : Nat} {s t : State} {o : BitVec 3} (h : Path k s t) (hs : InProgress o s) : InProgress o t := by
  induction h with
  | refl s => exact hs
  | head hrun hstep _ ih =>
    rcases step_next_cases hs.2 hstep with ⟨hi, -⟩ | ⟨_, _, _, hi, -⟩ | ⟨-, hmove⟩
    · exact absurd hi hrun.1
    · exact absurd hi hrun.1
    · obtain ⟨-, hop, -, -, -, -, hplan⟩ := hmove.keeps
      exact ih ⟨hop.trans hs.1, hplan.trans hs.2⟩

/-! ### Where a piece of pseudocode leads the machine -/

/-- From `s` the machine follows the pseudocode that ends in this way: it comes, not through `DONE`, to `fin u` where the
pseudocode goes on with `u`, to the raised error where it raises one, and not within `n` steps to `DONE` where the
fuel runs out. -/
inductive Leads (n : Nat) (fin : State → State) (s : State) : Flow → Prop
  | ok {k : Nat} {u : State} : Path k s (fin u) → Leads n fin s (.ok u)
  | raised {k : Nat} {e : ResultCode} {u : State} : Path k s (raise e u) → Leads n fin s (.raised e u)
  | unfinished : Stays n s → Leads n fin s .unfinished

theorem Leads.mono {n m : Nat} {fin : State → State} {s : State} {a : Flow} (h : Leads n fin s a) (hm : m ≤ n) :
    Leads m fin s a := by
  cases h with
  | ok hp => exact .ok hp
  | raised hp => exact .raised hp
  | unfinished hs => exact .unfinished (hs.mono hm)

theorem Leads.of_step_succ {n : Nat} {fin : State → State} {s t : State} {a : Flow} (hs : s.fsm.Running)
    (hstep : step s = .next t) (h : Leads n fin t a) : Leads (n + 1) fin s a := by
  cases h with
  | ok hp => exact .ok (.head hs hstep hp)
  | raised hp => exact .raised (.head hs hstep hp)
  | unfinished ht => exact .unfinished (Nat.add_comm 1 n ▸ (Path.head hs hstep (.refl t)).stays ht)

theorem Leads.of_step {n : Nat} {fin : State → State} {s t : State} {a : Flow} (hs : s.fsm.Running)
    (hstep : step s = .next t) (h : Leads n fin t a) : Leads n fin s a :=
  (Leads.of_step_succ hs hstep h).mono (Nat.le_succ n)

theorem Leads.of_goto {n : Nat} {fin : State → State} {f : Fsm} {s t : State} {a : Flow} (hf : f.Running)
    (hstep : step (goto f s) = .next t) (h : Leads n fin t a) : Leads n fin (goto f s) a :=
  h.of_step hf hstep

theorem Leads.of_path {n k : Nat} {fin : State → State} {s t : State} {a : Flow} (hp : Path k s t)
    (h : Leads n fin t a) : Leads n fin s a := by
  induction hp with
  | refl s => exact h
  | head hs hstep _ ih => exact (ih h).of_step hs hstep

theorem Leads.andThen {n : Nat} {mid fin : State → State} {s : State} {o : BitVec 3} {a : Flow} {f : State → Flow}
    (h : Leads n mid s a) (hs : InProgress o s) (hf : ∀ u, InProgress o (mid u) → Leads n fin (mid u) (f u)) :
    Leads n fin s (a.andThen f) := by
  cases h with
  | ok hp => exact (hf _ (hp.inProgress hs)).of_path hp
  | raised hp => exact .raised hp
  | unfinished ht => exact .unfinished ht

/-! ### VALIDATE, ARM and POLL_WIP -/

theorem verifyArmed_goto (f g : Fsm) (s : State) : verifyArmed f (goto g s) = verifyArmed f s := rfl

theorem returnOk_goto (f : Fsm) (s : State) : returnOk (goto f s) = returnOk s := rfl

theorem pollTest_goto {fin : State → State} (hfin : ∀ f s, fin (goto f s) = fin s) (wait f : Fsm) (s : State) :
    pollTest fin wait (goto f s) = pollTest fin wait s := by
  have h : fin (goto f s) = fin s := hfin f s
  simp only [pollTest, h]
  rfl

theorem leads_validateHandle {n : Nat} {go : State → State} {s : State} (hs : s.fsm.Running)
    (hstep : step s = .next (validate go s)) : Leads n go s (validateHandle s) := by
  rw [validateHandle]
  cases he : s.att[s.sel.toNat]? with
  | some e => exact .ok (.head hs (hstep.trans (congrArg _ (validate_of_bound go he))) (.refl _))
  | none => exact .raised (.head hs (hstep.trans (congrArg _ (validate_of_unbound go he))) (.refl _))

/-- ARM is WREN's state and the verify state after it (R146). -/
theorem leads_arm {n : Nat} {wren verify next : Fsm} {s : State} (hw : wren.Running) (hv : verify.Running)
    (hwren : step (goto wren s) = .next (goto verify (writeEnable s.csCur s)))
    (hverify : step (goto verify (writeEnable s.csCur s)) =
      .next (verifyArmed next (readStatus s.csCur (writeEnable s.csCur s)))) :
    Leads n (goto next) (goto wren s) (arm s.csCur s) := by
  refine .of_step hw hwren (.of_step hv hverify ?_)
  rw [verifyArmed]
  dsimp only [arm]
  split_ifs with hwel
  exacts [.ok (.refl _), .raised (.refl _)]

/-- R30: poll state and wait state of the loop of WRITE, ERASE or CHIP_ERASE, in the steps of the machine. -/
structure PollsAt (o : BitVec 3) (poll wait : Fsm) (fin : State → State) (d : Wait) : Prop where
  poll_running : poll.Running
  wait_running : wait.Running
  owner : poll.owner = some o
  step_poll : ∀ s, InProgress o s → s.fsm = poll → step s = .next (pollTest fin wait (readStatus s.csCur s))
  step_wait : ∀ s, InProgress o s → s.fsm = wait → step s = .next (goto poll (delay d s))

theorem pollsAt_write : PollsAt opWrite .wPoll .wWait (goto .wAdv) .pollWrite where
  poll_running := by decide
  wait_running := by decide
  owner := rfl
  step_poll s hs hf := by rw [step_of_busy hs.2 (by simp [hf]), advance_of_write hs.1, writeFsm, hf]
  step_wait s hs hf := by rw [step_of_busy hs.2 (by simp [hf]), advance_of_write hs.1, writeFsm, hf]

theorem pollsAt_erase : PollsAt opErase .ePoll .eWait (goto .eAdv) .pollErase where
  poll_running := by decide
  wait_running := by decide
  owner := rfl
  step_poll s hs hf := by rw [step_of_busy hs.2 (by simp [hf]), advance_of_erase hs.1, eraseFsm, hf]
  step_wait s hs hf := by rw [step_of_busy hs.2 (by simp [hf]), advance_of_erase hs.1, eraseFsm, hf]

theorem pollsAt_chipErase : PollsAt opChipErase .cPoll .cWait returnOk .pollChipErase where
  poll_running := by decide
  wait_running := by decide
  owner := rfl
  step_poll s hs hf := by rw [step_of_busy hs.2 (by simp [hf]), advance_of_chipErase hs.1, chipEraseFsm, hf]
  step_wait s hs hf := by rw [step_of_busy hs.2 (by simp [hf]), advance_of_chipErase hs.1, chipEraseFsm, hf]

/-- POLL_WIP is the poll state and the wait state (R147). -/
theorem PollsAt.leads_pollLoop {poll wait : Fsm} {fin : State → State} {o : BitVec 3} {d : Wait}
    (h : PollsAt o poll wait fin d) (hfin : ∀ f s, fin (goto f s) = fin s) (fuel : Nat) {s : State} {c : Byte}
    (hs : InProgress o s) (hc : s.csCur = c) : Leads fuel fin (goto poll s) (pollLoop c d fuel s) := by
  induction fuel generalizing s with
  | zero => exact .unfinished (stays_zero h.poll_running.2)
  | succ fuel ih =>
    have hr : InProgress o (readStatus c s) := by simpa [InProgress] using hs
    have hpoll : step (goto poll s) = .next (pollTest fin wait (readStatus c s)) := by
      have hstep := h.step_poll (goto poll s) hs rfl
      rwa [goto_csCur, hc, readStatus_goto, pollTest_goto hfin] at hstep
    refine .of_step_succ h.poll_running hpoll ?_
    dsimp only [pollLoop, pollTest, setPolls]
    split_ifs with hwip hlim
    · exact .raised (.refl _)
    · have hwait := h.step_wait (goto wait (setPolls ((readStatus c s).polls + 1) (readStatus c s))) hr rfl
      exact .of_step h.wait_running hwait
        (ih (s := delay d (setPolls ((readStatus c s).polls + 1) (readStatus c s))) hr (by simpa using hc))
    · exact .ok (.refl _)

theorem PollsAt.leads_pollWip {poll wait : Fsm} {fin : State → State} {o : BitVec 3} {d : Wait}
    (h : PollsAt o poll wait fin d) (hfin : ∀ f s, fin (goto f s) = fin s) (fuel : Nat) {s : State} {c : Byte}
    (hs : InProgress o s) (hc : s.csCur = c) : Leads fuel fin (goto poll (setPolls 0 s)) (pollWip fuel c d s) :=
  h.leads_pollLoop hfin fuel (s := setPolls 0 s) hs hc

/-! ### The operations -/

theorem step_goto_write {s : State} {f : Fsm} (h : InProgress opWrite s) (hf : f ≠ .idle) :
    step (goto f s) = writeFsm (goto f s) :=
  (step_goto h.2 hf).trans (advance_of_write h.1)

theorem step_goto_erase {s : State} {f : Fsm} (h : InProgress opErase s) (hf : f ≠ .idle) :
    step (goto f s) = eraseFsm (goto f s) :=
  (step_goto h.2 hf).trans (advance_of_erase h.1)

theorem step_goto_chipErase {s : State} {f : Fsm} (h : InProgress opChipErase s) (hf : f ≠ .idle) :
    step (goto f s) = chipEraseFsm (goto f s) :=
  (step_goto h.2 hf).trans (advance_of_chipErase h.1)

theorem InProgress.writeEnable {o : BitVec 3} {s : State} (h : InProgress o s) (c : Byte) :
    InProgress o (writeEnable c s) := by simpa [InProgress] using h

theorem InProgress.writeDisable {o : BitVec 3} {s : State} (h : InProgress o s) (c : Byte) :
    InProgress o (writeDisable c s) := by simpa [InProgress] using h

theorem InProgress.pageProgram {o : BitVec 3} {s : State} (h : InProgress o s) (c : Byte) (a : WireAddr)
    (data : List Byte) : InProgress o (pageProgram c a data s) := by simpa [InProgress] using h

theorem InProgress.subsectorErase {o : BitVec 3} {s : State} (h : InProgress o s) (c : Byte) (a : WireAddr) :
    InProgress o (subsectorErase c a s) := by simpa [InProgress] using h

theorem InProgress.bulkErase {o : BitVec 3} {s : State} (h : InProgress o s) (c : Byte) :
    InProgress o (bulkErase c s) := by simpa [InProgress] using h

theorem writeProgram_goto (f : Fsm) (s : State) : writeProgram (goto f s) = writeProgram s :=
  (congrArg (goto .wWrdi) (pageProgram_goto f s.csCur (wireAddr s.cur) (chunkData s) (takeHost s.k.toNat s))).trans rfl

theorem writeDisarm_goto (f : Fsm) (s : State) : writeDisarm (goto f s) = writeDisarm s :=
  (congrArg (fun u => goto .wPoll (setPolls 0 u)) (writeDisable_goto f s.csCur s)).trans rfl

theorem chipEraseStart_goto (f : Fsm) (s : State) : chipEraseStart (goto f s) = chipEraseStart s :=
  (congrArg (fun u => goto .cPoll (setPolls 0 u)) (bulkErase_goto f s.csCur s)).trans rfl

theorem leads_arm_write {n : Nat} {s : State} (hs : InProgress opWrite s) :
    Leads n (goto .wPp) (goto .wWren s) (arm s.csCur s) := by
  refine leads_arm (verify := .wVerify) (by decide) (by decide) ?_ ?_
  · exact (step_goto_write hs (by decide)).trans (by simp [writeFsm])
  · exact (step_goto_write (hs.writeEnable _) (by decide)).trans (by simp [writeFsm, verifyArmed_goto])

theorem leads_arm_erase {n : Nat} {s : State} (hs : InProgress opErase s) :
    Leads n (goto .eSse) (goto .eWren s) (arm s.csCur s) := by
  refine leads_arm (verify := .eVerify) (by decide) (by decide) ?_ ?_
  · exact (step_goto_erase hs (by decide)).trans (by simp [eraseFsm])
  · exact (step_goto_erase (hs.writeEnable _) (by decide)).trans (by simp [eraseFsm, verifyArmed_goto])

theorem leads_arm_chipErase {n : Nat} {s : State} (hs : InProgress opChipErase s) :
    Leads n (goto .cBe) (goto .cWren s) (arm s.csCur s) := by
  refine leads_arm (verify := .cVerify) (by decide) (by decide) ?_ ?_
  · exact (step_goto_chipErase hs (by decide)).trans (by simp [chipEraseFsm])
  · exact (step_goto_chipErase (hs.writeEnable _) (by decide)).trans (by simp [chipEraseFsm, verifyArmed_goto])

theorem leads_disarm_write (fuel : Nat) {s : State} (hs : InProgress opWrite s) :
    Leads fuel (goto .wAdv) (goto .wWrdi s) (pollWip fuel s.csCur .pollWrite (writeDisable s.csCur s)) :=
  .of_goto (by decide) ((step_goto_write hs (by decide)).trans (congrArg _ (writeDisarm_goto .wWrdi s)))
    (pollsAt_write.leads_pollWip (fun _ _ => rfl) fuel (hs.writeDisable _) (by simp))

/-- One pass of WRITE's loop is one round of the states from `W_NEXT` to `W_ADV` (R191, R196). -/
theorem leads_writeLoop (pollFuel : Nat) {fuel : Nat} (hfuel : fuel ≤ pollFuel) {s : State} (hs : InProgress opWrite s) :
    Leads fuel returnOk (goto .wNext s) (writeLoop pollFuel fuel s) := by
  induction fuel generalizing s with
  | zero => exact .unfinished <| stays_zero (by simp)
  | succ fuel ih =>
    have hnext : step (goto .wNext s) = .next (writeNext s) := step_goto_write hs (by decide)
    rw [writeNext] at hnext
    dsimp only [writeLoop]
    split_ifs at hnext ⊢ with hr
    · exact .of_goto (by decide) hnext (.ok (.refl _))
    refine .of_goto (by decide) hnext ((leads_arm_write (s := measureChunk s) hs).andThen (o := opWrite) hs fun u hu => ?_)
    have hpp : InProgress opWrite (pageProgram u.csCur (wireAddr u.cur) (chunkData u) (takeHost u.k.toNat u)) :=
      InProgress.pageProgram (s := takeHost u.k.toNat u) hu _ _ _
    have hprogram : step (goto .wPp u) = .next (writeProgram u) :=
      (step_goto_write hu (by decide)).trans (congrArg _ (writeProgram_goto .wPp u))
    refine .of_goto (by decide) hprogram
      (((leads_disarm_write pollFuel hpp).mono hfuel).andThen (o := opWrite) hpp fun v hv => ?_)
    exact .of_step_succ (by decide : Fsm.wAdv.Running) (step_goto_write hv (by decide)) (ih (by omega) (s := nextChunk v) hv)

theorem leads_writeCode (fuel : Nat) {s : State} (hs : InProgress opWrite s) (hf : s.fsm = .wCheck) :
    Leads fuel returnOk s (writeCode fuel s) := by
  have hstep : step s = .next (validate writeSetup s) := by
    rw [step_of_nil hs.2, cycle_busy (by simp [hf]), advance_of_write hs.1, writeFsm, hf]
  exact (leads_validateHandle (hf ▸ by decide) hstep).andThen hs fun u hu => leads_writeLoop fuel le_rfl hu

theorem leads_settle_erase (fuel : Nat) {s : State} (hs : InProgress opErase s) :
    Leads fuel (goto .eAdv) (goto .eSettle s)
      (pollWip fuel (delay .settleErase s).csCur .pollErase (delay .settleErase s)) :=
  .of_goto (by decide) (step_goto_erase hs (by decide))
    (pollsAt_erase.leads_pollWip (fun _ _ => rfl) (s := delay .settleErase s) fuel hs rfl)

/-- One pass of ERASE's loop is one round of the states from `E_NEXT` to `E_ADV` (R211, R216). -/
theorem leads_eraseLoop (pollFuel : Nat) {fuel : Nat} (hfuel : fuel ≤ pollFuel) {s : State} (hs : InProgress opErase s) :
    Leads fuel (goto .eWrdi) (goto .eNext s) (eraseLoop pollFuel fuel s) := by
  induction fuel generalizing s with
  | zero => exact .unfinished <| stays_zero (by simp)
  | succ fuel ih =>
    have hnext : step (goto .eNext s) = .next (eraseNext s) := step_goto_erase hs (by decide)
    rw [eraseNext] at hnext
    dsimp only [eraseLoop]
    split_ifs at hnext ⊢ with hr
    · refine .of_goto (by decide) hnext ((leads_arm_erase hs).andThen (o := opErase) hs fun u hu => ?_)
      have hsse : InProgress opErase (subsectorErase u.csCur (wireAddr u.cur) u) := InProgress.subsectorErase (s := u) hu _ _
      have herase : step (goto .eSse u) = .next (goto .eSettle (subsectorErase u.csCur (wireAddr u.cur) u)) :=
        (step_goto_erase hu (by decide)).trans (by simp [eraseFsm])
      refine .of_goto (by decide) herase
        (((leads_settle_erase pollFuel hsse).mono hfuel).andThen (o := opErase) hsse fun v hv => ?_)
      exact .of_step_succ (by decide : Fsm.eAdv.Running) (step_goto_erase hv (by decide)) (ih (by omega) (s := nextSubsector v) hv)
    · exact .of_goto (by decide) hnext (.ok (.refl _))

theorem leads_eraseCode (fuel : Nat) {s : State} (hs : InProgress opErase s) (hf : s.fsm = .eCheck) :
    Leads fuel returnOk s (eraseCode fuel s) := by
  have hstep : step s = .next (validate eraseSetup s) := by
    rw [step_of_nil hs.2, cycle_busy (by simp [hf]), advance_of_erase hs.1, eraseFsm, hf]
  refine (leads_validateHandle (hf ▸ by decide) hstep).andThen hs fun u hu => ?_
  have hu : InProgress opErase (firstSubsector (claimRange u)) := hu
  refine (leads_eraseLoop fuel le_rfl hu).andThen (o := opErase) hu fun v hv => ?_
  have hwrdi : step (goto .eWrdi v) = .next (returnOk (writeDisable v.csCur v)) :=
    (step_goto_erase hv (by decide)).trans (by simp [eraseFsm, returnOk_goto])
  exact .of_goto (by decide) hwrdi (.ok (.refl _))

theorem leads_chipEraseCode (fuel : Nat) {s : State} (hs : InProgress opChipErase s) (hf : s.fsm = .cCheck) :
    Leads fuel returnOk s (chipEraseCode fuel s) := by
  have hstep : step s = .next (validate (goto .cWren) s) := by
    rw [step_of_nil hs.2, cycle_busy (by simp [hf]), advance_of_chipErase hs.1, chipEraseFsm, hf]
  refine (leads_validateHandle (hf ▸ by decide) hstep).andThen hs fun u hu => ?_
  refine (leads_arm_chipErase (s := u) hu).andThen (o := opChipErase) hu fun v hv => ?_
  have hstart : step (goto .cBe v) = .next (chipEraseStart v) :=
    (step_goto_chipErase hv (by decide)).trans (congrArg _ (chipEraseStart_goto .cBe v))
  exact .of_goto (by decide) hstart
    (pollsAt_chipErase.leads_pollWip (fun _ _ => rfl) fuel (InProgress.bulkErase (s := v) hv v.csCur) (by simp))

theorem leads_readCode (n : Nat) {s : State} (hs : InProgress opRead s) (hf : s.fsm = .rCheck) :
    Leads n returnOk s (readCode s) := by
  have hstep : step s = .next (validate readSetup s) := by
    rw [step_of_nil hs.2, cycle_busy (by simp [hf]), advance_of_read hs.1, readFsm, hf]
  refine (leads_validateHandle (hf ▸ by decide) hstep).andThen hs fun u hu => ?_
  have hframe : step (readSetup u) = .next (readFrame (readSetup u)) :=
    (step_goto (s := claimRange u) hu.2 (by decide)).trans (advance_of_read hu.1)
  have hread : readFrame (readSetup u) = returnOk (readData (claimRange u).csCur (wireAddr (claimRange u).addr.toNat)
      (claimRange u).len.toNat (claimRange u)) :=
    (congrArg returnOk (readData_goto .rFrame _ _ _ (claimRange u))).trans rfl
  exact .of_step (by decide : Fsm.rFrame.Running) (hframe.trans (congrArg _ hread)) (.ok (.refl _))

theorem step_goto_probe {s : State} {f : Fsm} (h : InProgress opProbe s) (hf : f ≠ .idle) :
    step (goto f s) = probeFsm (goto f s) :=
  (step_goto h.2 hf).trans (advance_of_probe h.1)

theorem resolve_goto (f : Fsm) (s : State) : resolve (goto f s) = resolve s := rfl

theorem step_pId {s : State} (h : InProgress opProbe s) : step (goto .pId s) = .next (goto .pResolve (readId s.csCur s)) :=
  (step_goto_probe h (by decide)).trans (by simp [probeFsm])

theorem step_pResolve {s : State} (h : InProgress opProbe s) : step (goto .pResolve s) = .next (resolve s) := by
  rw [step_goto_probe h (by decide), ← resolve_goto .pResolve s]
  rfl

/-- What is left of PROBE on the line `c` when the identification block is read (R161). -/
def resolveCode (c : Byte) (s : State) : Flow :=
  if s.idbuf[0] = Config.idleByte then .raised .noDevice s
  else
    match lookup s s.idbuf[0] (deviceId s.idbuf[1] s.idbuf[2]) with
    | none => .raised .unsupportedDevice s
    | some r => if s.attCount = s.cfg.maxChips then .raised .tooManyChips s else .ok (appendEntry c r s)

theorem probeCode_eq (s : State) :
    probeCode s = resolveCode s.sel (readId s.sel (busInitialise (pinInit s.sel (chooseLine s.sel s)))) := rfl

theorem leads_resolveCode {n : Nat} {s : State} : Leads n returnOk (resolve s) (resolveCode s.csCur s) := by
  rcases resolve_cases s with ⟨hidle, h⟩ | ⟨hidle, hlook, h⟩ | ⟨r, hidle, hlook, ⟨hfull, h⟩ | ⟨hroom, h⟩⟩ <;> rw [h]
  · rw [resolveCode, if_pos hidle]
    exact .raised (.refl _)
  all_goals
    rw [resolveCode, if_neg hidle, hlook]
    dsimp only
  · exact .raised (.refl _)
  · rw [if_pos hfull]
    exact .raised (.refl _)
  · rw [if_neg hroom]
    exact .ok (.refl _)

theorem leads_probeCode (n : Nat) {s : State} (hs : InProgress opProbe s) (hf : s.fsm = .pInit) :
    Leads n returnOk s (probeCode s) := by
  have hinit : step s = .next (goto .pId (busInitialise (pinInit s.sel (chooseLine s.sel s)))) := by
    rw [step_of_nil hs.2, cycle_busy (by simp [hf]), advance_of_probe hs.1, probeFsm, hf]
    rfl
  have hx : InProgress opProbe (busInitialise (pinInit s.sel (chooseLine s.sel s))) := hs
  have hcx : (busInitialise (pinInit s.sel (chooseLine s.sel s))).csCur = s.sel := rfl
  rw [probeCode_eq]
  generalize busInitialise (pinInit s.sel (chooseLine s.sel s)) = x at hinit hx hcx ⊢
  rw [← hcx]
  refine .of_step (hf ▸ by decide) hinit (.of_goto (by decide) (step_pId hx) ?_)
  have hu : InProgress opProbe (readId x.csCur x) := by simpa [InProgress] using hx
  refine .of_goto (by decide) (step_pResolve hu) ?_
  have hresolve : Leads n returnOk _ _ := leads_resolveCode (s := readId x.csCur x)
  rwa [readId_csCur] at hresolve

/-- A machine that stops does not come to `DONE`. -/
theorem stays_of_fault {n : Nat} {s : State} {r : Fault} (hs : s.fsm ≠ .done) (h : step s = .fault r) : Stays n s := by
  intro j _ t ht
  cases j with
  | zero => exact Host.Outcome.next.inj ht ▸ hs
  | succ j =>
    obtain ⟨u, hu, -⟩ := exists_step_of_run_succ ht
    exact nomatch h.symm.trans hu

theorem leads_infoCode (n : Nat) {s : State} (hs : InProgress opInfo s) (hf : s.fsm = .iLookup) :
    Leads n returnOk s (infoCode s) := by
  have hstep : step s = infoLookup s := by
    rw [step_of_nil hs.2, cycle_busy (by simp [hf]), advance_of_info hs.1, infoFsm, hf]
  have hrun : s.fsm.Running := hf ▸ by decide
  dsimp only [infoCode, infoLookup] at hstep ⊢
  cases he : s.att[s.sel.toNat]? with
  | none =>
    simp only [he, infoUnbound] at hstep
    dsimp only
    cases hpol : s.cfg.infoPolicy with
    | hold => exact .ok (.head hrun (hstep.trans (by rw [hpol])) (.refl _))
    | error => exact .raised (.head hrun (hstep.trans (by rw [hpol])) (.refl _))
  | some e =>
    simp only [he] at hstep
    dsimp only
    cases hd : describe s e.type with
    | none => exact .unfinished <| stays_of_fault hrun.2 (hstep.trans (by rw [hd]))
    | some d => exact .ok (.head hrun (hstep.trans (by rw [hd])) (.refl _))

/-- R30, D34: the machine follows the pseudocode of the operation it has just accepted. -/
theorem leads_pseudocode (fuel : Nat) {s : State} {r : Request} {i : Instr} (hd : decodeRequest r = .ok i)
    (hp : s.resetPlan = []) :
    Leads fuel returnOk (accept r (firstState i) s) (pseudocode fuel i (accept r (firstState i) s)) := by
  rcases decodeRequest_cases r with
    ⟨ho, e⟩ | ⟨ho, e⟩ | ⟨ho, e⟩ | ⟨ho, e⟩ | ⟨ho, e⟩ | ⟨ho, e⟩ | ⟨ho, e⟩
  · obtain rfl := Except.ok.inj (e.symm.trans hd)
    exact leads_probeCode fuel ⟨ho, hp⟩ rfl
  · obtain rfl := Except.ok.inj (e.symm.trans hd)
    exact leads_infoCode fuel ⟨ho, hp⟩ rfl
  · obtain rfl := Except.ok.inj (e.symm.trans hd)
    exact leads_readCode fuel ⟨ho, hp⟩ rfl
  · obtain rfl := Except.ok.inj (e.symm.trans hd)
    exact leads_writeCode fuel ⟨ho, hp⟩ rfl
  · obtain rfl := Except.ok.inj (e.symm.trans hd)
    exact leads_eraseCode fuel ⟨ho, hp⟩ rfl
  · obtain rfl := Except.ok.inj (e.symm.trans hd)
    exact leads_chipEraseCode fuel ⟨ho, hp⟩ rfl
  · exact nomatch e.symm.trans hd

/-- R31: an idle controller accepts the request presented. -/
theorem step_accept {s : State} {r : HostRequest} {rs : List HostRequest} {i : Instr} (hp : s.resetPlan = [])
    (hi : s.fsm = .idle) (hr : s.requests = r :: rs) (hd : decodeRequest r.req = .ok i) :
    step s = .next (accept r.req (firstState i) { s with requests := rs, wdata := r.data }) :=
  (step_of_nil hp).trans ((cycle_accept hi hr hd).trans (exec_of_idle (s := { s with requests := rs, wdata := r.data }) hd hi))

/-- The machine comes to the answer of a piece of pseudocode that ends, and there first to `DONE`. -/
theorem Leads.path_of_answer {n : Nat} {s t : State} {a : Flow} (h : Leads n returnOk s a) (ha : a.answer = some t) :
    t.fsm = .done ∧ ∃ k, Path k s t := by
  cases h with
  | ok hp =>
    obtain rfl := Option.some.inj ha
    exact ⟨rfl, _, hp⟩
  | raised hp =>
    obtain rfl := Option.some.inj ha
    exact ⟨rfl, _, hp⟩
  | unfinished _ => exact nomatch ha

/-- Followed for as many steps as the machine takes to its first `DONE`, the pseudocode has ended there. -/
theorem Leads.answer_eq {k : Nat} {s t : State} {a : Flow} (h : Leads k returnOk s a)
    (hrun : Host.Core.run core k s = .next t) (hdone : t.fsm = .done)
    (hfirst : ∀ j < k, ∀ u, Host.Core.run core j s = .next u → u.fsm ≠ .done) : a.answer = some t := by
  have hsame {u : State} (ha : a.answer = some u) : u = t := by
    obtain ⟨hu, m, hpath⟩ := h.path_of_answer ha
    rcases Nat.lt_trichotomy k m with hkm | rfl | hmk
    · exact absurd hdone (hpath.not_done hkm hrun)
    · exact Host.Outcome.next.inj (hpath.run.symm.trans hrun)
    · exact absurd hu (hfirst m hmk u hpath.run)
  cases h with
  | ok hp => exact congrArg some (hsame rfl)
  | raised hp => exact congrArg some (hsame rfl)
  | unfinished hs => exact absurd hdone (hs k le_rfl t hrun)

/-- Settles O54: the path of `leads_pseudocode` to the answer, after the step that accepts. -/
theorem stateMachineRunsThePseudocode : Obligations.StateMachineRunsThePseudocode := by
  intro s t r rs i fuel hp hi hr hd hans
  obtain ⟨-, k, hpath⟩ :=
    (leads_pseudocode fuel (s := { s with requests := rs, wdata := r.data }) hd hp).path_of_answer hans
  exact ⟨k + 1, (run_succ (step_accept hp hi hr hd) k).trans hpath.run⟩

/-- Settles O55: run with as much fuel as the machine takes steps after the one that accepts. -/
theorem pseudocodeFollowsTheStateMachine : Obligations.PseudocodeFollowsTheStateMachine := by
  intro s t r rs i k hp hi hr hd hrun hdone hfirst
  have hacc := step_accept hp hi hr hd
  cases k with
  | zero =>
    obtain rfl := Host.Outcome.next.inj hrun
    exact nomatch hi.symm.trans hdone
  | succ k =>
    rw [run_succ hacc] at hrun
    exact ⟨k, (leads_pseudocode k (s := { s with requests := rs, wdata := r.data }) hd hp).answer_eq hrun hdone
      fun j hj u hu => hfirst (j + 1) (by omega) u ((run_succ hacc j).trans hu)⟩

end Sys2Proof.Machine
end

section
/-! ## The poll loops on a line that does not answer (R147, R335) -/

namespace Sys2Proof.Machine

theorem PollsAt.inProgress {o : BitVec 3} {poll wait : Fsm} {fin : State → State} {d : Wait} {s : State}
    (h : PollsAt o poll wait fin d) (hp : s.resetPlan = []) (hop : OperationMatchesFsm s) (hf : s.fsm = poll) :
    InProgress o s :=
  ⟨(hop (hf ▸ h.poll_running.1)).2 o (hf ▸ h.owner), hp⟩

/-- R251: a status read on an empty line reads 0xFF, which shows WIP, and leaves the environment. -/
theorem readStatus_empty {s : State} (h : s.env.lineAt s.csCur = .empty) :
    statusWip (readStatus s.csCur s).stat = true ∧ (readStatus s.csCur s).env = s.env := by
  obtain ⟨hin, hafter⟩ := Env.frame_empty s.cfg.opc s.csCur [s.cfg.opc.rdsr, s.cfg.opc.dummyTx] s.env h
  rw [readStatus_eq, hin, hafter]
  exact ⟨show statusWip 0xFF = true by decide, rfl⟩

theorem run_succ_last {s t u : State} {k : Nat} (h : Host.Core.run core k s = .next t) (hu : step t = .next u) :
    Host.Core.run core (k + 1) s = .next u := by
  induction k generalizing s with
  | zero =>
    obtain rfl := Host.Outcome.next.inj h
    exact run_succ hu 0
  | succ k ih =>
    obtain ⟨v, hs, hv⟩ := exists_step_of_run_succ h
    exact (run_succ hs (k + 1)).trans (ih hv)

/-- What a poll loop keeps while it goes on. -/
structure InLoop (o : BitVec 3) (poll wait : Fsm) (s t : State) : Prop where
  fsm : t.fsm = poll ∨ t.fsm = wait
  inProgress : InProgress o t
  cfg : t.cfg = s.cfg
  busy : t.busy = s.busy
  requests : t.requests = s.requests
  att : t.att = s.att
  empty : s.env.lineAt s.csCur = .empty → t.env.lineAt t.csCur = .empty

section
variable {o : BitVec 3} {poll wait : Fsm} {fin : State → State} {d : Wait} (h : PollsAt o poll wait fin d)
include h

/-- R147: without a limit a step of the loop stays in the loop, unless it is a status read that shows WIP clear. -/
theorem InLoop.step {s t : State} (ht : InLoop o poll wait s t) (hlim : s.cfg.pollLimit = none) :
    (∃ u, step t = .next u ∧ InLoop o poll wait s u) ∨
      s.env.lineAt s.csCur ≠ .empty ∧ t.fsm = poll ∧ statusWip (readStatus t.csCur t).stat = false := by
  rcases ht.fsm with hf | hf
  · have hstep := h.step_poll t ht.inProgress hf
    cases hwip : statusWip (readStatus t.csCur t).stat with
    | false =>
      refine .inr ⟨fun hempty => ?_, hf, rfl⟩
      simp [(readStatus_empty (ht.empty hempty)).1] at hwip
    | true =>
      rw [pollTest_of_busy _ _ hwip (by simp [ht.cfg, hlim])] at hstep
      refine .inl ⟨_, hstep, .inr rfl, ?_, ?_, ?_, ?_, ?_, fun hempty => ?_⟩
      · simpa [InProgress] using ht.inProgress
      · simpa using ht.cfg
      · simpa using ht.busy
      · simpa using ht.requests
      · simpa using ht.att
      · simpa [(readStatus_empty (ht.empty hempty)).2] using ht.empty hempty
  · exact .inl ⟨_, h.step_wait t ht.inProgress hf, .inl rfl, ht.inProgress, ht.cfg, ht.busy, ht.requests, ht.att, ht.empty⟩

theorem InLoop.run {s : State} (hs : InLoop o poll wait s s) (hlim : s.cfg.pollLimit = none) (k : Nat) :
    (∃ t, Host.Core.run core k s = .next t ∧ InLoop o poll wait s t) ∨
      s.env.lineAt s.csCur ≠ .empty ∧ ∃ j < k, ∃ t, Host.Core.run core j s = .next t ∧ t.fsm = poll ∧
        statusWip (readStatus t.csCur t).stat = false := by
  induction k with
  | zero => exact .inl ⟨s, rfl, hs⟩
  | succ k ih =>
    rcases ih with ⟨t, hrun, ht⟩ | ⟨hline, j, hj, hexit⟩
    · rcases ht.step h hlim with ⟨u, hu, hloop⟩ | ⟨hline, hexit⟩
      · exact .inl ⟨u, run_succ_last hrun hu, hloop⟩
      · exact .inr ⟨hline, k, by omega, t, hrun, hexit⟩
    · exact .inr ⟨hline, j, by omega, hexit⟩

/-- R147: on an empty line every poll counts one up, and the one that reaches the limit ends in Timeout. -/
theorem PollsAt.run_empty {m l : Nat} {s : State} (hs : InProgress o s) (hf : s.fsm = poll)
    (hlim : s.cfg.pollLimit = some l) (hempty : s.env.lineAt s.csCur = .empty) (hm : s.polls + m + 1 = l) :
    ∃ t, Host.Core.run core (2 * m + 1) s = .next t ∧ t.fsm = .done ∧ t.resCode = 6 ∧ t.polls = l := by
  induction m generalizing s with
  | zero =>
    obtain ⟨hwip, henv⟩ := readStatus_empty hempty
    have hstep := h.step_poll s hs hf
    rw [pollTest_of_limit _ _ hwip ⟨l, by simpa using hlim, by simp; omega⟩] at hstep
    exact ⟨_, run_succ hstep 0, rfl, rfl, by simpa using hm⟩
  | succ m ih =>
    obtain ⟨hwip, henv⟩ := readStatus_empty hempty
    have hstep := h.step_poll s hs hf
    rw [pollTest_of_busy _ _ hwip (by simp [hlim]; omega)] at hstep
    have hr : InProgress o (readStatus s.csCur s) := by simpa [InProgress] using hs
    have hwait := h.step_wait (goto wait (setPolls ((readStatus s.csCur s).polls + 1) (readStatus s.csCur s))) hr rfl
    rw [show 2 * (m + 1) + 1 = (2 * m + 1) + 1 + 1 by omega, run_succ hstep, run_succ hwait]
    refine ih ?_ rfl ?_ ?_ ?_
    · exact hr
    · simpa using hlim
    · simpa [henv] using hempty
    · simp
      omega

end

/-- Settles O47: the run of `InLoop.run` in each of the three loops. -/
theorem unresponsiveDeviceHangsTheController : Obligations.UnresponsiveDeviceHangsTheController := by
  intro s hp hop hbusy hlim p hmem hf k
  have key {o : BitVec 3} {fin : State → State} {d : Wait} (h : PollsAt o p.1 p.2 fin d) :
      (∃ t, Host.Core.run core k s = .next t ∧ InLoop o p.1 p.2 s t) ∨ _ :=
    InLoop.run h ⟨.inl hf, h.inProgress hp hop hf, rfl, rfl, rfl, rfl, id⟩ hlim k
  have hrun : (∃ o t, Host.Core.run core k s = .next t ∧ InLoop o p.1 p.2 s t) ∨
      s.env.lineAt s.csCur ≠ .empty ∧ ∃ j < k, ∃ t, Host.Core.run core j s = .next t ∧ t.fsm = p.1 ∧
        statusWip (readStatus t.csCur t).stat = false := by
    simp only [List.mem_cons, List.not_mem_nil, or_false] at hmem
    rcases hmem with rfl | rfl | rfl
    exacts [(key pollsAt_write).imp_left (⟨_, ·⟩), (key pollsAt_erase).imp_left (⟨_, ·⟩),
      (key pollsAt_chipErase).imp_left (⟨_, ·⟩)]
  dsimp only
  rcases hrun with ⟨o, t, hrun, ht⟩ | ⟨hline, j, hj, t, hrun, hpoll, hwip⟩
  · have hin : _ ∧ _ ∧ _ ∧ _ := ⟨ht.fsm, ht.busy.trans hbusy, ht.requests, ht.att⟩
    exact ⟨.inl ⟨t, hrun, hin⟩, fun _ => ⟨t, hrun, hin⟩⟩
  · exact ⟨.inr ⟨j, hj, t, _, hrun, hpoll, exec_rdsr t, hwip⟩, fun hempty => absurd hempty hline⟩

/-- Settles O48: the run of `PollsAt.run_empty` in each of the three loops. -/
theorem finiteLimitEndsInTimeout : Obligations.FiniteLimitEndsInTimeout := by
  intro s l hp hop hlim hempty hlt hfsm
  have key {o : BitVec 3} {poll wait : Fsm} {fin : State → State} {d : Wait} (h : PollsAt o poll wait fin d)
      (hf : s.fsm = poll) :=
    h.run_empty (m := l - s.polls - 1) (h.inProgress hp hop hf) hf hlim hempty (by omega)
  rw [show 2 * (l - s.polls) - 1 = 2 * (l - s.polls - 1) + 1 by omega]
  rcases hfsm with hf | hf | hf
  exacts [key pollsAt_write hf, key pollsAt_erase hf, key pollsAt_chipErase hf]

end Sys2Proof.Machine
end

section
/-! ## A chunk programmed into a reference device (R257, R260) -/

namespace Sys2Proof.Machine

/-! ### What a chunk leaves in the array -/

/-- R262: inside one page the address does not wrap. -/
theorem programCells_of_page {a : Nat} {data : List Byte} (hpage : a % 256 + data.length ≤ 256) :
    RefDevice.programCells a data = (data.zipIdx a).map Prod.swap := by
  refine List.ext_getElem (by simp [RefDevice.programCells]) fun i hi _ => ?_
  have hi : i < data.length := by simpa [RefDevice.programCells] using hi
  have hcell : pageBase a + (a + i) % Config.pageSize = a + i := by
    simp only [pageBase, Config.pageSize]
    omega
  simp [RefDevice.programCells, hcell]

theorem read_program_zipIdx {m : Memory} (hm : m.wf) {a : Nat} {data : List Byte}
    (herased : ∀ i < data.length, m.read (a + i) = 0xFF) {i : Nat} (hi : i < data.length) :
    (m.program ((data.zipIdx a).map Prod.swap)).read (a + i) = data[i] := by
  induction data generalizing m a i with
  | nil => simp at hi
  | cons b bs ih =>
    have hb : (m.programByte a b).read a = b := by
      have h0 : m.read a = 0xFF := herased 0 (by simp)
      rw [Memory.read_programByte hm, if_pos rfl, h0]
      exact BitVec.allOnes_and
    have hother (x : Nat) (hx : x ≠ a) : (m.programByte a b).read x = m.read x := by
      rw [Memory.read_programByte hm, if_neg hx]
    show ((m.programByte a b).program ((bs.zipIdx (a + 1)).map Prod.swap)).read (a + i) = _
    cases i with
    | zero =>
      refine (Memory.read_program_of_not_mem (Memory.programByte_wf hm a b) fun c hc => ?_).trans hb
      simp only [List.mem_map, Prod.exists] at hc
      obtain ⟨v, n, hmem, rfl⟩ := hc
      have := List.le_snd_of_mem_zipIdx hmem
      simp at this ⊢
      omega
    | succ i =>
      have hlen : i < bs.length := by simpa using hi
      have := ih (Memory.programByte_wf hm a b) (a := a + 1) (fun j hj => ?_) hlen
      · simpa [Nat.add_assoc, Nat.add_comm 1] using this
      · rw [hother _ (by omega)]
        simpa [Nat.add_assoc, Nat.add_comm 1] using herased (j + 1) (by simpa using hj)

/-- R260: a chunk programmed into erased bytes of one page reads back. -/
theorem read_programCells {m : Memory} (hm : m.wf) {a : Nat} {data : List Byte} (hpage : a % 256 + data.length ≤ 256)
    (herased : ∀ i < data.length, m.read (a + i) = 0xFF) {i : Nat} (hi : i < data.length) :
    (m.program (RefDevice.programCells a data)).read (a + i) = data[i] := by
  rw [programCells_of_page hpage, read_program_zipIdx hm herased hi]

/-- R260: every byte outside the chunk reads as before. -/
theorem read_programCells_other {m : Memory} (hm : m.wf) {a : Nat} {data : List Byte}
    (hpage : a % 256 + data.length ≤ 256) {x : Nat} (hx : x < a ∨ a + data.length ≤ x) :
    (m.program (RefDevice.programCells a data)).read x = m.read x := by
  refine Memory.read_program_of_not_mem hm fun c hc => ?_
  obtain ⟨i, hi, rfl⟩ := mem_programCells.mp hc
  dsimp only
  omega

/-! ### The controller and the device on its line -/

/-- The controller, with the parameters `cfg`, drives the line `c`, on which the device `d` stands. -/
structure Drives (cfg : Config) (c : Byte) (s : State) (d : RefDevice) : Prop where
  cfg_eq : s.cfg = cfg
  csCur : s.csCur = c
  opc : cfg.opc.wf
  env : s.env.wf
  line : s.env.lineAt c = .device d

section
variable {cfg : Config} {c : Byte} {s : State} {d : RefDevice} (h : Drives cfg c s d)
include h

/-- A wire command that is no status read, by what the device does at the end of its frame (R251). -/
theorem Drives.of_exec {t : State} {w : Instr} {x : RefDevice} (hw : w.isHost = false) (hr : w ≠ .rdsr)
    (hex : exec w s = .next t)
    (hx : ({ d with rx := outs (frameOf cfg.opc w) } : RefDevice).atDeselect cfg.opc = .device x) :
    Drives cfg c t x := by
  obtain ⟨rfl, rfl, ho, he, hl⟩ := h
  obtain ⟨-, henv, -⟩ := exec_wire_next hw hex
  obtain ⟨hkeeps, -⟩ := wireCommandsChangeOnlyTheBus s t w hw hex
  exact ⟨(congrArg State.cfg hkeeps :), (congrArg State.csCur hkeeps :), ho, henv ▸ Env.frameAfter_wf he _ _ _,
    lineAt_of_exec ho he hl hw hr hex hx⟩

/-- WREN on an idle device that does not refuse (R254). -/
theorem Drives.writeEnable (hd : d.wip = false) (hr : d.refusals = []) :
    Drives cfg c (writeEnable c s) { d with wel := true, rx := [] } := by
  have harmed : ({ d with rx := [] } : RefDevice).armed = { d with wel := true, rx := [] } := by simp [RefDevice.armed, hr]
  exact h.of_exec rfl (by simp) (h.csCur ▸ exec_wren s) (harmed ▸ RefDevice.atDeselect_wren cfg.opc d hd)

/-- WRDI on a busy device (R256). -/
theorem Drives.writeDisable (hd : d.wip = true) : Drives cfg c (writeDisable c s) { d with rx := [] } :=
  h.of_exec rfl (by simp) (h.csCur ▸ exec_wrdi s) (RefDevice.atDeselect_busy _ _ hd)

/-- PP of a chunk that lies in the array, on an idle device whose latch is set (R257). -/
theorem Drives.pageProgram (hd : d.wip = false) (hwel : d.wel = true) {a : WireAddr} {data : List Byte}
    (hsize : a.toNat + data.length ≤ d.size) :
    Drives cfg c (pageProgram c a data s) { d with
      pending := some (.program (RefDevice.programCells a.toNat data)), wip := true, busyLeft := d.busyReads, rx := [] } := by
  have hcells : ∀ x ∈ RefDevice.programCells a.toNat data, x.1 < d.size :=
    forall_mem_programCells.mpr fun i hi => by omega
  have hx := RefDevice.atDeselect_pp h.opc d hd hwel a data hcells
  rw [← outs_formatAW] at hx
  exact h.of_exec (w := .pp a data) rfl (by simp) (h.csCur ▸ exec_pp a data s) hx

/-- A status read is one tick of the device, and shows WIP and the latch after it (R252). -/
theorem Drives.readStatus :
    Drives cfg c (readStatus c s) { d.tick with rx := [] } ∧
      statusWip (readStatus c s).stat = d.tick.wip ∧ statusWel (readStatus c s).stat = d.tick.wel := by
  obtain ⟨rfl, rfl, ho, he, hl⟩ := h
  obtain ⟨hstat, hline⟩ := readStatus_device ho he hl
  obtain ⟨hwip, hwel⟩ := d.tick.status_bits
  rw [hstat]
  exact ⟨⟨by simp, by simp, ho, readStatus_env_wf _ he, hline⟩, hwip, hwel⟩

end

/-- The device when it has completed what it was busy with (R260). -/
def RefDevice.finished (d : RefDevice) : RefDevice := { d.complete with busyLeft := 0, rx := [] }

theorem RefDevice.finished_of_tick {d : RefDevice} (hd : d.wip = true) (hn : d.busyLeft = 0) :
    ({ d.tick with rx := [] } : RefDevice) = d.finished := by
  rw [RefDevice.tick_of_last hd hn, finished, complete, hn]

/-- R252: as many status reads as the device has busy ones left, and one more, complete the pending operation. -/
theorem Drives.execAll_rdsr {cfg : Config} {c : Byte} {n : Nat} {s : State} {d : RefDevice} (h : Drives cfg c s d)
    (hd : d.wip = true) (hn : d.busyLeft = n) :
    ∃ t, execAll (List.replicate (n + 1) .rdsr) s = .next t ∧ t.rdata = s.rdata ∧ Drives cfg c t d.finished := by
  induction n generalizing s d with
  | zero =>
    have hexec : exec .rdsr s = .next (Machine.readStatus c s) := h.csCur ▸ exec_rdsr s
    have hread := RefDevice.finished_of_tick hd hn ▸ h.readStatus.1
    exact ⟨Machine.readStatus c s, by simp only [Nat.zero_add, List.replicate_one, execAll, hexec], by simp, hread⟩
  | succ n ih =>
    have hexec : exec .rdsr s = .next (Machine.readStatus c s) := h.csCur ▸ exec_rdsr s
    have hread := h.readStatus.1
    rw [RefDevice.tick_of_busy hd (by omega)] at hread
    obtain ⟨t, ht, hrdata, hdrives⟩ := ih hread hd (by simp [hn])
    exact ⟨t, by simpa only [List.replicate_succ, execAll, hexec] using ht, hrdata.trans (by simp), hdrives⟩

theorem execAll_append_of_next {is js : List Instr} {s t : State} (h : execAll is s = .next t) :
    execAll (is ++ js) s = execAll js t := by
  induction is generalizing s with
  | nil => rw [Host.Outcome.next.inj h, List.nil_append]
  | cons i is ih =>
    rw [List.cons_append]
    cases hi : exec i s with
    | next u =>
      simp only [execAll, hi] at h ⊢
      exact ih h
    | fault r => simp [execAll, hi] at h
    | refused r => simp [execAll, hi] at h

/-- RD on an idle device delivers the array's bytes (R255). -/
theorem Drives.readData_rdata {cfg : Config} {c : Byte} {s : State} {d : RefDevice} (h : Drives cfg c s d)
    (hd : d.wip = false) {a : WireAddr} {data : List Byte} (hsize : a.toNat + data.length ≤ d.size)
    (hmem : ∀ i (hi : i < data.length), d.mem.read (a.toNat + i) = data[i]) :
    (readData c a data.length s).rdata = s.rdata ++ data := by
  obtain ⟨rfl, rfl, ho, he, hl⟩ := h
  rw [readData_device ho he hl hd]
  refine congrArg _ (List.ext_getElem (by simp) fun i hi _ => ?_)
  have hi : i < data.length := by simpa using hi
  rw [List.getElem_map, List.getElem_range, Nat.mod_eq_of_lt (by omega), hmem i hi]

/-- Settles O44: WREN and PP leave the program pending, the status reads complete it, and RD reads the array. -/
theorem programmedChunkReadsBack : Obligations.ProgrammedChunkReadsBack := by
  intro s d a data ho he hl hdwf hd hr hpos hpage hsize herased
  have h : Drives s.cfg s.csCur s d := ⟨rfl, rfl, ho, he, hl⟩
  have hpp := (h.writeEnable hd hr).pageProgram hd rfl (a := a) (data := data) hsize
  obtain ⟨t, hpoll, hrdata, ht⟩ := hpp.execAll_rdsr rfl rfl
  have hmem (i : Nat) (hi : i < data.length) :=
    read_programCells hdwf.1 hpage herased hi
  have hread := ht.readData_rdata rfl hsize hmem
  refine ⟨readData t.csCur a data.length t, ?_, ?_⟩
  · have hcmd : execAll [.wren, .pp a data] s =
        .next (pageProgram s.csCur a data (writeEnable s.csCur s)) := by
      simp only [execAll, exec_wren, exec_pp, writeEnable_csCur]
    rw [List.append_assoc, execAll_append_of_next hcmd, execAll_append_of_next hpoll]
    simp only [execAll, exec_rd]
  · rw [ht.csCur, hread, hrdata]
    simp

end Sys2Proof.Machine
end

section
/-! ## A WRITE and a READ of the same range (R266) -/

namespace Sys2Proof.Machine

theorem Flow.ok_andThen (s : State) (f : State → Flow) : (Flow.ok s).andThen f = f s := rfl

/-! ### A request from acceptance to completion -/

theorem Reaches.trans {s t u : State} (h : Reaches s t) (h' : Reaches t u) : Reaches s u := by
  obtain ⟨k, hk⟩ := h
  induction k generalizing s with
  | zero => exact Host.Outcome.next.inj hk ▸ h'
  | succ k ih =>
    obtain ⟨v, hs, hv⟩ := exists_step_of_run_succ hk
    exact .head hs (ih hv)

theorem Path.keeps {k : Nat} {s t : State} {o : BitVec 3} (h : Path k s t) (hs : InProgress o s) :
    latched t = latched s ∧ t.requests = s.requests ∧ (o ≠ opProbe → t.att = s.att) := by
  induction h with
  | refl s => exact ⟨rfl, rfl, fun _ => rfl⟩
  | head hrun hstep _ ih =>
    rcases step_next_cases hs.2 hstep with ⟨hi, -⟩ | ⟨_, _, _, hi, -⟩ | ⟨-, hmove⟩
    · exact absurd hi hrun.1
    · exact absurd hi hrun.1
    · obtain ⟨-, hop, hsel, haddr, hlen, hreq, hplan⟩ := hmove.keeps
      obtain ⟨hl, hr, ha⟩ := ih ⟨hop.trans hs.1, hplan.trans hs.2⟩
      exact ⟨hl.trans (by simp only [latched, hop, hsel, haddr, hlen]), hr.trans hreq,
        fun ho => (ha ho).trans (hmove.probe_owns (hs.1 ▸ ho)).1⟩

/-- A request whose pseudocode ends without an error is completed with OK, and the controller is idle again. -/
theorem reaches_of_pseudocode {s u : State} {r : HostRequest} {rs : List HostRequest} {i : Instr} {fuel : Nat}
    (hp : s.resetPlan = []) (hi : s.fsm = .idle) (hr : s.requests = r :: rs) (hd : decodeRequest r.req = .ok i)
    (hcode : pseudocode fuel i (accept r.req (firstState i) { s with requests := rs, wdata := r.data }) = .ok u) :
    Reaches s (retire (returnOk u)) ∧ u.resetPlan = [] ∧ u.requests = rs ∧ (r.req.op ≠ opProbe → u.att = s.att) := by
  have hleads := leads_pseudocode fuel (s := { s with requests := rs, wdata := r.data }) hd hp
  obtain ⟨-, k, hpath⟩ := hleads.path_of_answer (hcode ▸ rfl : Flow.answer _ = some (returnOk u))
  have hstart : InProgress r.req.op (accept r.req (firstState i) { s with requests := rs, wdata := r.data }) := ⟨rfl, hp⟩
  obtain ⟨hlatched, hreq, hatt⟩ := hpath.keeps hstart
  have hplan : u.resetPlan = [] := (hpath.inProgress hstart).2
  have hdone : step (returnOk u) = .next (retire (returnOk u)) :=
    step_of_done (i := i) hplan rfl (by rw [hlatched]; exact hd)
  exact ⟨.head (step_accept hp hi hr hd) (Reaches.trans ⟨k, hpath.run⟩ (.head hdone (.refl _))), hplan, hreq, hatt⟩

/-! ### ARM and POLL_WIP on a device -/

/-- Only the bus side, `stat` and `polls` differ. -/
def OnBus (s u : State) : Prop :=
  u = { s with csN := u.csN, env := u.env, trace := u.trace, stat := u.stat, polls := u.polls }

theorem OnBus.trans {s t u : State} (h : OnBus s t) (h' : OnBus t u) : OnBus s u := by
  rw [OnBus] at *
  rw [h', h]

theorem onBus_readStatus (c : Byte) (s : State) : OnBus s (readStatus c s) := by
  rw [readStatus_eq]
  rfl

theorem onBus_writeEnable (c : Byte) (s : State) : OnBus s (writeEnable c s) := by
  rw [writeEnable, issueCommand_eq]
  rfl

theorem onBus_writeDisable (c : Byte) (s : State) : OnBus s (writeDisable c s) := by
  rw [writeDisable, issueCommand_eq]
  rfl

theorem onBus_pageProgram (c : Byte) (a : WireAddr) (data : List Byte) (s : State) :
    OnBus s (pageProgram c a data s) := by
  rw [pageProgram_eq]
  rfl

theorem Drives.of_eq {cfg : Config} {c : Byte} {s t : State} {d : RefDevice} (h : Drives cfg c s d)
    (hcfg : t.cfg = s.cfg) (hc : t.csCur = s.csCur) (he : t.env = s.env) : Drives cfg c t d :=
  ⟨hcfg.trans h.cfg_eq, hc.trans h.csCur, h.opc, he ▸ h.env, he ▸ h.line⟩

/-- R146: an idle device that does not refuse is armed. -/
theorem Drives.arm {cfg : Config} {c : Byte} {s : State} {d : RefDevice} (h : Drives cfg c s d) (hd : d.wip = false)
    (hr : d.refusals = []) :
    ∃ u, arm c s = .ok u ∧ OnBus s u ∧ Drives cfg c u { d with wel := true, rx := [] } := by
  obtain ⟨hread, -, hwel⟩ := (h.writeEnable hd hr).readStatus
  rw [RefDevice.tick_of_idle (d := { d with wel := true, rx := [] }) hd] at hread hwel
  exact ⟨_, if_pos hwel, (onBus_writeEnable c s).trans (onBus_readStatus c _), hread⟩

/-- R147: POLL_WIP waits until the device has completed what it is busy with, if the limit allows as many polls. -/
theorem Drives.pollLoop {cfg : Config} {c : Byte} {t : Wait} {n fuel : Nat} {s : State} {d : RefDevice}
    (h : Drives cfg c s d) (hd : d.wip = true) (hn : d.busyLeft = n) (hfuel : n < fuel)
    (hlim : ∀ l, cfg.pollLimit = some l → s.polls + n < l) :
    ∃ u, pollLoop c t fuel s = .ok u ∧ OnBus s u ∧ Drives cfg c u d.finished := by
  induction n generalizing s d fuel with
  | zero =>
    obtain ⟨hread, hwip, -⟩ := h.readStatus
    obtain ⟨fuel, rfl⟩ := Nat.exists_eq_add_one_of_ne_zero (Nat.ne_zero_of_lt hfuel)
    rw [RefDevice.tick_of_last hd hn] at hwip
    rw [RefDevice.finished_of_tick hd hn] at hread
    exact ⟨_, if_neg (by simp [hwip, RefDevice.complete]), onBus_readStatus c s, hread⟩
  | succ n ih =>
    obtain ⟨hread, hwip, -⟩ := h.readStatus
    obtain ⟨fuel, rfl⟩ := Nat.exists_eq_add_one_of_ne_zero (Nat.ne_zero_of_lt hfuel)
    rw [RefDevice.tick_of_busy hd (by omega)] at hwip hread
    have hlimit : ¬ limitReached (Machine.readStatus c s).cfg.pollLimit ((Machine.readStatus c s).polls + 1) = true := by
      rw [limitReached_iff, hread.cfg_eq, readStatus_polls]
      rintro ⟨l, hl, hle⟩
      have := hlim l hl
      omega
    have hloop : Machine.pollLoop c t (fuel + 1) s =
        Machine.pollLoop c t fuel (delay t (setPolls ((Machine.readStatus c s).polls + 1) (Machine.readStatus c s))) :=
      (if_pos (hwip.trans hd)).trans (if_neg hlimit)
    have hbus : OnBus s (delay t (setPolls ((Machine.readStatus c s).polls + 1) (Machine.readStatus c s))) :=
      (onBus_readStatus c s).trans rfl
    have hnext := hread.of_eq (t := delay t (setPolls ((Machine.readStatus c s).polls + 1) (Machine.readStatus c s)))
      rfl rfl rfl
    obtain ⟨u, hu, hbusu, hdrives⟩ := ih (fuel := fuel) hnext hd (by simp [hn]) (by omega) fun l hl => by
      have := hlim l hl
      simp
      omega
    exact ⟨u, hloop.trans hu, hbus.trans hbusu, hdrives⟩

theorem Drives.pollWip {cfg : Config} {c : Byte} {t : Wait} {fuel : Nat} {s : State} {d : RefDevice}
    (h : Drives cfg c s d) (hd : d.wip = true) (hfuel : d.busyLeft < fuel)
    (hlim : ∀ l, cfg.pollLimit = some l → d.busyLeft < l) :
    ∃ u, pollWip fuel c t s = .ok u ∧ OnBus s u ∧ Drives cfg c u d.finished := by
  obtain ⟨u, hu, hbus, hdrives⟩ := (h.of_eq (t := setPolls 0 s) rfl rfl rfl).pollLoop (t := t) hd rfl hfuel
    (by simpa using hlim)
  exact ⟨u, hu, .trans (t := setPolls 0 s) rfl hbus, hdrives⟩

/-! ### WRITE's loop on a device -/

/-- The device when a chunk has been programmed into it. -/
def RefDevice.programmed (d : RefDevice) (a : Nat) (data : List Byte) : RefDevice :=
  { d with
    mem := d.mem.program (programCells a data), wel := false, pending := none, wip := false, busyLeft := 0, rx := [] }

/-- PP, WRDI and POLL_WIP on an idle device whose latch is set (R191). -/
theorem Drives.programChunk {cfg : Config} {c : Byte} {fuel : Nat} {s : State} {d : RefDevice} (h : Drives cfg c s d)
    (hd : d.wip = false) (hwel : d.wel = true) {a : WireAddr} {data : List Byte}
    (hsize : a.toNat + data.length ≤ d.size) (hfuel : d.busyReads < fuel)
    (hlim : ∀ l, cfg.pollLimit = some l → d.busyReads < l) :
    ∃ u, Machine.pollWip fuel c .pollWrite (Machine.writeDisable c (Machine.pageProgram c a data s)) = .ok u ∧
      OnBus s u ∧ Drives cfg c u (d.programmed a.toNat data) := by
  obtain ⟨u, hu, hbus, hdrives⟩ := ((h.pageProgram hd hwel hsize).writeDisable rfl).pollWip (t := .pollWrite) rfl hfuel hlim
  exact ⟨u, hu, (onBus_pageProgram c a data s).trans (.trans (onBus_writeDisable c _) hbus), hdrives⟩

/-- What WRITE's loop rests on at its head: the bytes still to be written are those of the stream, and their range, in the
array, is erased, on an idle device that arms and whose busy reads the poll limit allows. -/
structure WriteReady (cfg : Config) (c : Byte) (s : State) (d : RefDevice) : Prop where
  drives : Drives cfg c s d
  idle : d.wip = false
  arms : d.refusals = []
  limit : ∀ l, cfg.pollLimit = some l → d.busyReads < l
  mem_wf : d.mem.wf
  size : d.size ≤ 2 ^ 24
  rem : s.rem.toNat = s.wdata.length
  page : s.cur % 256 = 0 ∨ s.cur % 256 + s.wdata.length ≤ 256
  fits : s.wdata.length ≠ 0 → s.cur + s.wdata.length ≤ d.size
  erased : ∀ i < s.wdata.length, d.mem.read (s.cur + i) = 0xFF

section
variable {cfg : Config} {c : Byte} {s : State} {d : RefDevice} (h : WriteReady cfg c s d)
include h

theorem WriteReady.page_take : s.cur % 256 + (s.wdata.take 256).length ≤ 256 := by
  have := h.page
  rw [List.length_take]
  omega

/-- R191: the length of the chunk. -/
theorem WriteReady.chunkLen : (chunkLen s.rem).toNat = min s.wdata.length 256 := by
  rw [chunkLen_toNat, h.rem]

/-- One pass of WRITE's loop programs one chunk (R191, R192). -/
theorem WriteReady.chunk {pollFuel : Nat} (hpoll : d.busyReads < pollFuel) (hrem : s.rem ≠ 0) (fuel : Nat) :
    ∃ u, writeLoop pollFuel (fuel + 1) s = writeLoop pollFuel fuel u ∧
      Drives cfg c u (d.programmed s.cur (s.wdata.take 256)) ∧
      u.cur = s.cur + 256 ∧ u.rem.toNat = s.rem.toNat - 256 ∧ u.wdata = s.wdata.drop 256 := by
  have hpos : s.wdata.length ≠ 0 := fun h0 => hrem (BitVec.eq_of_toNat_eq (h.rem.trans h0))
  obtain ⟨v, harm, hbus, hdrives⟩ := (h.drives.of_eq (t := measureChunk s) rfl rfl rfl).arm h.idle h.arms
  have hcur : v.cur = s.cur := (congrArg State.cur hbus :)
  have hwdata : v.wdata = s.wdata := (congrArg State.wdata hbus :)
  have hvrem : v.rem = s.rem := (congrArg State.rem hbus :)
  have hk : v.k.toNat = min s.wdata.length 256 := (congrArg (fun x => x.k.toNat) hbus).trans h.chunkLen
  have hdata : chunkData v = s.wdata.take 256 := by
    rw [chunkData, hwdata, hk, hostBytes_of_le _ _ _ (Nat.min_le_left _ _), List.take_eq_take_iff]
    omega
  have haddr : (wireAddr v.cur).toNat = s.cur := by
    rw [hcur, wireAddr_toNat]
    have := h.fits hpos
    have := h.size
    omega
  have hsize : (wireAddr v.cur).toNat + (chunkData v).length ≤ d.size := by
    have := h.fits hpos
    rw [haddr, hdata, List.length_take]
    omega
  obtain ⟨u, hprogram, hbusu, hdrivesu⟩ := (hdrives.of_eq (t := takeHost v.k.toNat v) rfl rfl rfl).programChunk
    h.idle rfl hsize hpoll h.limit
  rw [haddr, hdata] at hdrivesu
  refine ⟨nextChunk u, ?_, hdrivesu.of_eq rfl rfl rfl, ?_, ?_, ?_⟩
  · rw [writeLoop, if_neg hrem]
    dsimp only
    rw [show (measureChunk s).csCur = c from h.drives.csCur, harm, Flow.ok_andThen, hdrives.csCur, pageProgram_csCur,
      takeHost_csCur, hdrives.csCur, hprogram, Flow.ok_andThen]
  · have : u.cur = v.cur := (congrArg State.cur hbusu :)
    simp [nextChunk, this, hcur, Config.pageSize]
  · have hurem : u.rem = s.rem := (congrArg State.rem hbusu :).trans hvrem
    have huk : u.k.toNat = min s.wdata.length 256 := (congrArg (fun x => x.k.toNat) hbusu :).trans hk
    have hle : min s.wdata.length 256 ≤ s.rem.toNat := h.rem ▸ Nat.min_le_left _ _
    have hext : (u.k.setWidth 32).toNat = min s.wdata.length 256 := by
      rw [BitVec.toNat_setWidth, huk, Nat.mod_eq_of_lt (by omega)]
    rw [nextChunk, BitVec.toNat_sub_of_le (by rw [BitVec.le_def, hext, hurem]; exact hle), hext, hurem, h.rem]
    omega
  · have : u.wdata = v.wdata.drop v.k.toNat := (congrArg State.wdata hbusu :)
    rw [nextChunk]
    dsimp only
    rw [this, hwdata, hk, List.drop_eq_drop_iff]
    omega

/-- The loop's head after a chunk: the next page begins, and what was programmed lies behind (R193). -/
theorem WriteReady.next {u : State} (hdrives : Drives cfg c u (d.programmed s.cur (s.wdata.take 256)))
    (hcur : u.cur = s.cur + 256) (hrem : u.rem.toNat = s.rem.toNat - 256) (hwdata : u.wdata = s.wdata.drop 256) : WriteReady cfg c u (d.programmed s.cur (s.wdata.take 256)) where
  drives := hdrives
  idle := rfl
  arms := h.arms
  limit := h.limit
  mem_wf := Memory.program_wf h.mem_wf _
  size := h.size
  rem := by rw [hrem, h.rem, hwdata, List.length_drop]
  page := by
    have := h.page
    rw [hcur, hwdata, List.length_drop]
    omega
  fits hne := by
    rw [hwdata, List.length_drop] at hne
    have := h.fits (by omega)
    show u.cur + u.wdata.length ≤ d.size
    rw [hcur, hwdata, List.length_drop]
    omega
  erased i hi := by
    rw [hwdata, List.length_drop] at hi
    refine (read_programCells_other h.mem_wf h.page_take (.inr ?_)).trans ?_
    · rw [hcur, List.length_take]
      omega
    · rw [hcur, Nat.add_assoc]
      exact h.erased _ (by omega)

end

/-- The device `d'` is `d` with `data` written from the address `a` on, as far as the bytes up to their end go. -/
structure Written (d d' : RefDevice) (a : Nat) (data : List Byte) : Prop where
  idle : d'.wip = false
  size : d'.size = d.size
  written : ∀ i (hi : i < data.length), d'.mem.read (a + i) = data[i]
  before : ∀ x < a, d'.mem.read x = d.mem.read x

/-- A chunk written, and then the rest of the stream. -/
theorem Written.of_chunk {d d' : RefDevice} {a : Nat} {data : List Byte} (hm : d.mem.wf)
    (hpage : a % 256 + (data.take 256).length ≤ 256) (herased : ∀ i < data.length, d.mem.read (a + i) = 0xFF)
    (h : Written (d.programmed a (data.take 256)) d' (a + 256) (data.drop 256)) : Written d d' a data where
  idle := h.idle
  size := h.size
  written i hi := by
    by_cases hi256 : i < 256
    · have hchunk : i < (data.take 256).length := by
        rw [List.length_take]
        omega
      have herased' (j : Nat) (hj : j < (data.take 256).length) : d.mem.read (a + j) = 0xFF :=
        herased j (by rw [List.length_take] at hj; omega)
      rw [h.before _ (by omega)]
      exact (read_programCells hm hpage herased' hchunk).trans (by simp)
    · have hrest := h.written (i - 256) (by rw [List.length_drop]; omega)
      rw [List.getElem_drop] at hrest
      simpa [Nat.add_assoc, Nat.add_sub_cancel' (Nat.not_lt.mp hi256)] using hrest
  before x hx := (h.before x (by omega)).trans (read_programCells_other hm hpage (.inl hx))

/-- R191, R266: WRITE's loop writes the whole stream. -/
theorem WriteReady.writeLoop {cfg : Config} {c : Byte} {pollFuel fuel : Nat} {s : State} {d : RefDevice}
    (h : WriteReady cfg c s d) (hpoll : d.busyReads < pollFuel) (hfuel : s.wdata.length ≤ 256 * fuel) :
    ∃ u d', writeLoop pollFuel (fuel + 1) s = .ok u ∧ Drives cfg c u d' ∧ Written d d' s.cur s.wdata := by
  have hempty {fuel : Nat} {s : State} {d : RefDevice} (h : WriteReady cfg c s d) (hrem : s.rem = 0) :
      ∃ u d', Machine.writeLoop pollFuel (fuel + 1) s = .ok u ∧ Drives cfg c u d' ∧ Written d d' s.cur s.wdata := by
    have hnil : s.wdata.length = 0 := h.rem.symm.trans (congrArg BitVec.toNat hrem)
    exact ⟨s, d, if_pos hrem, h.drives, h.idle, rfl, fun i hi => by omega, fun _ _ => rfl⟩
  induction fuel generalizing s d with
  | zero => exact hempty h (BitVec.eq_of_toNat_eq (h.rem.trans (Nat.le_zero.mp hfuel)))
  | succ fuel ih =>
    by_cases hrem : s.rem = 0
    · exact hempty h hrem
    obtain ⟨u, hchunk, hdrives, hcur, hurem, hwdata⟩ := h.chunk hpoll hrem (fuel + 1)
    obtain ⟨v, d', hloop, hv, hwritten⟩ := ih (h.next hdrives hcur hurem hwdata) hpoll (by
      rw [hwdata, List.length_drop]
      omega)
    rw [hcur, hwdata] at hwritten
    exact ⟨v, d', hchunk.trans hloop, hv, hwritten.of_chunk h.mem_wf h.page_take h.erased⟩

/-! ### The two requests -/

theorem validateHandle_of_bound {s : State} {e : Attached} (he : s.att[s.sel.toNat]? = some e) :
    validateHandle s = .ok (chooseLine e.cs s) := by
  rw [validateHandle, he]

theorem claimRange_of_covers {s : State} {d : RefDevice} (hd : s.env.lineAt s.csCur = .device d)
    (hc : d.covers s.addr s.len = true) : claimRange s = s := by
  rcases Env.claim_cases s.env s.csCur s.addr s.len with ⟨h, -⟩ | ⟨d', hd', hc', -⟩
  · rw [claimRange, h]
  · obtain rfl : d = d' := Line.device.inj (hd.symm.trans hd')
    simp [hc] at hc'

section
variable {cfg : Config} {s : State} {d : RefDevice} {e : Attached}

/-- R67: the range of an operation that lies in the array is claimed without a change. -/
theorem Drives.claimRange_eq (h : Drives cfg e.cs (chooseLine e.cs s) d) (hlen : s.len.toNat ≠ 0)
    (hfits : s.addr.toNat + s.len.toNat ≤ d.size) (hsize : d.size ≤ 2 ^ 24) :
    claimRange (chooseLine e.cs s) = chooseLine e.cs s := by
  refine claimRange_of_covers h.line ((RefDevice.covers_iff d s.addr s.len).mpr ⟨?_, hfits, hsize⟩)
  omega

theorem writeCode_of_bound (he : s.att[s.sel.toNat]? = some e) (fuel : Nat) :
    writeCode fuel s = writeLoop fuel fuel (firstChunk (claimRange (chooseLine e.cs s))) := by
  rw [writeCode, validateHandle_of_bound he, Flow.ok_andThen]

theorem readCode_of_bound (he : s.att[s.sel.toNat]? = some e) :
    readCode s = .ok (readData e.cs (wireAddr s.addr.toNat) s.len.toNat (claimRange (chooseLine e.cs s))) := by
  rw [readCode, validateHandle_of_bound he, Flow.ok_andThen]
  rfl

/-- WRITE's pseudocode on a device (R191). -/
theorem writeCode_device (he : s.att[s.sel.toNat]? = some e) (h : Drives cfg e.cs (chooseLine e.cs s) d) (hdwf : d.wf)
    (hd : d.wip = false) (hr : d.refusals = []) (hlim : ∀ l, cfg.pollLimit = some l → d.busyReads < l)
    (hlen : s.wdata.length = s.len.toNat) (hne : s.len.toNat ≠ 0)
    (hpage : s.addr.toNat % 256 = 0 ∨ s.addr.toNat % 256 + s.wdata.length ≤ 256)
    (hfits : s.addr.toNat + s.wdata.length ≤ d.size)
    (herased : ∀ i < s.wdata.length, d.mem.read (s.addr.toNat + i) = 0xFF) :
    ∃ fuel u d', writeCode fuel s = .ok u ∧ Drives cfg e.cs u d' ∧ Written d d' s.addr.toNat s.wdata := by
  obtain ⟨hwf, -, -, hsize, -⟩ := hdwf
  have hclaim := h.claimRange_eq hne (hlen ▸ hfits) hsize
  have hready : WriteReady cfg e.cs (firstChunk (chooseLine e.cs s)) d :=
    ⟨h.of_eq rfl rfl rfl, hd, hr, hlim, hwf, hsize, hlen.symm, hpage, fun _ => hfits, herased⟩
  refine ⟨s.wdata.length + d.busyReads + 1, ?_⟩
  rw [writeCode_of_bound he, hclaim]
  exact hready.writeLoop (by omega) (by show s.wdata.length ≤ _; omega)

/-- READ's pseudocode on a device (R181). -/
theorem readCode_device (he : s.att[s.sel.toNat]? = some e) (h : Drives cfg e.cs (chooseLine e.cs s) d)
    (hd : d.wip = false) (hsize : d.size ≤ 2 ^ 24) {data : List Byte} (hlen : data.length = s.len.toNat)
    (hne : s.len.toNat ≠ 0) (hfits : s.addr.toNat + data.length ≤ d.size)
    (hmem : ∀ i (hi : i < data.length), d.mem.read (s.addr.toNat + i) = data[i]) :
    ∃ u, readCode s = .ok u ∧ u.rdata = s.rdata ++ data := by
  refine ⟨_, readCode_of_bound he, ?_⟩
  have haddr : (wireAddr s.addr.toNat).toNat = s.addr.toNat := wireAddr_toNat (by omega)
  rw [h.claimRange_eq hne (hlen ▸ hfits) hsize, ← hlen, h.readData_rdata hd (haddr.symm ▸ hfits) (haddr.symm ▸ hmem)]
  rfl

/-- R180: a READ of no bytes delivers none, whatever stands on the line. -/
theorem readCode_of_len_zero (he : s.att[s.sel.toNat]? = some e) (hlen : s.len.toNat = 0) :
    ∃ u, readCode s = .ok u ∧ u.rdata = s.rdata := by
  refine ⟨_, readCode_of_bound he, ?_⟩
  rw [hlen, readData_eq]
  simp

end

/-- Settles O45: the WRITE's pseudocode writes the device, the READ's delivers what was written, and the machine runs both;
a WRITE and a READ of no bytes do nothing to any line. -/
theorem writeThenReadDeliversTheData : Obligations.WriteThenReadDeliversTheData := by
  intro s d e h a n data rs hp hi ho he hreq hatt hl hdwf hd hr hlim hlen halign hsize herased
  have hwrite : ∃ fuel u, pseudocode fuel (.write h a n)
      (accept ⟨3, h, a, n⟩ .wCheck { s with requests := ⟨⟨2, h, a, n⟩, []⟩ :: rs, wdata := data }) = .ok u ∧
      (n.toNat ≠ 0 → ∃ d', Drives s.cfg e.cs u d' ∧ Written d d' a.toNat data) := by
    by_cases hn : n.toNat = 0
    · have hrem : n = 0 := BitVec.eq_of_toNat_eq hn
      exact ⟨1, _, (writeCode_of_bound hatt 1).trans (if_pos hrem), (absurd hn ·)⟩
    · obtain ⟨fuel, u, d', hcode, hdrives, hwritten⟩ := writeCode_device
        (s := accept ⟨3, h, a, n⟩ .wCheck { s with requests := ⟨⟨2, h, a, n⟩, []⟩ :: rs, wdata := data })
        hatt ⟨rfl, rfl, ho, he, hl⟩ hdwf hd hr hlim hlen hn (hlen ▸ halign) (hlen ▸ hsize) (hlen ▸ herased)
      exact ⟨fuel, u, hcode, fun _ => ⟨d', hdrives, hwritten⟩⟩
  obtain ⟨fuel, u, hcode, hu⟩ := hwrite
  obtain ⟨hreach, huplan, hureq, huatt⟩ := reaches_of_pseudocode (i := .write h a n) hp hi hreq rfl hcode
  have huatt : u.att = s.att := huatt (by decide : (3 : BitVec 3) ≠ opProbe)
  have hread : ∃ v, pseudocode 0 (.read h a n)
      (accept ⟨2, h, a, n⟩ .rCheck { retire (returnOk u) with requests := rs, wdata := [] }) = .ok v ∧ v.rdata = data := by
    by_cases hn : n.toNat = 0
    · obtain ⟨v, hcode, hv⟩ := readCode_of_len_zero
        (s := accept ⟨2, h, a, n⟩ .rCheck { retire (returnOk u) with requests := rs, wdata := [] }) (huatt ▸ hatt) hn
      exact ⟨v, hcode, hv.trans (List.length_eq_zero_iff.mp (hlen.trans hn)).symm⟩
    · obtain ⟨d', hdrives, hwritten⟩ := hu hn
      exact readCode_device
        (s := accept ⟨2, h, a, n⟩ .rCheck { retire (returnOk u) with requests := rs, wdata := [] }) (huatt ▸ hatt)
        ⟨hdrives.cfg_eq, rfl, hdrives.opc, hdrives.env, hdrives.line⟩ hwritten.idle
        (hwritten.size ▸ hdwf.2.2.2.1) hlen hn (hwritten.size ▸ hlen ▸ hsize) hwritten.written
  obtain ⟨v, hcode', hv⟩ := hread
  obtain ⟨hreach', -, hvreq, -⟩ :=
    reaches_of_pseudocode (s := retire (returnOk u)) (i := .read h a n) huplan rfl hureq rfl hcode'
  obtain ⟨k, hk⟩ := hreach.trans hreach'
  exact ⟨k, _, hk, rfl, hvreq, rfl, hv⟩

end Sys2Proof.Machine
end
